-- ==== Sys2Proof/Word.lean ====
section
/-! DEFINITION. The word types: a byte of IN, OUT and OBUF, and a 32-bit register of the register file. -/

namespace Sys2Proof

/-- A byte of the address spaces IN, OUT and OBUF (20_memory.md R50). -/
abbrev Byte := BitVec 8

/-- A register of the register file (10_state.md R22), or a little-endian field of a format (20_memory.md R53). -/
abbrev Word := BitVec 32

end Sys2Proof
end

