-- ==== Sys2Proof/Config.lean ====
section
/-! DEFINITION. The fixed parameters of 00_scope.md R6 and R7, the OPEN parameters of R8 as plain data, and the
free values: constants without a body, of which nothing can be proved. -/

namespace Sys2Proof

namespace Config

/-! ## Fixed parameters (00_scope.md R6, R7) -/

/-- CHUNK_CAP: bytes one chunk may return, and the loop bound of the decoder. -/
@[simp] def chunkCap : Nat := 0x10000
/-- CTX_LEN: bytes of context hashed. -/
@[simp] def ctxLen : Nat := 4
/-- HASH_SHIFT: right shift in the hash. -/
@[simp] def hashShift : Nat := 15
/-- HT_ENTRIES: entries of the hash table. -/
@[simp] def htEntries : Nat := 65536
/-- GROUP_BITS: mask bits per group. -/
@[simp] def groupBits : Nat := 8
/-- MAX_MATCH: the largest match length. -/
@[simp] def maxMatch : Nat := 255
/-- PAD_BYTE: the literal substituted for a missing octet. -/
@[simp] def padByte : Byte := 0xFF#8
/-- LEN_FIELD: bytes of a record's chunk-size field. -/
@[simp] def lenField : Nat := 4
/-- SKIP_LEN: bytes discarded at the start of each record body. -/
@[simp] def skipLen : Nat := 2
/-- PREAMBLE_LEN: bytes of the update file searched for markers. -/
@[simp] def preambleLen : Nat := 0x90
/-- MARKER, the ASCII string A00000 (30_encoding.md R72; its byte values are the spec's passage K3, log 27). -/
def marker : List Byte := [0x41#8, 0x30#8, 0x30#8, 0x30#8, 0x30#8, 0x30#8]
/-- MARKER_LEN: length of MARKER. -/
@[simp] def markerLen : Nat := 6
/-- HDR_BACK: the size and CRC fields start this many bytes before the first marker. -/
@[simp] def hdrBack : Nat := 8
/-- SEARCH2_SKIP: the second search starts this many bytes after the first marker's start. -/
@[simp] def search2Skip : Nat := 9
/-- OBUF_SIZE: the chunk output never grows past it (00_scope.md R7). -/
@[simp] def obufSize : Nat := 67575

/-! ## Free values -/

/-- The word a register read returns where the spec leaves it unspecified (44_commands.md R212), by draw (log 12). -/
opaque freeWord : Nat → Word
/-- The byte a read of OUT returns where the spec leaves it unspecified (70_reset_and_hazards.md R258, R259), by draw
(log 12). -/
opaque freeByte : Nat → Byte
/-- What IN holds after power-on at an address the host has not written (10_state.md R42; log 3). -/
opaque powerOnIn : Nat → Byte
/-- What OUT holds after power-on at an address the engine has not written (10_state.md R42; log 3). -/
opaque powerOnOut : Nat → Byte
/-- An OBUF byte at or beyond OLEN, which "holds no value" (10_state.md R35; log 5). -/
opaque noValueObuf : Nat → Byte

end Config

/-! ## Open parameters (00_scope.md R8) -/

/-- PAD_POLICY: what the decoder does when a group's octets run out (41_chunk_decoder.md R135, R136). -/
inductive PadPolicy
  /-- Every missing octet of the group is a pad (R135, the spec's default). -/
  | padGroup
  /-- The first missing octet is a pad and ends the decode (R136). -/
  | padOnce
  deriving DecidableEq, Repr

/-- The parameters a build of the engine fixes and the spec leaves OPEN (00_scope.md R8; log 1). -/
structure Params where
  /-- IN_CAP: bytes of the input buffer IN. -/
  inCap : Nat
  /-- OUT_CAP: bytes of the output buffer OUT. -/
  outCap : Nat
  /-- PAD_POLICY. -/
  padPolicy : PadPolicy
  deriving DecidableEq, Repr

/-- The ranges 00_scope.md R8 gives the open parameters. -/
abbrev Params.Legal (p : Params) : Prop :=
  1 ≤ p.inCap ∧ p.inCap ≤ 2 ^ 32 - 1 ∧ 0x10000 ≤ p.outCap ∧ p.outCap ≤ 2 ^ 32 - 1

/-- The parameters of `State.reset`: the spec's default pad policy and the largest buffers R8 allows
(DESIGN CHOICE, log 1). -/
def Params.default : Params := ⟨2 ^ 32 - 1, 2 ^ 32 - 1, .padGroup⟩

end Sys2Proof
end

