-- ==== Sys2Proof/Syntax.lean ====
section
/-! DEFINITION. What the engine decodes: one constructor per row of spec/opcode_table.json (30_encoding.md R84). -/

namespace Sys2Proof

/-- The elements of 30_encoding.md R84: the host's commands, and the elements of the input formats. -/
inductive Instr
  /-- CTRL write, START = 1, MODE = 0 (44_commands.md R201). -/
  | decompressUpdate
  /-- CTRL write, START = 1, MODE = 1 (44_commands.md R204). -/
  | decodeStream
  /-- CTRL write, START = 1, MODE = 2 (44_commands.md R205). -/
  | decodeChunk
  /-- CTRL write, START = 1, MODE = 3, reserved (44_commands.md R206). -/
  | badMode3
  /-- CTRL write, SRST = 1 (44_commands.md R207). -/
  | srst
  /-- CTRL write, START = 0 and SRST = 0 (44_commands.md R211). -/
  | modeWrite (mode : BitVec 2)
  /-- The section marker of the preamble (43_container_locator.md R182, R185). -/
  | marker
  /-- The size and CRC-32 fields before the first marker (43_container_locator.md R184). -/
  | secHdr (size crc : Word)
  /-- The chunk-size field of a record (42_chunk_stream.md R161). -/
  | chunkHdr (chunkSize : Word)
  /-- The min(2, chunk_size) reserved bytes at the start of a record body (42_chunk_stream.md R163, R164). -/
  | skip (reserved : List Byte)
  /-- The first min(4, n) bytes of a payload (41_chunk_decoder.md R121, R122). -/
  | initCtx (ctx : List Byte)
  /-- The mask byte of a group (41_chunk_decoder.md R124). -/
  | mask (m : Byte)
  /-- A literal octet (41_chunk_decoder.md R128). -/
  | lit (octet : Byte)
  /-- A match length (41_chunk_decoder.md R129). -/
  | matchLen (len : Byte)
  /-- A step with no octet (41_chunk_decoder.md R135, R136). -/
  | pad
  deriving DecidableEq, Repr

end Sys2Proof
end

