-- ==== Sys2Proof/WellFormed.lean ====
section
/-! DEFINITION. Which terms of Instr stand for an element of the formats. -/

namespace Sys2Proof

/-- A SKIP element is at most SKIP_LEN bytes and an INIT_CTX element at most CTX_LEN bytes (30_encoding.md R75, R76);
every other operand is as wide as its field. -/
def Instr.wellFormed : Instr → Bool
  | .decompressUpdate => true
  | .decodeStream => true
  | .decodeChunk => true
  | .badMode3 => true
  | .srst => true
  | .modeWrite _ => true
  | .marker => true
  | .secHdr _ _ => true
  | .chunkHdr _ => true
  | .skip reserved => reserved.length ≤ Config.skipLen
  | .initCtx ctx => ctx.length ≤ Config.ctxLen
  | .mask _ => true
  | .lit _ => true
  | .matchLen _ => true
  | .pad => true

/-- The well-formed terms, as a proposition. -/
abbrev WellFormed (i : Instr) : Prop := i.wellFormed = true

end Sys2Proof
end

