-- ==== Sys2Proof/Decode.lean ====
section
/-! DEFINITION. The decoder, total on every sequence of bytes and rejecting by name, and the encoder
(30_encoding.md). The elements form levels (R70): which level a byte is read at is known from what came before it,
so the decoder takes the level as an argument. -/

namespace Sys2Proof

/-! ## Integers (00_scope.md R10, 20_memory.md R53) -/

/-- LE(b0 .. b3): the first byte is the least significant. -/
def le32 (b0 b1 b2 b3 : Byte) : Word := b3 ++ b2 ++ b1 ++ b0

/-- The four bytes of a little-endian field, lowest address first. -/
def leBytes (w : Word) : List Byte :=
  [w.extractLsb' 0 8, w.extractLsb' 8 8, w.extractLsb' 16 8, w.extractLsb' 24 8]

/-! ## Levels and answers -/

/-- What is being decoded (30_encoding.md R70). -/
inductive Level
  /-- A CTRL write word (R82). -/
  | command
  /-- Six bytes of the preamble (R71, R72). -/
  | marker
  /-- The eight bytes before the first marker (R71). -/
  | secHdr
  /-- The chunk-size field of a record (R75). -/
  | chunkHdr
  /-- The first `n` bytes of a record body, n = min(2, chunk_size) (R75). -/
  | skip (n : Nat)
  /-- The first `n` bytes of a payload, n = min(4, length) (R76). -/
  | initCtx (n : Nat)
  /-- The first byte of a group (R77). -/
  | mask
  /-- An octet, or its absence, with the mask bit that governs it (R77, R78). -/
  | octet (bit : Bool)
  deriving DecidableEq, Repr

/-- Why bytes are no element at a level. -/
inductive Reject
  /-- The bytes end before the element does. -/
  | missingBytes (l : Level)
  /-- The six bytes are not the marker (30_encoding.md R72). -/
  | notMarker
  /-- No element at this level is that long (30_encoding.md R75, R76). -/
  | noSuchLength (l : Level)
  deriving DecidableEq, Repr

/-- The decoder's answer: an element and the bytes after it, or a rejection by name. -/
inductive Decoded
  | element (i : Instr) (rest : List Byte)
  | rejected (r : Reject)
  deriving DecidableEq, Repr

/-- The element, where there is one. -/
def Decoded.instr? : Decoded → Option Instr
  | .element i _ => some i
  | .rejected _ => none

/-! ## The decoder -/

/-- Decoding of a CTRL write, first matching row wins (30_encoding.md R82); bits 31:4 are ignored. -/
def decodeCtrl (w : Word) : Instr :=
  if w.getLsbD 1 then .srst
  else if w.getLsbD 0 then
    match w.getLsbD 3, w.getLsbD 2 with
    | false, false => .decompressUpdate
    | false, true => .decodeStream
    | true, false => .decodeChunk
    | true, true => .badMode3
  else .modeWrite (w.extractLsb' 2 2)

/-- The element at the start of `bs`, read at level `l`. A CTRL word is no sequence of bytes (20_memory.md R55); at the
level `command` its four bytes stand least significant first (log 17). -/
def decode : Level → List Byte → Decoded
  | .command, b0 :: b1 :: b2 :: b3 :: rest => .element (decodeCtrl (le32 b0 b1 b2 b3)) rest
  | .command, _ => .rejected (.missingBytes .command)
  | .marker, b0 :: b1 :: b2 :: b3 :: b4 :: b5 :: rest =>
    if [b0, b1, b2, b3, b4, b5] = Config.marker then .element .marker rest else .rejected .notMarker
  | .marker, _ => .rejected (.missingBytes .marker)
  | .secHdr, b0 :: b1 :: b2 :: b3 :: b4 :: b5 :: b6 :: b7 :: rest =>
    .element (.secHdr (le32 b0 b1 b2 b3) (le32 b4 b5 b6 b7)) rest
  | .secHdr, _ => .rejected (.missingBytes .secHdr)
  | .chunkHdr, b0 :: b1 :: b2 :: b3 :: rest => .element (.chunkHdr (le32 b0 b1 b2 b3)) rest
  | .chunkHdr, _ => .rejected (.missingBytes .chunkHdr)
  | .skip n, bs =>
    if Config.skipLen < n then .rejected (.noSuchLength (.skip n))
    else if bs.length < n then .rejected (.missingBytes (.skip n))
    else .element (.skip (bs.take n)) (bs.drop n)
  | .initCtx n, bs =>
    if Config.ctxLen < n then .rejected (.noSuchLength (.initCtx n))
    else if bs.length < n then .rejected (.missingBytes (.initCtx n))
    else .element (.initCtx (bs.take n)) (bs.drop n)
  | .mask, b :: rest => .element (.mask b) rest
  | .mask, [] => .rejected (.missingBytes .mask)
  | .octet _, [] => .element .pad []
  | .octet false, b :: rest => .element (.lit b) rest
  | .octet true, b :: rest => .element (.matchLen b) rest

/-- The 9-bit token T = (b << 8) | o of a step whose octet is present (30_encoding.md R78). -/
def decodeToken (t : BitVec 9) : Instr :=
  if t.getLsbD 8 then .matchLen (t.extractLsb' 0 8) else .lit (t.extractLsb' 0 8)

/-! ## The encoder -/

/-- The level an element is read at. A pad has no bytes and any mask bit; the level given for it has the bit 0. -/
def levelOf : Instr → Level
  | .decompressUpdate => .command
  | .decodeStream => .command
  | .decodeChunk => .command
  | .badMode3 => .command
  | .srst => .command
  | .modeWrite _ => .command
  | .marker => .marker
  | .secHdr _ _ => .secHdr
  | .chunkHdr _ => .chunkHdr
  | .skip reserved => .skip reserved.length
  | .initCtx ctx => .initCtx ctx.length
  | .mask _ => .mask
  | .lit _ => .octet false
  | .matchLen _ => .octet true
  | .pad => .octet false

/-- The CTRL word of a command, ignored bits 0 (30_encoding.md R82). -/
def encodeCtrl : Instr → Option Word
  | .decompressUpdate => some 0x00000001#32
  | .decodeStream => some 0x00000005#32
  | .decodeChunk => some 0x00000009#32
  | .badMode3 => some 0x0000000D#32
  | .srst => some 0x00000002#32
  | .modeWrite m => some ((0#28 ++ m) ++ 0#2)
  | _ => none

/-- The bytes of an element (30_encoding.md R71, R75, R76, R77; the four bytes of its word for a command). -/
def encode : Instr → List Byte
  | .decompressUpdate => leBytes 0x00000001#32
  | .decodeStream => leBytes 0x00000005#32
  | .decodeChunk => leBytes 0x00000009#32
  | .badMode3 => leBytes 0x0000000D#32
  | .srst => leBytes 0x00000002#32
  | .modeWrite m => leBytes ((0#28 ++ m) ++ 0#2)
  | .marker => Config.marker
  | .secHdr size crc => leBytes size ++ leBytes crc
  | .chunkHdr chunkSize => leBytes chunkSize
  | .skip reserved => reserved
  | .initCtx ctx => ctx
  | .mask m => [m]
  | .lit octet => [octet]
  | .matchLen len => [len]
  | .pad => []

/-- The 9-bit token of a step whose octet is present (30_encoding.md R78). -/
def encodeToken : Instr → Option (BitVec 9)
  | .lit o => some (0#1 ++ o)
  | .matchLen l => some (1#1 ++ l)
  | _ => none

/-! ## Rows of the opcode table as numbers -/

/-- `n` bytes of a number, the byte of bits 7..0 first. -/
def bytesOfNat : Nat → Nat → List Byte
  | 0, _ => []
  | n + 1, w => BitVec.ofNat 8 w :: bytesOfNat n (w / 256)

/-- The element whose bits are `w`, in a row of `nbits` bits of spec/opcode_table.json. The width says the level: no
bits are a pad, 8 a mask byte, 9 or 16 a token below 2^9 and 16 otherwise two skip bytes, 32 a CTRL word, 48 the marker
(its first byte highest, as the table writes it, or lowest), 64 the section header. Every 32-bit word is a CTRL word,
so CHUNK_HDR and INIT_CTX, whose rows are 32 bits too, cannot be told from it by width (log 17). -/
def decodeTableWord (nbits w : Nat) : Option Instr :=
  match nbits with
  | 0 => (decode (.octet false) []).instr?
  | 8 => (decode .mask (bytesOfNat 1 w)).instr?
  | 9 => some (decodeToken (BitVec.ofNat 9 w))
  | 16 =>
    if w < 512 then some (decodeToken (BitVec.ofNat 9 w))
    else (decode (.skip 2) (bytesOfNat 2 w)).instr?
  | 32 => (decode .command (bytesOfNat 4 w)).instr?
  | 48 =>
    match (decode .marker (bytesOfNat 6 w).reverse).instr? with
    | some i => some i
    | none => (decode .marker (bytesOfNat 6 w)).instr?
  | 64 => (decode .secHdr (bytesOfNat 8 w)).instr?
  | _ => none

end Sys2Proof
end

