-- ==== Sys2Proof/Machine/State.lean ====
section
/-! DEFINITION. The machine's state as plain data: everything 10_state.md gives the engine, the host's pending accesses,
and the reasons a step can stop. -/

namespace Sys2Proof.Machine

/-! ## Where the engine stands -/

/-- The points of the engine's sequential algorithm (20_memory.md R61) between which it decodes one element or makes
one move. -/
inductive Point
  /-- Locate, before the first marker search (43_container_locator.md R182). -/
  | marker1
  /-- Locate, before the size and CRC fields are read (43_container_locator.md R184). -/
  | secHdr
  /-- Locate, before the second marker search (43_container_locator.md R185). -/
  | marker2
  /-- DecodeStream, at the top of its loop (42_chunk_stream.md R161). -/
  | chunkHdr
  /-- DecodeStream, before the reserved bytes of a complete record (42_chunk_stream.md R163). -/
  | skip
  /-- DecodeChunk, before the initial context (41_chunk_decoder.md R121). -/
  | initCtx
  /-- DecodeChunk, at the test of the group loop (41_chunk_decoder.md R123). -/
  | mask
  /-- DecodeChunk, before a step of a group (41_chunk_decoder.md R126). -/
  | token
  /-- DecodeChunk has ended; its result is not yet taken (41_chunk_decoder.md R137). -/
  | chunkEnd
  deriving DecidableEq, Repr

/-- The phase of the engine (10_state.md R21). STATUS.BUSY and STATUS.DONE are views of it. -/
inductive Phase
  | idle
  | busy (p : Point)
  | done
  deriving DecidableEq, Repr

/-- The outcome codes that are produced (60_exceptions.md R221). -/
inductive Code
  | ok
  | marker1NotFound
  | marker2NotFound
  | headerRange
  | truncatedChunk
  | incompleteConsumption
  | unknownContext
  | selfReference
  | outputOverflow
  | badCommand
  deriving DecidableEq, Repr

/-! ## Registers -/

/-- The read-only result registers of 10_state.md R22, offsets 0x0C to 0x30. -/
structure Results where
  /-- OUT_LEN (10_state.md R26). -/
  outLen : Word
  /-- CONSUMED (R27). -/
  consumed : Word
  /-- SEC_START (R28). -/
  secStart : Word
  /-- SEC_SIZE (R28). -/
  secSize : Word
  /-- SEC_CRC32 (R28). -/
  secCrc32 : Word
  /-- CHUNKS (R29). -/
  chunks : Word
  /-- FAULT_CHUNK (R30). -/
  faultChunk : Word
  /-- FAULT_POS (R30). -/
  faultPos : Word
  /-- FAULT_INFO (R30). -/
  faultInfo : Word
  /-- FAULT_IPOS (R30). -/
  faultIpos : Word
  deriving DecidableEq, Repr

/-- The datapath registers of 10_state.md R33 (OLEN is the length of OBUF, log 5), and the variables of the locator and
of the framer that live from one step to the next (log 9). Counts, addresses and positions are numbers: they never wrap
(00_scope.md R9), and `Datapath.FitsWidths` states the widths (log 4). -/
structure Datapath where
  /-- MODE_L, 2 bits: MODE latched at START. -/
  modeL : BitVec 2
  /-- SB, 32 bits: IN address of the first byte of the stream. -/
  sb : Nat
  /-- SL, 32 bits: length of the stream. -/
  sl : Nat
  /-- SP, 32 bits: stream-relative offset of the next record. -/
  sp : Nat
  /-- NCH, 32 bits: records decoded so far. -/
  nch : Nat
  /-- cs, 32 bits: chunk_size of the record at SP (42_chunk_stream.md R160). -/
  cs : Nat
  /-- PB, 32 bits: IN address of the first payload byte. -/
  pb : Nat
  /-- N, 32 bits: payload length. -/
  n : Nat
  /-- IP, 32 bits: index of the next payload byte. -/
  ip : Nat
  /-- MASK, 8 bits: the current mask byte. -/
  mask : Byte
  /-- BI, 4 bits: index of the current mask bit. -/
  bi : Nat
  /-- BIT, 1 bit: the current bit after exhaustion forcing. -/
  bit : Bool
  /-- CUR, 8 bits: the current octet, or PAD_BYTE. -/
  cur : Byte
  /-- EXH, 1 bit: the current step had no octet. -/
  exh : Bool
  /-- PRE, 17 bits: pre_len of the current step. -/
  pre : Nat
  /-- HASH, 16 bits: hash of the current step's context. -/
  hash : BitVec 16
  /-- E, 17 bits: hash-table entry read by a match; `none` is EMPTY. -/
  e : Option Nat
  /-- K, 8 bits: bytes copied so far by the current match. -/
  k : Nat
  /-- FWLEN, 32 bits: bytes written to OUT. -/
  fwlen : Nat
  /-- m1: address of the first marker (43_container_locator.md R180). -/
  m1 : Nat
  /-- size, 32 bits: the declared section size (43_container_locator.md R180). -/
  size : Word
  /-- crc, 32 bits: the stored CRC-32 (43_container_locator.md R180). -/
  crc : Word
  deriving DecidableEq, Repr

/-! ## Memories -/

/-- IN or OUT: the written bytes by address, addresses strictly rising. An address that is not listed holds no written
byte (`Sparse.get` gives `none`), and a read of it gives a free value (log 3). -/
abbrev Memory := List Host.Cell

/-- HT: the entries that are not EMPTY by hash, hashes strictly rising (10_state.md R36, log 6). -/
abbrev HashTable := List (Nat × Nat)

/-! ## The host -/

/-- One turn of the host (70_reset_and_hazards.md R255, log 7). -/
inductive HostOp
  /-- Write `v` to the register at byte offset `off`, `width` bytes wide. -/
  | regWrite (width off : Nat) (v : Word)
  /-- Read the register at byte offset `off`, `width` bytes wide. -/
  | regRead (width off : Nat)
  /-- Write a byte of IN. -/
  | inWrite (a : Nat) (b : Byte)
  /-- Read a byte of OUT. -/
  | outRead (a : Nat)
  /-- Read STATUS until DONE = 1, the engine acting between reads (R255 step 5). -/
  | pollDone
  /-- Leave one turn to the engine. -/
  | engineTurn
  /-- Apply the hardware reset (70_reset_and_hazards.md R250). -/
  | hardReset
  deriving DecidableEq, Repr

/-! ## The state -/

/-- The whole state: the engine (10_state.md), IN and OUT, and the host's pending accesses. -/
structure State where
  /-- IN_CAP, OUT_CAP and PAD_POLICY, which no step changes (00_scope.md R8, log 1). -/
  params : Params
  /-- CTRL.MODE (10_state.md R23). -/
  mode : BitVec 2
  /-- IN_LEN (10_state.md R25). -/
  inLen : Word
  /-- The phase, read as STATUS.BUSY and STATUS.DONE (10_state.md R21, R24). -/
  phase : Phase
  /-- STATUS.SUCCESS (10_state.md R24). -/
  success : Bool
  /-- STATUS.FAULT (10_state.md R24). -/
  fault : Bool
  /-- STATUS.CODE (10_state.md R24). -/
  code : Code
  /-- The result registers (10_state.md R26 to R30). -/
  results : Results
  /-- The datapath registers (10_state.md R33). -/
  dp : Datapath
  /-- OBUF[0 .. OLEN), a growable byte sequence (10_state.md R35). -/
  obuf : List Byte
  /-- HT (10_state.md R36). -/
  ht : HashTable
  /-- IN (10_state.md R41). -/
  inMem : Memory
  /-- OUT (10_state.md R41). -/
  outMem : Memory
  /-- MODEL'S OWN: the host's pending turns, next first (log 7). -/
  queue : List HostOp
  /-- MODEL'S OWN: what the host's last read returned (log 16). -/
  bus : Word
  /-- MODEL'S OWN: how many free values have been drawn (log 12). -/
  draws : Nat
  deriving DecidableEq, Repr

/-! ## Why a step can stop -/

/-- Faults of the model: not the engine's fault codes 8 to 11, which are next states (log 11). -/
inductive Fault
  /-- The host wrote IN at an address at or beyond IN_CAP, where there is no byte (10_state.md R41). Raised by
  `hostInWrite`; safe (log 15). -/
  | noInByte (a : Nat)
  /-- The host read OUT at an address at or beyond OUT_CAP, where there is no byte (10_state.md R41). Raised by
  `hostOutRead`; safe (log 15). -/
  | noOutByte (a : Nat)
  /-- The engine's decoder rejected the bytes at its cursor. Raised by `engineMove`; by 30_encoding.md R83 no step
  raises it, and an obligation says so; safe. -/
  | noElement (p : Point)
  deriving DecidableEq, Repr

/-- Accesses the spec refuses: it gives them no meaning. -/
inductive Refusal
  /-- An instruction without a meaning yet. Raised by an arm of `exec`; safe. -/
  | notModelled (mnemonic : String)
  /-- A register access that is not an aligned 32-bit word at 0x00 to 0xFC (20_memory.md R57). Raised by
  `hostRegWrite` and `hostRegRead`; safe (log 14). -/
  | registerAccess (width off : Nat)
  /-- A host write to IN while BUSY (70_reset_and_hazards.md R256). Raised by `hostInWrite`; safe (log 14). -/
  | inWriteWhileBusy (a : Nat)
  deriving DecidableEq, Repr

/-- What a step or a meaning answers. -/
abbrev Answer := Host.Outcome State Fault Refusal

/-! ## Reset -/

/-- Every result register 0 (10_state.md R22). -/
def Results.zero : Results := ⟨0#32, 0#32, 0#32, 0#32, 0#32, 0#32, 0#32, 0#32, 0#32, 0#32⟩

/-- The datapath registers at reset, which "hold no value" (70_reset_and_hazards.md R250, R251): all zero
(DESIGN CHOICE, log 2). -/
def Datapath.zero : Datapath where
  modeL := 0#2
  sb := 0
  sl := 0
  sp := 0
  nch := 0
  cs := 0
  pb := 0
  n := 0
  ip := 0
  mask := 0#8
  bi := 0
  bit := false
  cur := 0#8
  exh := false
  pre := 0
  hash := 0#16
  e := none
  k := 0
  fwlen := 0
  m1 := 0
  size := 0#32
  crc := 0#32

/-- The machine with parameters `p` right after power-on and reset (70_reset_and_hazards.md R250). -/
def State.resetWith (p : Params) : State where
  params := p
  mode := 0#2
  inLen := 0#32
  phase := .idle
  success := false
  fault := false
  code := .ok
  results := Results.zero
  dp := Datapath.zero
  obuf := []
  ht := []
  inMem := []
  outMem := []
  queue := []
  bus := 0#32
  draws := 0

/-- The machine right after reset. -/
def State.reset : State := State.resetWith Params.default

end Sys2Proof.Machine
end

