-- ==== Sys2Proof/Machine/Operands.lean ====
section
/-! DEFINITION. How the engine reads its operands: bytes and fields of IN, the context and its hash, the mask bit, and
the tables by address and by hash they are read from. -/

namespace Sys2Proof.Machine

/-! ## Tables by key, in canonical form -/

/-- The canonical form of a table: keys strictly rising, so no key is listed twice. -/
abbrev Sparse.Sorted {α : Type} (m : List (Nat × α)) : Prop := m.Pairwise (fun x y => x.1 < y.1)

/-- What the table lists at `a`. -/
def Sparse.get {α : Type} : List (Nat × α) → Nat → Option α
  | [], _ => none
  | (k, v) :: m, a => if k = a then some v else Sparse.get m a

/-- The values `vs` at the keys `base`, `base + 1`, …. -/
def Sparse.run {α : Type} : Nat → List α → List (Nat × α)
  | _, [] => []
  | base, v :: vs => (base, v) :: Sparse.run (base + 1) vs

/-- The table after writing `vs` at `base`, `base + 1`, …, in order. -/
def Sparse.putRun {α : Type} (m : List (Nat × α)) (base : Nat) (vs : List α) : List (Nat × α) :=
  m.filter (fun c => c.1 < base) ++ Sparse.run base vs ++ m.filter (fun c => base + vs.length ≤ c.1)

/-- The table after writing `v` at `a`. -/
def Sparse.put {α : Type} (m : List (Nat × α)) (a : Nat) (v : α) : List (Nat × α) :=
  Sparse.putRun m a [v]

/-- The canonical form of IN and OUT: addresses strictly rising. What an unlisted address holds is no listed byte
(`Sparse.get` gives `none` there and `some b` at a listed one), so no entry equals it (log 3). -/
abbrev Memory.wf (m : Memory) : Prop := Sparse.Sorted m

/-! ## IN and OUT -/

/-- The byte of IN at `a`; a free value where the host has written none since power-on (10_state.md R42, log 3). -/
def State.readIn (s : State) (a : Nat) : Byte := (Sparse.get s.inMem a).getD (Config.powerOnIn a)

/-- The byte OUT holds at `a`; a free value where the engine has written none since power-on (log 3). -/
def State.readOut (s : State) (a : Nat) : Byte := (Sparse.get s.outMem a).getD (Config.powerOnOut a)

/-- MemRead(IN: a, n): the bytes at a, a + 1, …, a + n - 1 (00_scope.md R10). -/
def State.inBytes (s : State) (a : Nat) : Nat → List Byte
  | 0 => []
  | n + 1 => s.readIn a :: s.inBytes (a + 1) n

/-! ## The context and its hash (40_hash_index.md) -/

/-- BE(x0 .. x3): the first byte is the most significant (00_scope.md R10, 20_memory.md R54). -/
def be32 (x0 x1 x2 x3 : Byte) : Word := x0 ++ x1 ++ x2 ++ x3

/-- HASH of a context as a big-endian word (40_hash_index.md R100). -/
def hashOf (c : Word) : BitVec 16 := ((c >>> Config.hashShift) ^^^ c).setWidth 16

/-- The byte of OBUF at `i`; a free value at or beyond OLEN, where OBUF holds no value (10_state.md R35, log 5). -/
def obufAt (obuf : List Byte) (i : Nat) : Byte := (obuf[i]?).getD (Config.noValueObuf i)

/-- The context of a step: the last four bytes of the chunk output (40_hash_index.md R102). -/
def contextOf (obuf : List Byte) : Word :=
  be32 (obufAt obuf (obuf.length - 4)) (obufAt obuf (obuf.length - 3))
    (obufAt obuf (obuf.length - 2)) (obufAt obuf (obuf.length - 1))

/-- OLEN: bytes in OBUF (10_state.md R33, R35). -/
def State.olen (s : State) : Nat := s.obuf.length

/-! ## The mask bit -/

/-- MASK[BI] (41_chunk_decoder.md R126). -/
def State.maskBit (s : State) : Bool := s.dp.mask.getLsbD s.dp.bi

/-! ## The preamble (43_container_locator.md) -/

/-- PL = min(0x90, IN_LEN) (43_container_locator.md R181). -/
def State.preambleLen (s : State) : Nat := min Config.preambleLen s.inLen.toNat

/-- The first of the `n` addresses a, a + 1, … at which IN holds the marker. -/
def State.searchMarker (s : State) (a : Nat) : Nat → Option Nat
  | 0 => none
  | n + 1 =>
    if (decode .marker (s.inBytes a Config.markerLen)).instr? = some .marker then some a
    else s.searchMarker (a + 1) n

/-- FindMarker(start): the candidates are start, …, PL - 6 (43_container_locator.md R180, R182). -/
def State.findMarker (s : State) (start : Nat) : Option Nat :=
  s.searchMarker start (s.preambleLen + 1 - Config.markerLen - start)

end Sys2Proof.Machine
end

