-- ==== Sys2Proof/Machine/Flags.lean ====
section
/-! DEFINITION. The flags, which are the STATUS bits (10_state.md R40), and the words the host reads of registers. -/

namespace Sys2Proof.Machine

/-- The number of an outcome code (60_exceptions.md R221). -/
def Code.bits : Code → BitVec 4
  | .ok => 0#4
  | .marker1NotFound => 1#4
  | .marker2NotFound => 2#4
  | .headerRange => 3#4
  | .truncatedChunk => 4#4
  | .incompleteConsumption => 5#4
  | .unknownContext => 8#4
  | .selfReference => 9#4
  | .outputOverflow => 10#4
  | .badCommand => 11#4

/-- STATUS.BUSY of a phase (10_state.md R21). -/
def Phase.isBusy : Phase → Bool
  | .idle => false
  | .busy _ => true
  | .done => false

/-- STATUS.DONE of a phase (10_state.md R21). -/
def Phase.isDone : Phase → Bool
  | .idle => false
  | .busy _ => false
  | .done => true

/-- STATUS (10_state.md R24): BUSY, DONE, SUCCESS, FAULT in bits 0 to 3, CODE in bits 7:4, 0 above. -/
def State.statusWord (s : State) : Word :=
  (((((0#24 ++ s.code.bits) ++ BitVec.ofBool s.fault) ++ BitVec.ofBool s.success) ++
    BitVec.ofBool s.phase.isDone) ++ BitVec.ofBool s.phase.isBusy)

/-- CTRL as read (10_state.md R23): MODE in bits 3:2; START, SRST and the reserved bits read 0. -/
def State.ctrlWord (s : State) : Word := (0#28 ++ s.mode) ++ 0#2

/-- PARAMS (10_state.md R31): bit 0 is PAD_POLICY. -/
def State.paramsWord (s : State) : Word :=
  match s.params.padPolicy with
  | .padGroup => 0#32
  | .padOnce => 1#32

/-- The value of the register at a byte offset outside BUSY (10_state.md R22); reserved offsets read 0 (R32). -/
def State.regWord (s : State) (off : Nat) : Word :=
  match off with
  | 0x00 => s.ctrlWord
  | 0x04 => s.statusWord
  | 0x08 => s.inLen
  | 0x0C => s.results.outLen
  | 0x10 => s.results.consumed
  | 0x14 => s.results.secStart
  | 0x18 => s.results.secSize
  | 0x1C => s.results.secCrc32
  | 0x20 => s.results.chunks
  | 0x24 => s.results.faultChunk
  | 0x28 => s.results.faultPos
  | 0x2C => s.results.faultInfo
  | 0x30 => s.results.faultIpos
  | 0x34 => s.paramsWord
  | _ => 0#32

/-- The result registers: while BUSY they read an unspecified value (44_commands.md R212). CTRL, STATUS, IN_LEN, PARAMS
and the reserved offsets are not among them (log 13). -/
def isResultOffset (off : Nat) : Bool := 0x0C ≤ off && off ≤ 0x30

end Sys2Proof.Machine
end

