-- ==== Sys2Proof/Machine/Ops.lean ====
section
/-! DEFINITION. The operations the meanings share: the end of a command by an outcome or by a fault, acceptance of a
command, the resets, the operations of HT and OBUF, the parts of a decoder step, the ends of a chunk and of a stream. -/

namespace Sys2Proof.Machine

/-! ## The point the engine has reached -/

/-- BUSY, at the point `p`. -/
def State.goto (s : State) (p : Point) : State := { s with phase := .busy p }

/-! ## Ending a command -/

/-- finish(code) (44_commands.md R209). -/
def State.finish (s : State) (c : Code) : State :=
  { s with phase := .done, success := decide (c = .ok), fault := false, code := c }

/-- What the decoder's match step tells a fault: pre_len, hash, L and the IN address of the octet that held L. -/
structure MatchInfo where
  pre : Nat
  hash : BitVec 16
  len : Byte
  oip : Nat
  deriving DecidableEq, Repr

/-- The result registers a fault leaves (60_exceptions.md R232). In DECODE_CHUNK and for BAD_COMMAND no record has been
completed: OUT_LEN and CHUNKS are 0, and the index of the record is 0. -/
def State.faultResults (s : State) (c : Code) (info : Option MatchInfo) : Results :=
  let none' : Bool := decide (c = .badCommand) || decide (s.dp.modeL = 2#2)
  let r : Results :=
    { s.results with
      outLen := if none' then 0#32 else BitVec.ofNat 32 s.dp.fwlen
      consumed :=
        if c = .badCommand then 0#32
        else if s.dp.modeL = 2#2 then BitVec.ofNat 32 s.dp.ip
        else BitVec.ofNat 32 s.dp.sp
      chunks := if none' then 0#32 else BitVec.ofNat 32 s.dp.nch }
  match info with
  | none => r
  | some i =>
    { r with
      faultChunk := if none' then 0#32 else BitVec.ofNat 32 s.dp.nch
      faultPos := BitVec.ofNat 32 i.pre
      faultInfo := (0#8 ++ i.len) ++ i.hash
      faultIpos := BitVec.ofNat 32 i.oip }

/-- Fault entry, `raise Fault(code, …)` (60_exceptions.md R232): the command ends, the result and fault registers are
recorded, STATUS is updated last. There is no return from it (R233): the host leaves DONE by START or a reset. -/
def State.raiseFault (s : State) (c : Code) (info : Option MatchInfo) : State :=
  { s with
    results := s.faultResults c info
    phase := .done
    success := false
    fault := true
    code := c }

/-! ## Accepting a command, and the resets -/

/-- What accepting a START clears and latches (44_commands.md R200, 70_reset_and_hazards.md R253). The command's first
point is `p`. -/
def State.clearForStart (s : State) (m : BitVec 2) (p : Point) : State :=
  { s with
    mode := m
    results := Results.zero
    phase := .busy p
    success := false
    fault := false
    code := .ok
    dp := { s.dp with modeL := m } }

/-- START with MODE = `m` (44_commands.md R200, R206, R208): ignored while BUSY, BAD_COMMAND for MODE = 3 or
IN_LEN > IN_CAP; otherwise the command begins as `begin` says, at the point `p`. -/
def State.start (s : State) (m : BitVec 2) (p : Point) (begin : State → State) : State :=
  if s.phase.isBusy then s
  else if m = 3#2 ∨ s.params.inCap < s.inLen.toNat then
    (s.clearForStart m p).raiseFault .badCommand none
  else begin (s.clearForStart m p)

/-- The state of reset in everything but the parameters, IN, OUT and the host (44_commands.md R207,
70_reset_and_hazards.md R250, R252). -/
def State.resetEngine (s : State) : State :=
  { State.resetWith s.params with
    inMem := s.inMem
    outMem := s.outMem
    queue := s.queue
    bus := s.bus
    draws := s.draws }

/-- DecodeStream(SB, SL) begins (42_chunk_stream.md R160). -/
def State.beginStream (s : State) (sb sl : Nat) : State :=
  { s with
    phase := .busy .chunkHdr
    dp := { s.dp with sb := sb, sl := sl, sp := 0, nch := 0, fwlen := 0 } }

/-- DecodeChunk(PB, N) begins (41_chunk_decoder.md R120). -/
def State.beginChunk (s : State) (pb n : Nat) : State :=
  { s with
    phase := .busy .initCtx
    dp := { s.dp with pb := pb, n := n } }

/-! ## HT (40_hash_index.md R103, R104, R105) -/

/-- HT_CLEAR. -/
def State.htClear (s : State) : State := { s with ht := [] }

/-- HT_INSERT(h, pos): overwrites any previous entry for the hash. -/
def State.htInsert (s : State) (h : BitVec 16) (pos : Nat) : State :=
  { s with ht := Sparse.put s.ht h.toNat pos }

/-- HT_LOOKUP(h): a position, or `none` for EMPTY. -/
def State.htLookup (s : State) (h : BitVec 16) : Option Nat := Sparse.get s.ht h.toNat

/-! ## OBUF -/

/-- OBUF[OLEN] ← b; OLEN ← OLEN + 1. -/
def State.append (s : State) (b : Byte) : State := { s with obuf := s.obuf ++ [b] }

/-- The copy of a match (41_chunk_decoder.md R130): from index `k` on, `n` more bytes, each read after every earlier
append. -/
def copyLoop (obuf : List Byte) (e k : Nat) : Nat → List Byte
  | 0 => obuf
  | n + 1 => copyLoop (obuf ++ [obufAt obuf (e + k)]) e (k + 1) n

/-! ## The parts of a decoder step (41_chunk_decoder.md R126, R127, R134) -/

/-- Fetch and prologue: CUR, BIT, EXH, IP (R126), then PRE and HASH, before anything is appended (R127). -/
def State.beginStep (s : State) (cur : Byte) (bit exh : Bool) : State :=
  { s with
    dp := { s.dp with
      cur := cur
      bit := bit
      exh := exh
      ip := if exh then s.dp.ip else s.dp.ip + 1
      pre := s.olen
      hash := hashOf (contextOf s.obuf) } }

/-- After a step's insert: the decode ends after the first pad under PAD_ONCE (R136); the group ends after the step of
bit 0 (R125); otherwise the next step takes the next lower bit. -/
def State.nextBit (s : State) : State :=
  if s.dp.exh = true ∧ s.params.padPolicy = .padOnce then s.goto .chunkEnd
  else if s.dp.bi = 0 then s.goto .mask
  else { s with phase := .busy .token, dp := { s.dp with bi := s.dp.bi - 1 } }

/-- Epilogue: HT_INSERT(HASH, PRE) (R134), then the next step. -/
def State.endStep (s : State) : State := (s.htInsert s.dp.hash s.dp.pre).nextBit

/-! ## The end of a chunk (41_chunk_decoder.md R137; 42_chunk_stream.md R165, R166; 44_commands.md R205) -/

/-- The chunk's result: OBUF[0 .. min(OLEN, 0x10000)). -/
def State.chunkBytes (s : State) : List Byte := s.obuf.take Config.chunkCap

/-- The framer appends the chunk and goes to the next record, or faults where it does not fit. -/
def State.appendChunk (s : State) : State :=
  if s.params.outCap < s.dp.fwlen + s.chunkBytes.length then s.raiseFault .outputOverflow none
  else
    { s with
      phase := .busy .chunkHdr
      outMem := Sparse.putRun s.outMem s.dp.fwlen s.chunkBytes
      dp := { s.dp with
        fwlen := s.dp.fwlen + s.chunkBytes.length
        nch := s.dp.nch + 1
        sp := s.dp.sp + 4 + s.dp.cs } }

/-- DECODE_CHUNK writes the chunk to OUT at 0 and succeeds. -/
def State.endChunkCmd (s : State) : State :=
  State.finish
    { s with
      outMem := Sparse.putRun s.outMem 0 s.chunkBytes
      dp := { s.dp with fwlen := s.chunkBytes.length }
      results := { s.results with
        outLen := BitVec.ofNat 32 s.chunkBytes.length
        consumed := BitVec.ofNat 32 s.dp.ip
        chunks := 1#32 } }
    .ok

/-- The decode of a chunk has ended: its result goes to the command that asked for it. -/
def State.endChunk (s : State) : State :=
  if s.dp.modeL = 2#2 then s.endChunkCmd else s.appendChunk

/-! ## The end of a stream (42_chunk_stream.md R161, R162; 44_commands.md R201, R204) -/

/-- The declared size: that of the section for DECOMPRESS_UPDATE, IN_LEN for DECODE_STREAM. -/
def State.declaredSize (s : State) : Nat :=
  if s.dp.modeL = 0#2 then s.results.secSize.toNat else s.inLen.toNat

/-- The stream has ended with SP bytes consumed, END_TRUNCATED or not. -/
def State.endStream (s : State) (truncated : Bool) : State :=
  let t : State :=
    { s with
      results := { s.results with
        consumed := BitVec.ofNat 32 s.dp.sp
        outLen := BitVec.ofNat 32 s.dp.fwlen
        chunks := BitVec.ofNat 32 s.dp.nch } }
  if s.dp.sp = s.declaredSize then t.finish .ok
  else if truncated then t.finish .truncatedChunk
  else t.finish .incompleteConsumption

end Sys2Proof.Machine
end

