-- ==== Sys2Proof/Machine/Chunk.lean ====
section
/-! DEFINITION. The LZP chunk decoder (41_chunk_decoder.md). -/

namespace Sys2Proof.Machine

/-- INIT_CTX (41_chunk_decoder.md R121, R122): HT is cleared and OBUF emptied, the bytes are output verbatim, and where
there are four of them their hash is inserted at position 4. -/
def execInitCtx (ctx : List Byte) (s : State) : Answer :=
  let t : State :=
    { s.htClear with
      phase := .busy .mask
      obuf := ctx
      dp := { s.dp with ip := ctx.length } }
  .next (if ctx.length < Config.ctxLen then t else t.htInsert (hashOf (contextOf ctx)) ctx.length)

/-- MASK (41_chunk_decoder.md R124, R125): the mask byte is taken and the group begins at bit 7. -/
def execMask (m : Byte) (s : State) : Answer :=
  .next
    { s with
      phase := .busy .token
      dp := { s.dp with mask := m, ip := s.dp.ip + 1, bi := 7 } }

/-- LIT (41_chunk_decoder.md R126, R127, R128, R134). -/
def execLit (octet : Byte) (s : State) : Answer :=
  .next ((s.beginStep octet false false).append octet).endStep

/-- MATCH (41_chunk_decoder.md R126, R127, R129 to R134): lookup, the two faults, the copy, the insert. The IN address
of the octet is PB + IP as IP stood before the fetch. -/
def execMatchLen (len : Byte) (s : State) : Answer :=
  let t := s.beginStep len true false
  let found := t.htLookup t.dp.hash
  let u : State := { t with dp := { t.dp with e := found } }
  let info : MatchInfo := ⟨t.dp.pre, t.dp.hash, len, s.dp.pb + s.dp.ip⟩
  match found with
  | none => .next (u.raiseFault .unknownContext (some info))
  | some e =>
    if 1 ≤ len.toNat ∧ t.dp.pre ≤ e then .next (u.raiseFault .selfReference (some info))
    else
      .next
        (State.endStep
          { u with
            obuf := copyLoop u.obuf e 0 len.toNat
            dp := { u.dp with k := len.toNat } })

/-- PAD (41_chunk_decoder.md R126, R127, R135, R136): a literal step with the substituted byte and no octet. -/
def execPad (s : State) : Answer :=
  .next ((s.beginStep Config.padByte false true).append Config.padByte).endStep

end Sys2Proof.Machine
end

