-- ==== Sys2Proof/Machine/Commands.lean ====
section
/-! DEFINITION. The host's commands (44_commands.md): one meaning per CTRL write. -/

namespace Sys2Proof.Machine

/-- DECOMPRESS_UPDATE (44_commands.md R200, R201): Locate begins. -/
def execDecompressUpdate (s : State) : Answer := .next (s.start 0#2 .marker1 id)

/-- DECODE_STREAM (44_commands.md R200, R204): DecodeStream(0, IN_LEN) begins. -/
def execDecodeStream (s : State) : Answer :=
  .next (s.start 1#2 .chunkHdr (fun t => t.beginStream 0 s.inLen.toNat))

/-- DECODE_CHUNK (44_commands.md R200, R205): DecodeChunk(0, IN_LEN) begins. -/
def execDecodeChunk (s : State) : Answer :=
  .next (s.start 2#2 .initCtx (fun t => t.beginChunk 0 s.inLen.toNat))

/-- BAD_MODE3 (44_commands.md R206): a START with the reserved MODE ends at once in the BAD_COMMAND fault
(60_exceptions.md R230). -/
def execBadMode3 (s : State) : Answer := .next (s.start 3#2 .chunkEnd id)

/-- SRST (44_commands.md R207): the soft reset, honoured in every phase. -/
def execSrst (s : State) : Answer := .next s.resetEngine

/-- MODE_WRITE (44_commands.md R211): MODE is written; ignored while BUSY. -/
def execModeWrite (m : BitVec 2) (s : State) : Answer :=
  .next (if s.phase.isBusy then s else { s with mode := m })

end Sys2Proof.Machine
end

