-- ==== Sys2Proof/Machine/Framer.lean ====
section
/-! DEFINITION. The record framer (42_chunk_stream.md). -/

namespace Sys2Proof.Machine

/-- CHUNK_HDR (42_chunk_stream.md R161, R162): the stream ends END_TRUNCATED where fewer than chunk_size bytes remain
after the field; otherwise the record is taken. -/
def execChunkHdr (chunkSize : Word) (s : State) : Answer :=
  .next
    (if s.dp.sl - s.dp.sp - Config.lenField < chunkSize.toNat then
      State.endStream { s with dp := { s.dp with cs := chunkSize.toNat } } true
    else { s with phase := .busy .skip, dp := { s.dp with cs := chunkSize.toNat } })

/-- SKIP (42_chunk_stream.md R163, R164): the reserved bytes are dropped, their values never looked at, and the payload
is what follows them. -/
def execSkip (_reserved : List Byte) (s : State) : Answer :=
  .next (s.beginChunk (s.dp.sb + s.dp.sp + Config.lenField + min Config.skipLen s.dp.cs) (s.dp.cs - Config.skipLen))

end Sys2Proof.Machine
end

