-- ==== Sys2Proof/Machine/Locator.lean ====
section
/-! DEFINITION. The container locator (43_container_locator.md). -/

namespace Sys2Proof.Machine

/-- The first marker search and the header range check (43_container_locator.md R182, R183). -/
def State.firstMarker (s : State) : State :=
  match s.findMarker 0 with
  | none => s.finish .marker1NotFound
  | some a =>
    if a < Config.hdrBack then s.finish .headerRange
    else { s with phase := .busy .secHdr, dp := { s.dp with m1 := a } }

/-- The locator's result is written and the stream over the section slice begins (43_container_locator.md R186, R187;
44_commands.md R201, R202). -/
def State.beginSection (s : State) (m2 : Nat) : State :=
  State.beginStream
    { s with
      results := { s.results with
        secStart := BitVec.ofNat 32 (m2 + Config.markerLen)
        secSize := s.dp.size
        secCrc32 := s.dp.crc } }
    (m2 + Config.markerLen) (min s.dp.size.toNat (s.inLen.toNat - (m2 + Config.markerLen)))

/-- The second marker search (43_container_locator.md R185). -/
def State.secondMarker (s : State) : State :=
  match s.findMarker (s.dp.m1 + Config.search2Skip) with
  | none => s.finish .marker2NotFound
  | some a => s.beginSection a

/-- MARKER (43_container_locator.md R182, R185): the search of the point the locator has reached (log 10). -/
def execMarker (s : State) : Answer :=
  .next (if s.phase = .busy .marker2 then s.secondMarker else s.firstMarker)

/-- SEC_HDR (43_container_locator.md R184). -/
def execSecHdr (size crc : Word) (s : State) : Answer :=
  .next { s with phase := .busy .marker2, dp := { s.dp with size := size, crc := crc } }

end Sys2Proof.Machine
end

