-- ==== Sys2Proof/Machine/Dispatch.lean ====
section
/-! DEFINITION. The meaning of every element: one arm per constructor of Instr. -/

namespace Sys2Proof.Machine

def exec (i : Instr) (s : State) : Host.Outcome State Fault Refusal :=
  match i with
  | .decompressUpdate => Sys2Proof.Machine.execDecompressUpdate s
  | .decodeStream => Sys2Proof.Machine.execDecodeStream s
  | .decodeChunk => Sys2Proof.Machine.execDecodeChunk s
  | .badMode3 => Sys2Proof.Machine.execBadMode3 s
  | .srst => Sys2Proof.Machine.execSrst s
  | .modeWrite mode => Sys2Proof.Machine.execModeWrite mode s
  | .marker => Sys2Proof.Machine.execMarker s
  | .secHdr size crc => Sys2Proof.Machine.execSecHdr size crc s
  | .chunkHdr chunkSize => Sys2Proof.Machine.execChunkHdr chunkSize s
  | .skip reserved => Sys2Proof.Machine.execSkip reserved s
  | .initCtx ctx => Sys2Proof.Machine.execInitCtx ctx s
  | .mask m => Sys2Proof.Machine.execMask m s
  | .lit octet => Sys2Proof.Machine.execLit octet s
  | .matchLen len => Sys2Proof.Machine.execMatchLen len s
  | .pad => Sys2Proof.Machine.execPad s

end Sys2Proof.Machine
end

