-- ==== Sys2Proof/Machine/HostPort.lean ====
section
/-! DEFINITION. The host's accesses that are not commands: register writes and reads, IN writes, OUT reads, reset
(20_memory.md R57, 44_commands.md R211, R212, 70_reset_and_hazards.md R256 to R259). -/

namespace Sys2Proof.Machine

/-- An aligned 32-bit word at 0x00 to 0xFC (20_memory.md R57). -/
def isRegisterAccess (width off : Nat) : Bool := width == 4 && off % 4 == 0 && off ≤ 0xFC

/-- A write to a register other than CTRL (44_commands.md R211): IN_LEN is written outside BUSY, every other write is
ignored. -/
def State.writeRegister (s : State) (off : Nat) (v : Word) : State :=
  if off = 0x08 ∧ s.phase.isBusy = false then { s with inLen := v } else s

/-- A read of a register (44_commands.md R212): STATUS, CTRL, IN_LEN, PARAMS and reserved offsets read their value at
all times, a result register reads a free value while BUSY. -/
def State.readRegister (s : State) (off : Nat) : State :=
  if s.phase.isBusy && isResultOffset off then
    { s with bus := Config.freeWord s.draws, draws := s.draws + 1 }
  else { s with bus := s.regWord off }

/-- The host reads a register. -/
def hostRegRead (width off : Nat) (s : State) : Answer :=
  if isRegisterAccess width off then .next (s.readRegister off) else .refused (.registerAccess width off)

/-- The host writes a byte of IN: refused while BUSY (70_reset_and_hazards.md R256). -/
def hostInWrite (a : Nat) (b : Byte) (s : State) : Answer :=
  if s.phase.isBusy then .refused (.inWriteWhileBusy a)
  else if s.params.inCap ≤ a then .fault (.noInByte a)
  else .next { s with inMem := Sparse.put s.inMem a b }

/-- The host reads a byte of OUT: a free value while BUSY (70_reset_and_hazards.md R258) and at or beyond OUT_LEN
(R259). Outside BUSY and below OUT_LEN it is the byte the engine wrote, whether or not the host has itself read STATUS.DONE
= 1 before: 20_memory.md R62 orders only a read after that one (DESIGN CHOICE, log 28). -/
def hostOutRead (a : Nat) (s : State) : Answer :=
  if s.params.outCap ≤ a then .fault (.noOutByte a)
  else if s.phase.isBusy || decide (s.results.outLen.toNat ≤ a) then
    .next { s with bus := (Config.freeByte s.draws).setWidth 32, draws := s.draws + 1 }
  else .next { s with bus := (s.readOut a).setWidth 32 }

end Sys2Proof.Machine
end

