-- ==== Sys2Proof/Machine/Fetch.lean ====
section
/-! DEFINITION. What happens next: which agent moves, and, for the engine, which element it decodes or which move it
makes; and how one element is placed so that the next step runs it. -/

namespace Sys2Proof.Machine

/-- What a step does: run an element's meaning, or answer at once. -/
inductive Action
  | run (i : Instr) (s : State)
  | answer (o : Answer)

/-! ## The engine -/

/-- The element the engine decodes at a point, from the bytes at its cursor; `none` where it decodes none: at the end
of a stream (42_chunk_stream.md R161), where the loop test fails (41_chunk_decoder.md R123), at the end of a chunk. The
locator's searches stand for the marker they look for (log 10). -/
def State.fetch (s : State) : Point → Option Instr
  | .marker1 => some .marker
  | .secHdr => (decode .secHdr (s.inBytes (s.dp.m1 - Config.hdrBack) 8)).instr?
  | .marker2 => some .marker
  | .chunkHdr =>
    if s.dp.sl - s.dp.sp < Config.lenField then none
    else (decode .chunkHdr (s.inBytes (s.dp.sb + s.dp.sp) Config.lenField)).instr?
  | .skip =>
    let n := min Config.skipLen s.dp.cs
    (decode (.skip n) (s.inBytes (s.dp.sb + s.dp.sp + Config.lenField) n)).instr?
  | .initCtx =>
    let n := min Config.ctxLen s.dp.n
    (decode (.initCtx n) (s.inBytes s.dp.pb n)).instr?
  | .mask =>
    if s.olen < Config.chunkCap ∧ s.dp.ip < s.dp.n then
      (decode .mask (s.inBytes (s.dp.pb + s.dp.ip) 1)).instr?
    else none
  | .token =>
    (decode (.octet s.maskBit) (if s.dp.ip < s.dp.n then s.inBytes (s.dp.pb + s.dp.ip) 1 else [])).instr?
  | .chunkEnd => none

/-- The engine's move at a point where it decodes no element. -/
def engineMove (s : State) : Point → Answer
  | .chunkHdr => .next (s.endStream false)
  | .mask => .next (s.goto .chunkEnd)
  | .chunkEnd => .next s.endChunk
  | p => .fault (.noElement p)

/-- The engine's turn: outside BUSY it holds its state (60_exceptions.md R241). -/
def State.engineTurn (s : State) : Action :=
  match s.phase with
  | .busy p =>
    match s.fetch p with
    | some i => .run i s
    | none => .answer (engineMove s p)
  | _ => .answer (.next s)

/-! ## The host -/

/-- A register write: at offset 0 its word is a command (30_encoding.md R82). -/
def State.regWriteTurn (s : State) (width off : Nat) (v : Word) : Action :=
  if isRegisterAccess width off then
    if off = 0 then .run (decodeCtrl v) s else .answer (.next (s.writeRegister off v))
  else .answer (.refused (.registerAccess width off))

/-- What happens next: the host's first pending turn; with none pending, the engine's turn. Polling stays pending, the
engine acting, until STATUS.DONE reads 1 (70_reset_and_hazards.md R255 step 5; log 7). -/
def State.nextAction (s : State) : Action :=
  match s.queue with
  | [] => s.engineTurn
  | .regWrite width off v :: rest => State.regWriteTurn { s with queue := rest } width off v
  | .regRead width off :: rest => .answer (hostRegRead width off { s with queue := rest })
  | .inWrite a b :: rest => .answer (hostInWrite a b { s with queue := rest })
  | .outRead a :: rest => .answer (hostOutRead a { s with queue := rest })
  | .pollDone :: rest =>
    if s.phase.isDone then .answer (.next { s with queue := rest, bus := s.statusWord }) else s.engineTurn
  | .engineTurn :: rest => State.engineTurn { s with queue := rest }
  | .hardReset :: rest => .answer (.next (State.resetEngine { s with queue := rest }))

/-! ## Placing one element -/

/-- DECODE_CHUNK in progress on the payload `bs`, at the point `p`, its cursor at `ip`, with the output `out` and the
entry 4 for the hash of the context 00 00 00 00. -/
def State.placeChunk (s : State) (p : Point) (bs : List Byte) (ip : Nat) (out : List Byte) : State :=
  { s with
    inLen := BitVec.ofNat 32 bs.length
    phase := .busy p
    success := false
    fault := false
    code := .ok
    results := Results.zero
    dp := { s.dp with modeL := 2#2, pb := 0, n := bs.length, ip := ip }
    obuf := out
    ht := [(0, 4)]
    inMem := Sparse.putRun s.inMem 0 bs
    queue := [] }

/-- A step of a group on the octet, if there is one, with the mask bit `bit`: the payload is 00 00 00 00, a mask byte,
the literal 00, and the octet, so the step is the group's second. -/
def State.placeToken (s : State) (bit : Bool) (octet : List Byte) : State :=
  let t := s.placeChunk .token ([0#8, 0#8, 0#8, 0#8, if bit then 0x40#8 else 0x00#8, 0#8] ++ octet) 6
    [0#8, 0#8, 0#8, 0#8, 0#8]
  { t with dp := { t.dp with mask := if bit then 0x40#8 else 0x00#8, bi := 6 } }

/-- A group about to start with the mask byte `m`, after the payload's first bytes 00 00 00 00. -/
def State.placeMask (s : State) (m : Byte) : State :=
  s.placeChunk .mask ([0#8, 0#8, 0#8, 0#8] ++ [m]) 4 [0#8, 0#8, 0#8, 0#8]

/-- DECODE_STREAM in progress on one record of two skip bytes, at the point before them. -/
def State.placeSkip (s : State) (k : List Byte) : State :=
  { s with
    inLen := 6#32
    phase := .busy .skip
    success := false
    fault := false
    code := .ok
    results := Results.zero
    dp := { s.dp with modeL := 1#2, sb := 0, sl := 6, sp := 0, nch := 0, cs := 2, fwlen := 0 }
    inMem := Sparse.putRun s.inMem 0 ([2#8, 0#8, 0#8, 0#8] ++ k)
    queue := [] }

/-- DECOMPRESS_UPDATE in progress on a preamble of eight header bytes and six more, at the point `p` of the locator. -/
def State.placePreamble (s : State) (p : Point) (hdr marker : List Byte) : State :=
  { s with
    inLen := 14#32
    phase := .busy p
    success := false
    fault := false
    code := .ok
    results := Results.zero
    dp := { s.dp with modeL := 0#2, m1 := 8 }
    inMem := Sparse.putRun s.inMem 0 (hdr ++ marker)
    queue := [] }

/-- One element placed where the next step decodes it, its level told by its width as in `decodeTableWord` (log 23). A
CTRL word is the host's next access; an element of the input is the byte or bytes at the cursor of a command in
progress. -/
def State.placeWord (s : State) (nbits w : Nat) : State :=
  match nbits with
  | 0 => s.placeToken false []
  | 8 => s.placeMask (BitVec.ofNat 8 w)
  | 9 => s.placeToken (w.testBit 8) [BitVec.ofNat 8 w]
  | 16 => if w < 512 then s.placeToken (w.testBit 8) [BitVec.ofNat 8 w] else s.placeSkip (bytesOfNat 2 w)
  | 48 =>
    s.placePreamble .marker1 (bytesOfNat 8 0)
      (if (decode .marker (bytesOfNat 6 w).reverse).instr? = some .marker then (bytesOfNat 6 w).reverse
        else bytesOfNat 6 w)
  | 64 => s.placePreamble .secHdr (bytesOfNat 8 w) Config.marker
  | _ => { s with queue := .regWrite 4 0 (BitVec.ofNat 32 w) :: s.queue }

end Sys2Proof.Machine
end

