-- ==== Sys2Proof/Machine/Step.lean ====
section
/-! DEFINITION. One step of the machine: one access of the host, or one element or move of the engine (log 8). -/

namespace Sys2Proof.Machine

/-- One step: what `State.nextAction` says, the meaning of an element being `exec`. -/
def step (s : State) : Host.Outcome State Fault Refusal :=
  match s.nextAction with
  | .run i t => exec i t
  | .answer o => o

/-- The state with one element placed so that the next step runs it (log 23). -/
def State.withFetchWord (s : State) (nbits w : Nat) : State := s.placeWord nbits w

end Sys2Proof.Machine
end

