-- ==== Sys2Proof/Machine/Reference.lean ====
section
/-! DEFINITION. The whole algorithms of 41_chunk_decoder.md R120, 42_chunk_stream.md R160 and 43_container_locator.md
R180 as functions of a sequence of bytes, with no machine under them: what the machine's runs are compared with. They
share the machine's hash and integer assembly and nothing else: the hash table is a function of the hash, a match copies
by the closed form of R141, a chunk and a stream are whole loops. -/

namespace Sys2Proof.Machine.Ref

/-! ## One chunk (41_chunk_decoder.md R120) -/

/-- What the decoder carries from step to step. -/
structure ChunkVars where
  ip : Nat
  out : List Byte
  table : BitVec 16 → Option Nat

/-- Where and why a match faulted: the code, pre_len, the hash, L, the payload index of the octet (R132, R133). -/
structure MatchFault where
  code : Code
  pre : Nat
  hash : BitVec 16
  len : Byte
  index : Nat
  deriving DecidableEq, Repr

/-- How a step or a group of steps ends. -/
inductive Progress
  | goOn (v : ChunkVars)
  | stop (v : ChunkVars)
  | fault (f : MatchFault)

/-- HT_INSERT on a table held as a function (40_hash_index.md R104). -/
def insertAt (table : BitVec 16 → Option Nat) (h : BitVec 16) (pos : Nat) : BitVec 16 → Option Nat :=
  fun g => if g = h then some pos else table g

/-- The `len` bytes a match appends (R141): the bytes from the entry to the end of the output, over and over. -/
def matchBytes (out : List Byte) (e len : Nat) : List Byte :=
  (List.range len).map (fun k => obufAt out (e + k % (out.length - e)))

/-- One step of a group, at mask bit `bi` (R126 to R136). -/
def chunkStep (pol : PadPolicy) (payload : List Byte) (m : Byte) (bi : Nat) (v : ChunkVars) : Progress :=
  let pre := v.out.length
  let h := hashOf (contextOf v.out)
  let table := insertAt v.table h pre
  match payload[v.ip]? with
  | none =>
    match pol with
    | .padGroup => .goOn ⟨v.ip, v.out ++ [Config.padByte], table⟩
    | .padOnce => .stop ⟨v.ip, v.out ++ [Config.padByte], table⟩
  | some o =>
    if m.getLsbD bi then
      match v.table h with
      | none => .fault ⟨.unknownContext, pre, h, o, v.ip⟩
      | some e =>
        if 1 ≤ o.toNat ∧ pre ≤ e then .fault ⟨.selfReference, pre, h, o, v.ip⟩
        else .goOn ⟨v.ip + 1, v.out ++ matchBytes v.out e o.toNat, table⟩
    else .goOn ⟨v.ip + 1, v.out ++ [o], table⟩

/-- The last `n` steps of a group, at mask bits n - 1 down to 0 (R125). -/
def chunkGroup (pol : PadPolicy) (payload : List Byte) (m : Byte) : Nat → ChunkVars → Progress
  | 0, v => .goOn v
  | n + 1, v =>
    match chunkStep pol payload m n v with
    | .goOn w => chunkGroup pol payload m n w
    | p => p

/-- The group loop (R123), at most `fuel` groups; each group takes a byte, so the payload's length is fuel enough. -/
def chunkLoop (pol : PadPolicy) (payload : List Byte) : Nat → ChunkVars → Progress
  | 0, v => .stop v
  | fuel + 1, v =>
    if v.out.length < Config.chunkCap then
      match payload[v.ip]? with
      | none => .stop v
      | some m =>
        match chunkGroup pol payload m Config.groupBits { v with ip := v.ip + 1 } with
        | .goOn w => chunkLoop pol payload fuel w
        | p => p
    else .stop v

/-- The result of a chunk decode. -/
inductive ChunkResult
  | bytes (out : List Byte) (ip : Nat)
  | fault (f : MatchFault)
  deriving DecidableEq, Repr

/-- DecodeChunk of a payload (R120): the initial context, the groups, the truncation. -/
def decodeChunk (pol : PadPolicy) (payload : List Byte) : ChunkResult :=
  let ctx := payload.take 4
  let table : BitVec 16 → Option Nat :=
    if payload.length < 4 then fun _ => none else insertAt (fun _ => none) (hashOf (contextOf ctx)) 4
  match chunkLoop pol payload payload.length ⟨ctx.length, ctx, table⟩ with
  | .goOn v => .bytes (v.out.take Config.chunkCap) v.ip
  | .stop v => .bytes (v.out.take Config.chunkCap) v.ip
  | .fault f => .fault f

/-! ## A stream of records (42_chunk_stream.md R160) -/

/-- How a stream ends: with the bytes consumed, the records decoded and the firmware, truncated or not; or by a fault in
the record `nch` at `sp`, whose payload begins at the offset `pb` of the stream. -/
inductive StreamResult
  | ended (consumed nch : Nat) (firmware : List Byte) (truncated : Bool)
  | matchFault (sp nch : Nat) (firmware : List Byte) (pb : Nat) (f : MatchFault)
  | overflow (sp nch : Nat) (firmware : List Byte)
  deriving DecidableEq, Repr

/-- The framer's loop, at most `fuel` records; each record takes four bytes or more. -/
def streamLoop (pol : PadPolicy) (outCap : Nat) (stream : List Byte) :
    Nat → Nat → Nat → List Byte → StreamResult
  | 0, sp, nch, fw => .ended sp nch fw false
  | fuel + 1, sp, nch, fw =>
    match stream.drop sp with
    | b0 :: b1 :: b2 :: b3 :: body =>
      let cs := (le32 b0 b1 b2 b3).toNat
      if body.length < cs then .ended sp nch fw true
      else
        match decodeChunk pol ((body.take cs).drop 2) with
        | .fault f => .matchFault sp nch fw (sp + 4 + min 2 cs) f
        | .bytes out _ =>
          if outCap < fw.length + out.length then .overflow sp nch fw
          else streamLoop pol outCap stream fuel (sp + 4 + cs) (nch + 1) (fw ++ out)
    | _ => .ended sp nch fw false

/-- DecodeStream of a section. -/
def decodeStream (pol : PadPolicy) (outCap : Nat) (stream : List Byte) : StreamResult :=
  streamLoop pol outCap stream (stream.length + 1) 0 0 []

/-! ## The locator (43_container_locator.md R180) -/

/-- The first address at or after `start` at which the preamble holds the whole marker. -/
def findMarker (preamble : List Byte) (start : Nat) : Option Nat :=
  (List.range preamble.length).find?
    (fun a => decide (start ≤ a) && decide ((preamble.drop a).take 6 = Config.marker))

/-- A located section, or the failure outcome. -/
inductive Located
  | found (start : Nat) (size crc : Word)
  | failed (c : Code)
  deriving DecidableEq, Repr

/-- The four bytes at `a` as a little-endian word. -/
def wordAt (bs : List Byte) (a : Nat) : Word :=
  le32 (bs.getD a 0#8) (bs.getD (a + 1) 0#8) (bs.getD (a + 2) 0#8) (bs.getD (a + 3) 0#8)

/-- Locate in a whole update file. -/
def locate (file : List Byte) : Located :=
  let preamble := file.take 0x90
  match findMarker preamble 0 with
  | none => .failed .marker1NotFound
  | some m1 =>
    if m1 < 8 then .failed .headerRange
    else
      match findMarker preamble (m1 + 9) with
      | none => .failed .marker2NotFound
      | some m2 => .found (m2 + 6) (wordAt file (m1 - 8)) (wordAt file (m1 - 4))

end Sys2Proof.Machine.Ref
end

