-- ==== Sys2Proof/Safety.lean ====
section
/-! DEFINITION. The terms the claims use: runs, what an element leaves unchanged, the invariant of the machine, and when
two machines are at the same point of the same command on the same input. -/

namespace Sys2Proof.Machine

/-! ## Runs -/

/-- `k` steps, stopping at the first that does not answer a next state. -/
def runSteps : Nat → State → Answer
  | 0, s => .next s
  | k + 1, s =>
    match step s with
    | .next t => runSteps k t
    | .fault r => .fault r
    | .refused r => .refused r

/-- The next state, where there is one. -/
def nextState? (o : Answer) : Option State :=
  match o with
  | .next t => some t
  | .fault _ => none
  | .refused _ => none

/-! ## Frames -/

/-- The parameters, the registers the host can read or write, the host's own side, and every byte of IN and OUT. -/
structure SameHostSide (s t : State) : Prop where
  params : t.params = s.params
  mode : t.mode = s.mode
  inLen : t.inLen = s.inLen
  results : t.results = s.results
  queue : t.queue = s.queue
  bus : t.bus = s.bus
  draws : t.draws = s.draws
  readIn : ∀ a, t.readIn a = s.readIn a
  readOut : ∀ a, t.readOut a = s.readOut a

/-- STATUS.SUCCESS, FAULT and CODE (BUSY and DONE are the phase). -/
structure SameFlags (s t : State) : Prop where
  success : t.success = s.success
  fault : t.fault = s.fault
  code : t.code = s.code

/-- The datapath registers that no step of a chunk decode writes: those of the command, the locator and the framer, and
the payload's place. -/
structure SameOutsideChunk (s t : State) : Prop where
  modeL : t.dp.modeL = s.dp.modeL
  sb : t.dp.sb = s.dp.sb
  sl : t.dp.sl = s.dp.sl
  sp : t.dp.sp = s.dp.sp
  nch : t.dp.nch = s.dp.nch
  cs : t.dp.cs = s.dp.cs
  pb : t.dp.pb = s.dp.pb
  n : t.dp.n = s.dp.n
  fwlen : t.dp.fwlen = s.dp.fwlen
  m1 : t.dp.m1 = s.dp.m1
  size : t.dp.size = s.dp.size
  crc : t.dp.crc = s.dp.crc

/-- OBUF and HT. -/
structure SameChunkMemory (s t : State) : Prop where
  obuf : t.obuf = s.obuf
  htLookup : ∀ h, t.htLookup h = s.htLookup h

/-- What every step of a group leaves in the datapath: the fetch (41_chunk_decoder.md R126) and the prologue (R127). -/
structure StepRegisters (s t : State) (octet : Byte) (maskBit missing : Bool) : Prop where
  cur : t.dp.cur = octet
  bit : t.dp.bit = maskBit
  exh : t.dp.exh = missing
  ip : t.dp.ip = if missing then s.dp.ip else s.dp.ip + 1
  pre : t.dp.pre = s.olen
  hash : t.dp.hash = hashOf (contextOf s.obuf)
  mask : t.dp.mask = s.dp.mask

/-- The epilogue (41_chunk_decoder.md R134): the hash of the context captured before the step now has the entry
pre_len, every other hash the entry it had. -/
def InsertedAt (s t : State) : Prop :=
  ∀ h, t.htLookup h = if h = hashOf (contextOf s.obuf) then some s.olen else s.htLookup h

/-- The next step of the group, or the group's end after the step of bit 0 (41_chunk_decoder.md R125). -/
def GroupGoesOn (s t : State) : Prop :=
  (s.dp.bi = 0 → t.phase = .busy .mask ∧ t.dp.bi = 0) ∧
  (s.dp.bi ≠ 0 → t.phase = .busy .token ∧ t.dp.bi = s.dp.bi - 1)

/-! ## The invariant -/

/-- 60_exceptions.md R220, 10_state.md R24: before a command has ended SUCCESS, FAULT and CODE are 0; after it, exactly
one of success (code 0), failure outcome (codes 1 to 5) and fault (codes 8 to 11). -/
def StatusInv (s : State) : Prop :=
  match s.phase with
  | .done =>
    (s.success = true ∧ s.fault = false ∧ s.code.bits.toNat = 0) ∨
    (s.success = false ∧ s.fault = false ∧ 1 ≤ s.code.bits.toNat ∧ s.code.bits.toNat ≤ 5) ∨
    (s.success = false ∧ s.fault = true ∧ 8 ≤ s.code.bits.toNat ∧ s.code.bits.toNat ≤ 11)
  | _ => s.success = false ∧ s.fault = false ∧ s.code.bits.toNat = 0

/-- The canonical form of IN, OUT and HT, and that they list nothing outside their space (20_memory.md R50). -/
def MemoryInv (s : State) : Prop :=
  Memory.wf s.inMem ∧ Memory.wf s.outMem ∧ Sparse.Sorted s.ht ∧
  (∀ c ∈ s.inMem, c.1 < s.params.inCap) ∧ (∀ c ∈ s.outMem, c.1 < s.params.outCap) ∧
  (∀ c ∈ s.ht, c.1 < Config.htEntries)

/-- 10_state.md R33: every datapath register fits its width. -/
def WidthInv (s : State) : Prop :=
  s.dp.sb < 2 ^ 32 ∧ s.dp.sl < 2 ^ 32 ∧ s.dp.sp < 2 ^ 32 ∧ s.dp.nch < 2 ^ 32 ∧ s.dp.cs < 2 ^ 32 ∧
  s.dp.pb < 2 ^ 32 ∧ s.dp.n < 2 ^ 32 ∧ s.dp.ip < 2 ^ 32 ∧ s.dp.bi < 2 ^ 4 ∧ s.dp.pre < 2 ^ 17 ∧
  (∀ e, s.dp.e = some e → e < 2 ^ 17) ∧ s.dp.k < 2 ^ 8 ∧ s.olen < 2 ^ 17 ∧ s.dp.fwlen < 2 ^ 32 ∧ s.dp.m1 < 2 ^ 32

/-- The framer's registers at the top of its loop (10_state.md R34, 42_chunk_stream.md R165, R166, R169): the stream lies
in IN, SP has not passed SL, four stream bytes or more per record, and OUT[0 .. FWLEN) is written and in OUT. -/
def StreamInv (s : State) : Prop :=
  (s.dp.modeL = 0#2 ∨ s.dp.modeL = 1#2) ∧ s.dp.sb + s.dp.sl ≤ s.inLen.toNat ∧ s.dp.sp ≤ s.dp.sl ∧
  4 * s.dp.nch ≤ s.dp.sp ∧ s.dp.fwlen ≤ s.params.outCap ∧
  (∀ a, a < s.dp.fwlen → (Sparse.get s.outMem a).isSome = true)

/-- The record at SP is complete (42_chunk_stream.md R162). -/
def RecordInv (s : State) : Prop := StreamInv s ∧ s.dp.sp + 4 + s.dp.cs ≤ s.dp.sl

/-- The payload lies in IN, and is the record's body after its skip bytes where there is a record (42_chunk_stream.md
R163, R164). -/
def PayloadInv (s : State) : Prop :=
  s.dp.pb + s.dp.n ≤ s.inLen.toNat ∧
  (s.dp.modeL = 2#2 ∨
    (RecordInv s ∧ s.dp.pb = s.dp.sb + s.dp.sp + 4 + min 2 s.dp.cs ∧ s.dp.n = s.dp.cs - 2))

/-- 41_chunk_decoder.md R140: IP ≤ N, OLEN ≤ 67575, every entry of HT in [4, OLEN]. -/
def ChunkInv (s : State) : Prop :=
  PayloadInv s ∧ s.dp.ip ≤ s.dp.n ∧ s.olen ≤ Config.obufSize ∧ (∀ c ∈ s.ht, 4 ≤ c.2 ∧ c.2 ≤ s.olen)

/-- What holds at each point of the engine's algorithm. -/
def PointInv (s : State) : Point → Prop
  | .marker1 => s.dp.modeL = 0#2
  | .secHdr => s.dp.modeL = 0#2 ∧ 8 ≤ s.dp.m1 ∧ s.dp.m1 + 6 ≤ s.preambleLen
  | .marker2 => s.dp.modeL = 0#2 ∧ 8 ≤ s.dp.m1 ∧ s.dp.m1 + 6 ≤ s.preambleLen
  | .chunkHdr => StreamInv s
  | .skip => RecordInv s
  | .initCtx => PayloadInv s
  | .mask => ChunkInv s ∧ (s.dp.ip < s.dp.n → 4 ≤ s.olen)
  | .token => ChunkInv s ∧ 4 ≤ s.olen ∧ s.dp.bi ≤ 7 ∧ s.olen + 255 * (s.dp.bi + 1) ≤ Config.obufSize
  | .chunkEnd => ChunkInv s

/-- The result registers while BUSY (44_commands.md R200, R209): all 0, but for SEC_* once the locator has succeeded,
which then has SEC_START in [23, 0x90] (10_state.md R28). -/
def BusyResults (s : State) (p : Point) : Prop :=
  s.results.outLen = 0#32 ∧ s.results.consumed = 0#32 ∧ s.results.chunks = 0#32 ∧
  s.results.faultChunk = 0#32 ∧ s.results.faultPos = 0#32 ∧ s.results.faultInfo = 0#32 ∧ s.results.faultIpos = 0#32 ∧
  (if s.dp.modeL = 0#2 ∧ p ≠ .marker1 ∧ p ≠ .secHdr ∧ p ≠ .marker2 then
    23 ≤ s.results.secStart.toNat ∧ s.results.secStart.toNat ≤ 0x90
  else s.results.secStart = 0#32 ∧ s.results.secSize = 0#32 ∧ s.results.secCrc32 = 0#32)

/-- The result registers after a command (10_state.md R26 to R30): all 0 after a locator failure or BAD_COMMAND, FAULT_*
0 unless the code is UNKNOWN_CONTEXT or SELF_REFERENCE, and OUT[0 .. OUT_LEN) written and in OUT. -/
def DoneResults (s : State) : Prop :=
  (s.code = .marker1NotFound ∨ s.code = .marker2NotFound ∨ s.code = .headerRange ∨ s.code = .badCommand →
    s.results = Results.zero) ∧
  (s.code ≠ .unknownContext → s.code ≠ .selfReference →
    s.results.faultChunk = 0#32 ∧ s.results.faultPos = 0#32 ∧ s.results.faultInfo = 0#32 ∧
    s.results.faultIpos = 0#32) ∧
  s.results.outLen.toNat ≤ s.params.outCap ∧
  (∀ a, a < s.results.outLen.toNat → (Sparse.get s.outMem a).isSome = true)

/-- What holds in each phase. -/
def EngineInv (s : State) : Prop :=
  match s.phase with
  | .idle => s.results = Results.zero
  | .busy p => s.inLen.toNat ≤ s.params.inCap ∧ PointInv s p ∧ BusyResults s p
  | .done => DoneResults s

/-- The invariant of the machine. -/
structure Inv (s : State) : Prop where
  params : s.params.Legal
  status : StatusInv s
  memory : MemoryInv s
  widths : WidthInv s
  engine : EngineInv s

/-! ## What a command leaves, by the reference -/

/-- OUT[0 .. OUT_LEN) holds the bytes `fw`. -/
def OutHolds (t : State) (fw : List Byte) : Prop :=
  ∀ i, i < fw.length → some (t.readOut i) = fw[i]?

/-- DECODE_CHUNK has ended as the reference says (44_commands.md R205; 60_exceptions.md R232). -/
def ChunkCommandEnds (t : State) : Ref.ChunkResult → Prop
  | .bytes out ip =>
    t.success = true ∧ t.fault = false ∧ t.code = .ok ∧
    t.results = { Results.zero with
      outLen := BitVec.ofNat 32 out.length, consumed := BitVec.ofNat 32 ip, chunks := 1#32 } ∧
    OutHolds t out
  | .fault f =>
    t.success = false ∧ t.fault = true ∧ t.code = f.code ∧
    t.results = { Results.zero with
      consumed := BitVec.ofNat 32 (f.index + 1)
      faultPos := BitVec.ofNat 32 f.pre
      faultInfo := BitVec.ofNat 32 (f.len.toNat * 2 ^ 16 + f.hash.toNat)
      faultIpos := BitVec.ofNat 32 f.index }

/-- A command over a stream at IN address `base` with the declared size `declared` has ended as the reference says
(44_commands.md R201, R203, R204; 60_exceptions.md R232); `sec` has the section registers. After a fault nothing is said
of OUT, on which no claim may depend (60_exceptions.md R220). -/
def StreamCommandEnds (t : State) (base declared : Nat) (sec : Results) : Ref.StreamResult → Prop
  | .ended consumed nch fw truncated =>
    t.success = decide (consumed = declared) ∧ t.fault = false ∧
    t.code = (if consumed = declared then .ok else if truncated then .truncatedChunk else .incompleteConsumption) ∧
    t.results = { sec with
      outLen := BitVec.ofNat 32 fw.length
      consumed := BitVec.ofNat 32 consumed
      chunks := BitVec.ofNat 32 nch } ∧
    OutHolds t fw
  | .matchFault sp nch fw pb f =>
    t.success = false ∧ t.fault = true ∧ t.code = f.code ∧
    t.results = { sec with
      outLen := BitVec.ofNat 32 fw.length
      consumed := BitVec.ofNat 32 sp
      chunks := BitVec.ofNat 32 nch
      faultChunk := BitVec.ofNat 32 nch
      faultPos := BitVec.ofNat 32 f.pre
      faultInfo := BitVec.ofNat 32 (f.len.toNat * 2 ^ 16 + f.hash.toNat)
      faultIpos := BitVec.ofNat 32 (base + pb + f.index) }
  | .overflow sp nch fw =>
    t.success = false ∧ t.fault = true ∧ t.code = .outputOverflow ∧
    t.results = { sec with
      outLen := BitVec.ofNat 32 fw.length
      consumed := BitVec.ofNat 32 sp
      chunks := BitVec.ofNat 32 nch }

/-! ## The same point of the same command on the same input -/

/-- The same parameters, IN_LEN and IN[0 .. IN_LEN): all a command may depend on (44_commands.md R210). -/
structure SameInput (s t : State) : Prop where
  params : t.params = s.params
  inLen : t.inLen = s.inLen
  readIn : ∀ a, a < s.inLen.toNat → t.readIn a = s.readIn a

/-- The framer's registers and the firmware so far. -/
def SameStream (s t : State) : Prop :=
  t.dp.sb = s.dp.sb ∧ t.dp.sl = s.dp.sl ∧ t.dp.sp = s.dp.sp ∧ t.dp.nch = s.dp.nch ∧ t.dp.fwlen = s.dp.fwlen ∧
  (∀ a, a < s.dp.fwlen → t.readOut a = s.readOut a)

/-- The payload's place, and the record it is in where there is one. -/
def SamePayload (s t : State) : Prop :=
  t.dp.pb = s.dp.pb ∧ t.dp.n = s.dp.n ∧ (s.dp.modeL ≠ 2#2 → SameStream s t ∧ t.dp.cs = s.dp.cs)

/-- The decoder's cursor, output and table. -/
def SameChunk (s t : State) : Prop :=
  SamePayload s t ∧ t.dp.ip = s.dp.ip ∧ t.obuf = s.obuf ∧ (∀ h, t.htLookup h = s.htLookup h)

/-- The state the engine reads again after a point: what it writes first may differ. -/
def SameLive (s t : State) : Point → Prop
  | .marker1 => True
  | .secHdr => t.dp.m1 = s.dp.m1
  | .marker2 => t.dp.m1 = s.dp.m1 ∧ t.dp.size = s.dp.size ∧ t.dp.crc = s.dp.crc
  | .chunkHdr => SameStream s t
  | .skip => SameStream s t ∧ t.dp.cs = s.dp.cs
  | .initCtx => SamePayload s t
  | .mask => SameChunk s t
  | .token => SameChunk s t ∧ t.dp.mask = s.dp.mask ∧ t.dp.bi = s.dp.bi
  | .chunkEnd => SameChunk s t

/-- Two machines at the same point of the same command on the same input: they agree in the observation of 44_commands.md
R213 and in what the engine will read again. -/
structure SameRun (s t : State) : Prop where
  input : SameInput s t
  phase : t.phase = s.phase
  success : t.success = s.success
  fault : t.fault = s.fault
  code : t.code = s.code
  results : t.results = s.results
  live : match s.phase with
    | .idle => True
    | .busy p => t.dp.modeL = s.dp.modeL ∧ SameLive s t p
    | .done => ∀ a, a < s.results.outLen.toNat → t.readOut a = s.readOut a

end Sys2Proof.Machine
end

