-- ==== Sys2Proof/Certificates/Slice0/Obligations.lean ====
section
/-! DEFINITION. The statements for the provers. Each docstring says which rules of spec/ it formalises; what rests on a
choice of the model says so with the log entry. -/

open Sys2Proof Sys2Proof.Machine

/-! ## Encoding -/

/-- The decoder gives back every well-formed element from its bytes, with every operand, and leaves what follows; a pad
is the absence of bytes, so nothing follows it (30_encoding.md R70 to R78, R82). The bytes of a CTRL word stand least
significant first, the model's choice (log 17). -/
def Obligations.DecodeOfEncodeGivesElementBack : Prop :=
  ∀ i : Instr, WellFormed i →
    decode (levelOf i) (encode i) = .element i [] ∧
    (i ≠ .pad → ∀ rest, decode (levelOf i) (encode i ++ rest) = .element i rest)

/-- Token and element determine each other: the 9-bit token (b << 8) | o of a step with an octet (30_encoding.md R78). -/
def Obligations.TokenAndElementDetermineEachOther : Prop :=
  (∀ t : BitVec 9, encodeToken (decodeToken t) = some t) ∧
  (∀ (i : Instr) (t : BitVec 9), encodeToken i = some t → decodeToken t = i) ∧
  (∀ o : Byte, (decodeToken ((0#1 ++ o : BitVec 9)) = .lit o) ∧ (decodeToken ((1#1 ++ o : BitVec 9)) = .matchLen o))

/-- A CTRL write, first matching row wins: SRST, then START with MODE, then MODE alone; bits 31:4 are ignored
(30_encoding.md R82). -/
def Obligations.CtrlWordFirstMatchingRowWins : Prop :=
  ∀ w : Word,
    (w.getLsbD 1 = true → decodeCtrl w = .srst) ∧
    (w.getLsbD 1 = false → w.getLsbD 0 = true → w.extractLsb' 2 2 = 0#2 → decodeCtrl w = .decompressUpdate) ∧
    (w.getLsbD 1 = false → w.getLsbD 0 = true → w.extractLsb' 2 2 = 1#2 → decodeCtrl w = .decodeStream) ∧
    (w.getLsbD 1 = false → w.getLsbD 0 = true → w.extractLsb' 2 2 = 2#2 → decodeCtrl w = .decodeChunk) ∧
    (w.getLsbD 1 = false → w.getLsbD 0 = true → w.extractLsb' 2 2 = 3#2 → decodeCtrl w = .badMode3) ∧
    (w.getLsbD 1 = false → w.getLsbD 0 = false → decodeCtrl w = .modeWrite (w.extractLsb' 2 2)) ∧
    (∀ v : Word, v.extractLsb' 0 4 = w.extractLsb' 0 4 → decodeCtrl v = decodeCtrl w)

/-- The 32-bit fields of the formats are little-endian (20_memory.md R53): the chunk-size field, the section size and
the stored CRC-32, read from IN at any address. -/
def Obligations.FieldsAreLittleEndian : Prop :=
  ∀ (s : State) (a : Nat),
    (∃ w, decode .chunkHdr (s.inBytes a 4) = .element (.chunkHdr w) [] ∧
      w.toNat = (s.readIn a).toNat + 2 ^ 8 * (s.readIn (a + 1)).toNat + 2 ^ 16 * (s.readIn (a + 2)).toNat +
        2 ^ 24 * (s.readIn (a + 3)).toNat) ∧
    (∃ size crc, decode .secHdr (s.inBytes a 8) = .element (.secHdr size crc) [] ∧
      size.toNat = (s.readIn a).toNat + 2 ^ 8 * (s.readIn (a + 1)).toNat + 2 ^ 16 * (s.readIn (a + 2)).toNat +
        2 ^ 24 * (s.readIn (a + 3)).toNat ∧
      crc.toNat = (s.readIn (a + 4)).toNat + 2 ^ 8 * (s.readIn (a + 5)).toNat + 2 ^ 16 * (s.readIn (a + 6)).toNat +
        2 ^ 24 * (s.readIn (a + 7)).toNat)

/-- Words written out from the opcode table decode to their elements (a sanity statement; 30_encoding.md R72, R78, R82).
The width says the level, the model's choice (log 17). -/
def Obligations.OpcodeTableWordsDecode : Prop :=
  decodeTableWord 32 0x00000001 = some .decompressUpdate ∧
  decodeTableWord 32 0xFFFFFFF5 = some .decodeStream ∧
  decodeTableWord 32 0x00000009 = some .decodeChunk ∧
  decodeTableWord 32 0x0000000D = some .badMode3 ∧
  decodeTableWord 32 0x0000000F = some .srst ∧
  decodeTableWord 32 0x00000008 = some (.modeWrite 2#2) ∧
  decodeTableWord 48 0x413030303030 = some .marker ∧
  decodeTableWord 9 0x0A5 = some (.lit 0xA5#8) ∧
  decodeTableWord 9 0x1A5 = some (.matchLen 0xA5#8)

/-! ## A step runs the decoded element -/

/-- With no host turn pending, the engine's step is the meaning of the element its decoder reads at its cursor
(20_memory.md R61; 41_chunk_decoder.md R120; 42_chunk_stream.md R160; 43_container_locator.md R180), and nothing else:
the engine has no program counter to move (10_state.md R34). At the two marker points the element is the search (log
10). One element a step is the model's choice (log 8). -/
def Obligations.EngineStepRunsElementAtCursor : Prop :=
  ∀ (s : State) (i : Instr) (rest : List Byte), s.queue = [] →
    (s.phase = .busy .marker1 → step s = exec .marker s) ∧
    (s.phase = .busy .marker2 → step s = exec .marker s) ∧
    (s.phase = .busy .secHdr → decode .secHdr (s.inBytes (s.dp.m1 - 8) 8) = .element i rest → step s = exec i s) ∧
    (s.phase = .busy .chunkHdr → 4 ≤ s.dp.sl - s.dp.sp →
      decode .chunkHdr (s.inBytes (s.dp.sb + s.dp.sp) 4) = .element i rest → step s = exec i s) ∧
    (s.phase = .busy .skip →
      decode (.skip (min 2 s.dp.cs)) (s.inBytes (s.dp.sb + s.dp.sp + 4) (min 2 s.dp.cs)) = .element i rest →
      step s = exec i s) ∧
    (s.phase = .busy .initCtx →
      decode (.initCtx (min 4 s.dp.n)) (s.inBytes s.dp.pb (min 4 s.dp.n)) = .element i rest → step s = exec i s) ∧
    (s.phase = .busy .mask → s.olen < 0x10000 → s.dp.ip < s.dp.n →
      decode .mask (s.inBytes (s.dp.pb + s.dp.ip) 1) = .element i rest → step s = exec i s) ∧
    (s.phase = .busy .token → s.dp.ip < s.dp.n →
      decode (.octet (s.dp.mask.getLsbD s.dp.bi)) (s.inBytes (s.dp.pb + s.dp.ip) 1) = .element i rest →
      step s = exec i s) ∧
    (s.phase = .busy .token → s.dp.n ≤ s.dp.ip →
      decode (.octet (s.dp.mask.getLsbD s.dp.bi)) [] = .element i rest → step s = exec i s)

/-- The host's turns (the model's interleaving, log 7): a write of CTRL runs the command its word decodes to, in any
phase; a turn left to the engine, and a poll before DONE, are the engine's step; a poll after DONE reads STATUS and
ends; with no turn pending an engine that is not BUSY holds its state (70_reset_and_hazards.md R255, 60_exceptions.md
R241). -/
def Obligations.HostTurnsRunCommandsOrLeaveTheEngine : Prop :=
  ∀ (s : State) (rest : List HostOp),
    (∀ v, s.queue = .regWrite 4 0 v :: rest → step s = exec (decodeCtrl v) { s with queue := rest }) ∧
    (∀ p i, s.phase = .busy p → s.fetch p = some i →
      (s.queue = .engineTurn :: rest → step s = exec i { s with queue := rest }) ∧
      (s.queue = .pollDone :: rest → step s = exec i s)) ∧
    (s.queue = .pollDone :: rest → s.phase = .done →
      step s = .next { s with queue := rest, bus := s.statusWord }) ∧
    (s.queue = [] → s.phase.isBusy = false → step s = .next s)

/-- The engine never stops: with no host turn pending every step answers a next state, whatever the bytes of IN and
whatever the datapath holds, and changes neither the parameters, nor IN, nor IN_LEN, nor CTRL.MODE, nor the host's side
(30_encoding.md R83: no illegal byte value in any position; 20_memory.md R50: no engine access to IN ever writes it). -/
def Obligations.EngineStepAlwaysAnswersAndKeepsInput : Prop :=
  ∀ s : State, s.queue = [] →
    ∃ t, step s = .next t ∧ t.queue = [] ∧ t.params = s.params ∧ t.mode = s.mode ∧ t.inLen = s.inLen ∧
      t.bus = s.bus ∧ t.draws = s.draws ∧ (∀ a, t.readIn a = s.readIn a)

/-- A step stops exactly where the host makes a register access of another width or at an offset that is no multiple of 4
(20_memory.md R57), an aligned one beyond 0xFC (refused by the model's reading of R57, log 14), a write to IN while BUSY
(70_reset_and_hazards.md R256), or an access to a byte beyond IN_CAP or OUT_CAP (10_state.md R41; the fault is the
model's, log 15). -/
def Obligations.OnlyHostAccessesStop : Prop :=
  ∀ s : State,
    (∀ t, step s ≠ .next t) ↔
      ((∃ width off v rest, s.queue = .regWrite width off v :: rest ∧
          ¬ (width = 4 ∧ off % 4 = 0 ∧ off ≤ 0xFC)) ∨
       (∃ width off rest, s.queue = .regRead width off :: rest ∧
          ¬ (width = 4 ∧ off % 4 = 0 ∧ off ≤ 0xFC)) ∨
       (∃ a b rest, s.queue = .inWrite a b :: rest ∧ (s.phase.isBusy = true ∨ s.params.inCap ≤ a)) ∨
       (∃ a rest, s.queue = .outRead a :: rest ∧ s.params.outCap ≤ a))

/-! ## Commands -/

/-- Accepting DECOMPRESS_UPDATE, DECODE_STREAM or DECODE_CHUNK outside BUSY with IN_LEN within IN_CAP: MODE is written
and latched, every result register and flag is cleared, the engine is BUSY at the command's first point with the
command's own registers set (44_commands.md R200, R201, R204, R205; 42_chunk_stream.md R160). IN, OUT, OBUF, HT and the
host's side are left. -/
def Obligations.AcceptedCommandStartsBusyAndCleared : Prop :=
  ∀ s : State, s.phase.isBusy = false → s.inLen.toNat ≤ s.params.inCap →
    (∃ t, exec .decompressUpdate s = .next t ∧ t.phase = .busy .marker1 ∧ t.mode = 0#2 ∧
      t.dp = { s.dp with modeL := 0#2 } ∧
      t.results = Results.zero ∧ t.success = false ∧ t.fault = false ∧ t.code = .ok ∧ t.params = s.params ∧
      t.inLen = s.inLen ∧ t.queue = s.queue ∧ t.bus = s.bus ∧ t.draws = s.draws ∧
      (∀ a, t.readIn a = s.readIn a) ∧ (∀ a, t.readOut a = s.readOut a) ∧ SameChunkMemory s t) ∧
    (∃ t, exec .decodeStream s = .next t ∧ t.phase = .busy .chunkHdr ∧ t.mode = 1#2 ∧
      t.dp = { s.dp with modeL := 1#2, sb := 0, sl := s.inLen.toNat, sp := 0, nch := 0, fwlen := 0 } ∧
      t.results = Results.zero ∧ t.success = false ∧ t.fault = false ∧ t.code = .ok ∧ t.params = s.params ∧
      t.inLen = s.inLen ∧ t.queue = s.queue ∧ t.bus = s.bus ∧ t.draws = s.draws ∧
      (∀ a, t.readIn a = s.readIn a) ∧ (∀ a, t.readOut a = s.readOut a) ∧ SameChunkMemory s t) ∧
    (∃ t, exec .decodeChunk s = .next t ∧ t.phase = .busy .initCtx ∧ t.mode = 2#2 ∧
      t.dp = { s.dp with modeL := 2#2, pb := 0, n := s.inLen.toNat } ∧
      t.results = Results.zero ∧ t.success = false ∧ t.fault = false ∧ t.code = .ok ∧ t.params = s.params ∧
      t.inLen = s.inLen ∧ t.queue = s.queue ∧ t.bus = s.bus ∧ t.draws = s.draws ∧
      (∀ a, t.readIn a = s.readIn a) ∧ (∀ a, t.readOut a = s.readOut a) ∧ SameChunkMemory s t)

/-- A START written while BUSY changes nothing at all (44_commands.md R208). -/
def Obligations.StartWhileBusyIsIgnored : Prop :=
  ∀ s : State, s.phase.isBusy = true →
    exec .decompressUpdate s = .next s ∧ exec .decodeStream s = .next s ∧ exec .decodeChunk s = .next s ∧
    exec .badMode3 s = .next s

/-- A START with MODE = 3, or with IN_LEN > IN_CAP, ends at once in BAD_COMMAND: STATUS reads 0xBA, every result
register is 0, no byte of OUT is written and the result does not depend on IN (44_commands.md R206; 60_exceptions.md
R230). -/
def Obligations.BadCommandFaultsAtOnce : Prop :=
  ∀ (s : State) (i : Instr) (m : BitVec 2), s.phase.isBusy = false →
    ((i = .badMode3 ∧ m = 3#2) ∨
      (s.params.inCap < s.inLen.toNat ∧
        ((i = .decompressUpdate ∧ m = 0#2) ∨ (i = .decodeStream ∧ m = 1#2) ∨ (i = .decodeChunk ∧ m = 2#2)))) →
    ∃ t, exec i s = .next t ∧ t.phase = .done ∧ t.success = false ∧ t.fault = true ∧ t.code = .badCommand ∧
      t.statusWord = 0xBA#32 ∧ t.results = Results.zero ∧ t.mode = m ∧ t.dp = { s.dp with modeL := m } ∧
      t.params = s.params ∧ t.inLen = s.inLen ∧ t.queue = s.queue ∧ t.bus = s.bus ∧ t.draws = s.draws ∧
      (∀ a, t.readIn a = s.readIn a) ∧ (∀ a, t.readOut a = s.readOut a) ∧ SameChunkMemory s t

/-- SRST, in every phase, leaves every register of the register file at its reset value and the engine IDLE, and IN, OUT
and the parameters as they were; the hardware reset leaves the same (44_commands.md R207; 70_reset_and_hazards.md R250,
R252). The datapath registers, OBUF and HT then hold the values of reset, the model's choice (log 2). -/
def Obligations.ResetsRestoreTheResetState : Prop :=
  ∀ s : State,
    (∃ t, exec .srst s = .next t ∧ t.phase = .idle ∧ t.mode = 0#2 ∧ t.inLen = 0#32 ∧ t.results = Results.zero ∧
      t.statusWord = 0#32 ∧ t.success = false ∧ t.fault = false ∧ t.code = .ok ∧ t.params = s.params ∧
      t.dp = Datapath.zero ∧ t.obuf = [] ∧ (∀ h, t.htLookup h = none) ∧
      t.queue = s.queue ∧ t.bus = s.bus ∧ t.draws = s.draws ∧
      (∀ a, t.readIn a = s.readIn a) ∧ (∀ a, t.readOut a = s.readOut a)) ∧
    (∀ rest, s.queue = .hardReset :: rest → step s = exec .srst { s with queue := rest })

/-- A CTRL write with START = 0 and SRST = 0 writes MODE only, outside BUSY; while BUSY it changes nothing
(44_commands.md R211). -/
def Obligations.ModeWriteWritesModeOnly : Prop :=
  ∀ (s : State) (m : BitVec 2),
    (s.phase.isBusy = false → exec (.modeWrite m) s = .next { s with mode := m }) ∧
    (s.phase.isBusy = true → exec (.modeWrite m) s = .next s)

/-! ## The locator -/

/-- FindMarker gives the first address, from the start on, whose six bytes lie in the preamble and are the marker, and
NONE where there is no such address (43_container_locator.md R180, R181, R182). -/
def Obligations.FindMarkerGivesTheFirstOccurrence : Prop :=
  ∀ (s : State) (start : Nat),
    (∀ a, s.findMarker start = some a ↔
      start ≤ a ∧ a + 6 ≤ min 0x90 s.inLen.toNat ∧
        s.inBytes a 6 = [0x41#8, 0x30#8, 0x30#8, 0x30#8, 0x30#8, 0x30#8] ∧
        ∀ b, start ≤ b → b < a → s.inBytes b 6 ≠ [0x41#8, 0x30#8, 0x30#8, 0x30#8, 0x30#8, 0x30#8]) ∧
    (s.findMarker start = none ↔
      ∀ a, start ≤ a → a + 6 ≤ min 0x90 s.inLen.toNat →
        s.inBytes a 6 ≠ [0x41#8, 0x30#8, 0x30#8, 0x30#8, 0x30#8, 0x30#8])

/-- MARKER at the first search: found at 8 or later, the locator goes on with m1 there; found below 8, HEADER_RANGE; not
found, MARKER1_NOT_FOUND. A failure leaves the result registers as they were, 0 since START (43_container_locator.md
R182, R183; 60_exceptions.md R222, R224). -/
def Obligations.FirstMarkerFoundOrFailure : Prop :=
  ∀ s : State, s.phase = .busy .marker1 →
    ∃ t, exec .marker s = .next t ∧ SameHostSide s t ∧ SameChunkMemory s t ∧
      (∀ a, s.findMarker 0 = some a → 8 ≤ a →
        t.phase = .busy .secHdr ∧ t.dp = { s.dp with m1 := a } ∧ SameFlags s t) ∧
      (∀ a, s.findMarker 0 = some a → a < 8 →
        t.phase = .done ∧ t.dp = s.dp ∧ t.success = false ∧ t.fault = false ∧ t.code = .headerRange ∧
        t.statusWord = 0x32#32) ∧
      (s.findMarker 0 = none →
        t.phase = .done ∧ t.dp = s.dp ∧ t.success = false ∧ t.fault = false ∧ t.code = .marker1NotFound ∧
        t.statusWord = 0x12#32)

/-- SEC_HDR holds the section size and the stored CRC-32 of the eight bytes before the first marker, every value being
legal, and the second search follows (43_container_locator.md R184). -/
def Obligations.SectionHeaderIsReadBeforeTheFirstMarker : Prop :=
  (∀ (s : State) (size crc : Word), s.phase = .busy .secHdr →
    ∃ t, exec (.secHdr size crc) s = .next t ∧ t.phase = .busy .marker2 ∧
      t.dp = { s.dp with size := size, crc := crc } ∧ SameHostSide s t ∧ SameFlags s t ∧ SameChunkMemory s t) ∧
  (∀ (s t : State), s.phase = .busy .secHdr → s.queue = [] → 8 ≤ s.dp.m1 → step s = .next t →
    t.dp.size = le32 (s.readIn (s.dp.m1 - 8)) (s.readIn (s.dp.m1 - 7)) (s.readIn (s.dp.m1 - 6)) (s.readIn (s.dp.m1 - 5)) ∧
    t.dp.crc = le32 (s.readIn (s.dp.m1 - 4)) (s.readIn (s.dp.m1 - 3)) (s.readIn (s.dp.m1 - 2)) (s.readIn (s.dp.m1 - 1)))

/-- MARKER at the second search, which starts at m1 + 9: found at m2, SEC_START is m2 + 6, SEC_SIZE and SEC_CRC32 are
the header's, and the framer begins over min(size, IN_LEN - start) bytes from there; not found, MARKER2_NOT_FOUND with
the section registers as they were (43_container_locator.md R185, R186, R187; 44_commands.md R202; 60_exceptions.md
R223). -/
def Obligations.SecondMarkerBeginsTheSection : Prop :=
  ∀ s : State, s.phase = .busy .marker2 →
    ∃ t, exec .marker s = .next t ∧ SameChunkMemory s t ∧
      t.params = s.params ∧ t.mode = s.mode ∧ t.inLen = s.inLen ∧ t.queue = s.queue ∧ t.bus = s.bus ∧
      t.draws = s.draws ∧ (∀ a, t.readIn a = s.readIn a) ∧ (∀ a, t.readOut a = s.readOut a) ∧
      (∀ a, s.findMarker (s.dp.m1 + 9) = some a →
        a + 6 ≤ min 0x90 s.inLen.toNat ∧ t.phase = .busy .chunkHdr ∧ SameFlags s t ∧
        t.results = { s.results with
          secStart := BitVec.ofNat 32 (a + 6), secSize := s.dp.size, secCrc32 := s.dp.crc } ∧
        t.results.secStart.toNat = a + 6 ∧
        t.dp = { s.dp with
          sb := a + 6, sl := min s.dp.size.toNat (s.inLen.toNat - (a + 6)), sp := 0, nch := 0, fwlen := 0 }) ∧
      (s.findMarker (s.dp.m1 + 9) = none →
        t.phase = .done ∧ t.dp = s.dp ∧ t.results = s.results ∧ t.success = false ∧ t.fault = false ∧
        t.code = .marker2NotFound ∧ t.statusWord = 0x22#32)

/-! ## The framer -/

/-- CHUNK_HDR: a record whose declared bytes all remain is taken; otherwise the stream ends END_TRUNCATED with SP, FWLEN
and NCH as results, nothing of the record decoded (42_chunk_stream.md R161, R162). A truncated record never has its size
consumed, so the code is TRUNCATED_CHUNK (60_exceptions.md R225) wherever SP is not the declared size. -/
def Obligations.ChunkHeaderTakesOrTruncates : Prop :=
  ∀ (s : State) (cs : Word), s.phase = .busy .chunkHdr →
    ∃ t, exec (.chunkHdr cs) s = .next t ∧ SameChunkMemory s t ∧
      t.dp = { s.dp with cs := cs.toNat } ∧
      t.params = s.params ∧ t.mode = s.mode ∧ t.inLen = s.inLen ∧ t.queue = s.queue ∧ t.bus = s.bus ∧
      t.draws = s.draws ∧ (∀ a, t.readIn a = s.readIn a) ∧ (∀ a, t.readOut a = s.readOut a) ∧
      (cs.toNat ≤ s.dp.sl - s.dp.sp - 4 → t.phase = .busy .skip ∧ t.results = s.results ∧ SameFlags s t) ∧
      (s.dp.sl - s.dp.sp - 4 < cs.toNat →
        t.phase = .done ∧ t.fault = false ∧
        t.results = { s.results with
          consumed := BitVec.ofNat 32 s.dp.sp
          outLen := BitVec.ofNat 32 s.dp.fwlen
          chunks := BitVec.ofNat 32 s.dp.nch } ∧
        (s.dp.sp ≠ s.declaredSize → t.success = false ∧ t.code = .truncatedChunk ∧ t.statusWord = 0x42#32))

/-- SKIP: the values of the reserved bytes are never looked at, and the payload is the record's body after them
(42_chunk_stream.md R163). -/
def Obligations.SkipBytesAreDroppedUnread : Prop :=
  (∀ (s : State) (k k' : List Byte), exec (.skip k) s = exec (.skip k') s) ∧
  (∀ (s : State) (k : List Byte), s.phase = .busy .skip →
    ∃ t, exec (.skip k) s = .next t ∧ t.phase = .busy .initCtx ∧
      (2 ≤ s.dp.cs → t.dp.pb = s.dp.sb + s.dp.sp + 6 ∧ t.dp.pb + t.dp.n = s.dp.sb + s.dp.sp + 4 + s.dp.cs) ∧
      (s.dp.cs < 2 → t.dp.n = 0) ∧
      t.dp = { s.dp with pb := t.dp.pb, n := t.dp.n } ∧
      SameHostSide s t ∧ SameFlags s t ∧ SameChunkMemory s t)

/-- The end of a stream with fewer than four bytes left: the results are SP, FWLEN and NCH, and the command succeeds if
and only if SP is the declared size (of the section for DECOMPRESS_UPDATE, IN_LEN for DECODE_STREAM), else
INCOMPLETE_CONSUMPTION (42_chunk_stream.md R161; 44_commands.md R203, R204; 60_exceptions.md R226). -/
def Obligations.StreamEndSucceedsIffAllConsumed : Prop :=
  ∀ s : State, s.queue = [] → s.phase = .busy .chunkHdr → s.dp.sl - s.dp.sp < 4 →
    ∃ t, step s = .next t ∧ t.phase = .done ∧ t.fault = false ∧
      t.results = { s.results with
        consumed := BitVec.ofNat 32 s.dp.sp
        outLen := BitVec.ofNat 32 s.dp.fwlen
        chunks := BitVec.ofNat 32 s.dp.nch } ∧
      (s.dp.sp < 2 ^ 32 → s.dp.modeL = 0#2 → (t.success = true ↔ t.results.consumed = t.results.secSize)) ∧
      (s.dp.sp < 2 ^ 32 → s.dp.modeL = 1#2 → (t.success = true ↔ t.results.consumed = t.inLen)) ∧
      (t.success = true → t.statusWord = 0x06#32) ∧ (t.success = false → t.statusWord = 0x52#32) ∧
      t.dp = s.dp ∧ SameChunkMemory s t ∧ (∀ a, t.readOut a = s.readOut a)

/-- A decoded chunk that fits is appended to OUT at FWLEN, FWLEN and NCH advance, SP passes the whole record, every other
byte of OUT is left, and nothing else changes (42_chunk_stream.md R165, R166; 41_chunk_decoder.md R137). -/
def Obligations.ChunkIsAppendedToOut : Prop :=
  ∀ s : State, s.queue = [] → s.phase = .busy .chunkEnd → s.dp.modeL ≠ 2#2 →
    s.dp.fwlen + min s.olen 0x10000 ≤ s.params.outCap →
    ∃ t, step s = .next t ∧ t.phase = .busy .chunkHdr ∧
      (∀ i, i < min s.olen 0x10000 → some (t.readOut (s.dp.fwlen + i)) = s.obuf[i]?) ∧
      (∀ a, (a < s.dp.fwlen ∨ s.dp.fwlen + min s.olen 0x10000 ≤ a) → t.readOut a = s.readOut a) ∧
      t.dp = { s.dp with
        fwlen := s.dp.fwlen + min s.olen 0x10000, nch := s.dp.nch + 1, sp := s.dp.sp + 4 + s.dp.cs } ∧
      t.params = s.params ∧ t.mode = s.mode ∧ t.inLen = s.inLen ∧ t.queue = s.queue ∧ t.bus = s.bus ∧
      t.draws = s.draws ∧ t.results = s.results ∧ SameFlags s t ∧ SameChunkMemory s t ∧ (∀ a, t.readIn a = s.readIn a)

/-- A decoded chunk that would pass OUT_CAP is not written: OUTPUT_OVERFLOW, recorded by the fault entry
(42_chunk_stream.md R165; 60_exceptions.md R229, R232). -/
def Obligations.ChunkBeyondOutCapOverflows : Prop :=
  ∀ s : State, s.queue = [] → s.phase = .busy .chunkEnd → s.dp.modeL ≠ 2#2 →
    s.params.outCap < s.dp.fwlen + min s.olen 0x10000 →
    ∃ t, step s = .next t ∧ t.phase = .done ∧ t.success = false ∧ t.fault = true ∧ t.code = .outputOverflow ∧
      t.statusWord = 0xAA#32 ∧
      t.results = { s.results with
        outLen := BitVec.ofNat 32 s.dp.fwlen
        consumed := BitVec.ofNat 32 s.dp.sp
        chunks := BitVec.ofNat 32 s.dp.nch } ∧
      t.dp = s.dp ∧ SameChunkMemory s t ∧ (∀ a, t.readOut a = s.readOut a) ∧ (∀ a, t.readIn a = s.readIn a)

/-- The end of DECODE_CHUNK: the truncated output is OUT[0 .. OUT_LEN), CONSUMED is IP, CHUNKS is 1, success
(44_commands.md R205; 41_chunk_decoder.md R137, R138). -/
def Obligations.DecodeChunkEndsWithItsOutput : Prop :=
  ∀ s : State, s.queue = [] → s.phase = .busy .chunkEnd → s.dp.modeL = 2#2 →
    ∃ t, step s = .next t ∧ t.phase = .done ∧ t.statusWord = 0x06#32 ∧ t.success = true ∧ t.fault = false ∧
      t.code = .ok ∧
      t.results = { s.results with
        outLen := BitVec.ofNat 32 (min s.olen 0x10000), consumed := BitVec.ofNat 32 s.dp.ip, chunks := 1#32 } ∧
      (∀ i, i < min s.olen 0x10000 → some (t.readOut i) = s.obuf[i]?) ∧
      (∀ a, min s.olen 0x10000 ≤ a → t.readOut a = s.readOut a) ∧
      t.dp = { s.dp with fwlen := min s.olen 0x10000 } ∧ SameChunkMemory s t ∧ (∀ a, t.readIn a = s.readIn a)

/-! ## The decoder -/

/-- INIT_CTX: the bytes are output verbatim, IP is their number, HT has the one entry 4 for the hash of four bytes and
is empty after a shorter payload (41_chunk_decoder.md R121, R122; 40_hash_index.md R103). -/
def Obligations.InitialContextIsOutputAndHashed : Prop :=
  ∀ (s : State) (ctx : List Byte), s.phase = .busy .initCtx → ctx.length ≤ 4 →
    ∃ t, exec (.initCtx ctx) s = .next t ∧ t.phase = .busy .mask ∧ t.obuf = ctx ∧
      t.dp = { s.dp with ip := ctx.length } ∧
      (ctx.length < 4 → ∀ h, t.htLookup h = none) ∧
      (∀ x0 x1 x2 x3, ctx = [x0, x1, x2, x3] →
        ∀ h, t.htLookup h = if h = hashOf (be32 x0 x1 x2 x3) then some 4 else none) ∧
      SameHostSide s t ∧ SameFlags s t

/-- The group loop: with OLEN below 0x10000 and payload left, the step takes the byte at the cursor as MASK, IP
advances and the group begins at bit 7; otherwise the decode ends and nothing is read (41_chunk_decoder.md R123,
R124, R125). -/
def Obligations.GroupLoopTakesMaskOrEnds : Prop :=
  (∀ (s : State) (m : Byte), s.phase = .busy .mask →
    ∃ t, exec (.mask m) s = .next t ∧ t.phase = .busy .token ∧
      t.dp = { s.dp with mask := m, ip := s.dp.ip + 1, bi := 7 } ∧
      SameHostSide s t ∧ SameFlags s t ∧ SameChunkMemory s t) ∧
  (∀ s : State, s.queue = [] → s.phase = .busy .mask →
    (s.olen < 0x10000 ∧ s.dp.ip < s.dp.n → step s = exec (.mask (s.readIn (s.dp.pb + s.dp.ip))) s) ∧
    (¬ (s.olen < 0x10000 ∧ s.dp.ip < s.dp.n) → step s = .next { s with phase := .busy .chunkEnd }))

/-- Octet fetch and exhaustion, in every step of a group, the faulting ones too: with payload left CUR is the byte at
the cursor, IP advances and BIT is the mask bit; otherwise CUR is 0xFF, BIT is 0 whatever the mask bit and IP stays
(41_chunk_decoder.md R126). -/
def Obligations.StepFetchesOctetOrPads : Prop :=
  ∀ (s t : State), s.queue = [] → s.phase = .busy .token → step s = .next t →
    (s.dp.ip < s.dp.n →
      t.dp.cur = s.readIn (s.dp.pb + s.dp.ip) ∧ t.dp.ip = s.dp.ip + 1 ∧
      t.dp.bit = s.dp.mask.getLsbD s.dp.bi ∧ t.dp.exh = false) ∧
    (s.dp.n ≤ s.dp.ip → t.dp.cur = 0xFF#8 ∧ t.dp.bit = false ∧ t.dp.exh = true ∧ t.dp.ip = s.dp.ip)

/-- Prologue and epilogue of every step of a group: PRE and HASH are those of the output before the step, and a step
that does not fault inserts PRE at HASH and changes no other entry, while a step that faults inserts nothing
(41_chunk_decoder.md R127, R134; 40_hash_index.md R104). -/
def Obligations.StepInsertsOldLengthAtOldHash : Prop :=
  ∀ (s t : State), s.queue = [] → s.phase = .busy .token → step s = .next t →
    t.dp.pre = s.olen ∧ t.dp.hash = hashOf (contextOf s.obuf) ∧
    (t.phase ≠ .done → InsertedAt s t) ∧
    (t.phase = .done → SameChunkMemory s t)

/-- LIT: the octet is appended, the entry is updated, the group goes on, and nothing else changes: no flag, no register
of the host's, no byte of IN or OUT (41_chunk_decoder.md R128; 10_state.md R40). -/
def Obligations.LiteralAppendsItsOctet : Prop :=
  ∀ (s : State) (o : Byte), s.phase = .busy .token →
    ∃ t, exec (.lit o) s = .next t ∧ t.obuf = s.obuf ++ [o] ∧ InsertedAt s t ∧ StepRegisters s t o false false ∧
      GroupGoesOn s t ∧ t.dp.e = s.dp.e ∧ t.dp.k = s.dp.k ∧
      SameHostSide s t ∧ SameFlags s t ∧ SameOutsideChunk s t

/-- PAD: 0xFF is appended as a literal and no input is read; under PAD_GROUP the group goes on, under PAD_ONCE the
decode of the chunk ends at once (41_chunk_decoder.md R135, R136). -/
def Obligations.PadAppendsFFByPolicy : Prop :=
  ∀ s : State, s.phase = .busy .token →
    ∃ t, exec .pad s = .next t ∧ t.obuf = s.obuf ++ [0xFF#8] ∧ InsertedAt s t ∧
      StepRegisters s t 0xFF#8 false true ∧
      (s.params.padPolicy = .padGroup → GroupGoesOn s t) ∧
      (s.params.padPolicy = .padOnce → t.phase = .busy .chunkEnd ∧ t.dp.bi = s.dp.bi) ∧
      t.dp.e = s.dp.e ∧ t.dp.k = s.dp.k ∧
      SameHostSide s t ∧ SameFlags s t ∧ SameOutsideChunk s t

/-- MATCH with an entry below pre_len, or with L = 0 and any entry: L bytes are appended, the k-th being the byte of the
new output at E + k, so that a copy reads what it has itself written; the entry is updated and the group goes on
(41_chunk_decoder.md R129, R130, R131, R134; 20_memory.md R64). K counts the copied bytes (log 24). -/
def Obligations.MatchCopiesFromItsEntry : Prop :=
  ∀ (s : State) (l : Byte) (e : Nat), s.phase = .busy .token →
    s.htLookup (hashOf (contextOf s.obuf)) = some e → (e < s.olen ∨ l.toNat = 0) →
    ∃ t, exec (.matchLen l) s = .next t ∧
      t.obuf.length = s.olen + l.toNat ∧ (∀ i, i < s.olen → t.obuf[i]? = s.obuf[i]?) ∧
      (∀ k, k < l.toNat → t.obuf[s.olen + k]? = t.obuf[e + k]?) ∧
      InsertedAt s t ∧ StepRegisters s t l true false ∧ GroupGoesOn s t ∧ t.dp.e = some e ∧ t.dp.k = l.toNat ∧
      SameHostSide s t ∧ SameFlags s t ∧ SameOutsideChunk s t

/-- The two faults of MATCH, checked before any byte is copied: UNKNOWN_CONTEXT where HT has no entry for the hash, L = 0
included, and SELF_REFERENCE where L is 1 or more and the entry is not below pre_len. Nothing is appended or inserted,
the fault registers say where, CONSUMED counts the octet in DECODE_CHUNK (41_chunk_decoder.md R132, R133;
60_exceptions.md R227, R228, R232). That a fault is a next state, with the phase DONE, is the model's reading (log 11).
This states the fault entry itself; what a run leaves after it is nothing a claim about decoded output may depend on
(R220). -/
def Obligations.MatchFaultsBeforeCopying : Prop :=
  ∀ (s : State) (l : Byte) (c : Code), s.phase = .busy .token →
    ((s.htLookup (hashOf (contextOf s.obuf)) = none ∧ c = .unknownContext) ∨
      (∃ e, s.htLookup (hashOf (contextOf s.obuf)) = some e ∧ s.olen ≤ e ∧ 1 ≤ l.toNat ∧ c = .selfReference)) →
    ∃ t, exec (.matchLen l) s = .next t ∧ t.phase = .done ∧ t.success = false ∧ t.fault = true ∧ t.code = c ∧
      SameChunkMemory s t ∧ StepRegisters s t l true false ∧ SameOutsideChunk s t ∧
      t.results.faultPos = BitVec.ofNat 32 s.olen ∧
      t.results.faultInfo = BitVec.ofNat 32 (l.toNat * 2 ^ 16 + (hashOf (contextOf s.obuf)).toNat) ∧
      t.results.faultIpos = BitVec.ofNat 32 (s.dp.pb + s.dp.ip) ∧
      (s.dp.modeL = 2#2 → t.results.outLen = 0#32 ∧ t.results.chunks = 0#32 ∧ t.results.faultChunk = 0#32 ∧
        t.results.consumed = BitVec.ofNat 32 (s.dp.ip + 1)) ∧
      (s.dp.modeL ≠ 2#2 → t.results.outLen = BitVec.ofNat 32 s.dp.fwlen ∧
        t.results.chunks = BitVec.ofNat 32 s.dp.nch ∧ t.results.faultChunk = BitVec.ofNat 32 s.dp.nch ∧
        t.results.consumed = BitVec.ofNat 32 s.dp.sp) ∧
      t.results.secStart = s.results.secStart ∧ t.results.secSize = s.results.secSize ∧
      t.results.secCrc32 = s.results.secCrc32 ∧
      t.params = s.params ∧ t.mode = s.mode ∧ t.inLen = s.inLen ∧ t.queue = s.queue ∧
      (∀ a, t.readIn a = s.readIn a) ∧ (∀ a, t.readOut a = s.readOut a)

/-- After a zero-length match that is not the last step of its group, a match of length 1 or more faults with
SELF_REFERENCE at the same output position (41_chunk_decoder.md R131). -/
def Obligations.MatchAfterZeroLengthMatchSelfReferences : Prop :=
  ∀ (s : State) (l : Byte) (e : Nat), s.phase = .busy .token → s.dp.bi ≠ 0 →
    s.htLookup (hashOf (contextOf s.obuf)) = some e → 1 ≤ l.toNat →
    ∃ t u, exec (.matchLen 0#8) s = .next t ∧ t.obuf = s.obuf ∧ t.phase = .busy .token ∧
      exec (.matchLen l) t = .next u ∧ u.phase = .done ∧ u.fault = true ∧ u.code = .selfReference ∧
      u.results.faultPos = BitVec.ofNat 32 s.olen ∧ u.obuf = s.obuf

/-- The overlapping-copy property: after a match with entry E and length L at pre_len PRE, with d = PRE - E, the bytes
from the entry on and the appended bytes both repeat the d bytes from the entry to the end of the old output, OBUF[E + k]
= OBUF[E + (k mod d)] and OBUF[PRE + k] = OBUF[E + (k mod d)] for k below L (41_chunk_decoder.md R141). -/
def Obligations.MatchCopyRepeatsItsSource : Prop :=
  ∀ (s : State) (l : Byte) (e : Nat), s.phase = .busy .token →
    s.htLookup (hashOf (contextOf s.obuf)) = some e → e < s.olen →
    ∃ t, exec (.matchLen l) s = .next t ∧ t.obuf.length = s.olen + l.toNat ∧
      ∀ k, k < l.toNat →
        t.obuf[e + k]? = t.obuf[e + k % (s.olen - e)]? ∧
        t.obuf[s.olen + k]? = t.obuf[e + k % (s.olen - e)]? ∧
        t.obuf[e + k % (s.olen - e)]? = s.obuf[e + k % (s.olen - e)]?

/-- The hash of the context x0 x1 x2 x3 is ((c >> 15) ^ c) & 0xFFFF with c their big-endian number (40_hash_index.md
R100); bit by bit it is hash[i] = c[i] ^ c[i + 15], that is c[15:0] ^ c[30:15], bit 31 of c does not reach it, and four
contexts share the hash 0 (R101). -/
def Obligations.HashXorsTheShiftedContext : Prop :=
  (∀ x0 x1 x2 x3 : Byte,
    let c := 2 ^ 24 * x0.toNat + 2 ^ 16 * x1.toNat + 2 ^ 8 * x2.toNat + x3.toNat
    (hashOf (be32 x0 x1 x2 x3)).toNat = ((c >>> 15) ^^^ c) % 2 ^ 16) ∧
  hashOf (be32 0x01#8 0x02#8 0x03#8 0x04#8) = 0x0100#16 ∧
  (∀ (c : Word) (i : Nat), i < 16 → (hashOf c).getLsbD i = (c.getLsbD i ^^ c.getLsbD (i + 15))) ∧
  (∀ c : Word, hashOf c = c.extractLsb' 0 16 ^^^ c.extractLsb' 15 16) ∧
  (∀ c : Word, hashOf (c ^^^ 0x80000000#32) = hashOf c) ∧
  (hashOf 0x00000000#32 = 0#16 ∧ hashOf 0x80000000#32 = 0#16 ∧ hashOf 0x7FFFFFFF#32 = 0#16 ∧
    hashOf 0xFFFFFFFF#32 = 0#16)

/-- The context of a step is the last four bytes of the output as a big-endian number, the oldest in bits 31:24
(20_memory.md R54). -/
def Obligations.ContextIsLastFourBytesBigEndian : Prop :=
  ∀ (out : List Byte) (x0 x1 x2 x3 : Byte),
    (contextOf (out ++ [x0, x1, x2, x3])).extractLsb' 24 8 = x0 ∧
    (contextOf (out ++ [x0, x1, x2, x3])).extractLsb' 16 8 = x1 ∧
    (contextOf (out ++ [x0, x1, x2, x3])).extractLsb' 8 8 = x2 ∧
    (contextOf (out ++ [x0, x1, x2, x3])).extractLsb' 0 8 = x3 ∧
    (contextOf (out ++ [x0, x1, x2, x3])).toNat =
      2 ^ 24 * x0.toNat + 2 ^ 16 * x1.toNat + 2 ^ 8 * x2.toNat + x3.toNat

/-! ## Registers the host reads and writes -/

/-- STATUS, bit by bit: BUSY, DONE, SUCCESS, FAULT, CODE in 7:4, and 0 above; BUSY and DONE are never both 1
(10_state.md R21, R24), and the codes are those of 60_exceptions.md R221. -/
def Obligations.StatusWordLayout : Prop :=
  (∀ s : State,
    s.statusWord.getLsbD 0 = s.phase.isBusy ∧ s.statusWord.getLsbD 1 = s.phase.isDone ∧
    s.statusWord.getLsbD 2 = s.success ∧ s.statusWord.getLsbD 3 = s.fault ∧
    s.statusWord.extractLsb' 4 4 = s.code.bits ∧ s.statusWord.extractLsb' 8 24 = 0#24 ∧
    (s.statusWord.getLsbD 0 && s.statusWord.getLsbD 1) = false) ∧
  (Code.ok.bits = 0#4 ∧ Code.marker1NotFound.bits = 1#4 ∧ Code.marker2NotFound.bits = 2#4 ∧
    Code.headerRange.bits = 3#4 ∧ Code.truncatedChunk.bits = 4#4 ∧ Code.incompleteConsumption.bits = 5#4 ∧
    Code.unknownContext.bits = 8#4 ∧ Code.selfReference.bits = 9#4 ∧ Code.outputOverflow.bits = 10#4 ∧
    Code.badCommand.bits = 11#4)

/-- A register read outside BUSY returns the register of the map 10_state.md R22, and changes nothing of the engine's
(44_commands.md R212). -/
def Obligations.RegisterReadsFollowTheMap : Prop :=
  ∀ (s : State) (rest : List HostOp) (off : Nat) (v : Word), s.phase.isBusy = false →
    s.queue = .regRead 4 off :: rest →
    ((off = 0x00 ∧ v = (0#28 ++ s.mode) ++ 0#2) ∨ (off = 0x04 ∧ v = s.statusWord) ∨ (off = 0x08 ∧ v = s.inLen) ∨
      (off = 0x0C ∧ v = s.results.outLen) ∨ (off = 0x10 ∧ v = s.results.consumed) ∨
      (off = 0x14 ∧ v = s.results.secStart) ∨ (off = 0x18 ∧ v = s.results.secSize) ∨
      (off = 0x1C ∧ v = s.results.secCrc32) ∨ (off = 0x20 ∧ v = s.results.chunks) ∨
      (off = 0x24 ∧ v = s.results.faultChunk) ∨ (off = 0x28 ∧ v = s.results.faultPos) ∨
      (off = 0x2C ∧ v = s.results.faultInfo) ∨ (off = 0x30 ∧ v = s.results.faultIpos) ∨
      (off = 0x34 ∧ v = if s.params.padPolicy = .padOnce then 1#32 else 0#32) ∨
      (0x38 ≤ off ∧ off ≤ 0xFC ∧ off % 4 = 0 ∧ v = 0#32)) →
    step s = .next { s with queue := rest, bus := v }

/-- While BUSY, STATUS, CTRL, IN_LEN and PARAMS read their values, and a result register reads a free value: whatever it
returns, the engine's state is left (44_commands.md R212; 70_reset_and_hazards.md R258). That a reserved offset reads 0
then too is the model's reading of 10_state.md R32 (log 13). The value drawn is `Config.freeWord`, of which nothing is
known (log 12). -/
def Obligations.ReadsWhileBusyLeaveTheEngine : Prop :=
  ∀ (s : State) (rest : List HostOp) (off : Nat), s.phase.isBusy = true → off % 4 = 0 → off ≤ 0xFC →
    s.queue = .regRead 4 off :: rest →
    ∃ v d, step s = .next { s with queue := rest, bus := v, draws := d } ∧
      (off = 0x00 → v = s.ctrlWord) ∧ (off = 0x04 → v = s.statusWord) ∧ (off = 0x08 → v = s.inLen) ∧
      (off = 0x34 → v = s.paramsWord) ∧ (0x38 ≤ off → v = 0#32) ∧
      (0x0C ≤ off → off ≤ 0x30 → v = Config.freeWord s.draws ∧ d = s.draws + 1)

/-- PARAMS is a constant: bit 0 is PAD_POLICY, the other bits are 0, in every state, and no step changes the parameters
of the build (10_state.md R31). -/
def Obligations.ParamsIsConstant : Prop :=
  (∀ s : State, (s.regWord 0x34).getLsbD 0 = decide (s.params.padPolicy = .padOnce) ∧
    (s.regWord 0x34).extractLsb' 1 31 = 0#31) ∧
  (∀ s t : State, step s = .next t → t.params = s.params ∧ t.regWord 0x34 = s.regWord 0x34)

/-- Host writes: outside BUSY a CTRL write with START = 0 and SRST = 0 writes MODE only and a write to IN_LEN writes it;
while BUSY every write but one with CTRL.SRST = 1 is ignored; writes to any other offset are always ignored
(44_commands.md R211). -/
def Obligations.RegisterWritesAreIgnoredOrWriteOneRegister : Prop :=
  ∀ (s : State) (rest : List HostOp) (off : Nat) (v : Word), off % 4 = 0 → off ≤ 0xFC →
    s.queue = .regWrite 4 off v :: rest →
    (s.phase.isBusy = false → off = 0x00 → v.getLsbD 0 = false → v.getLsbD 1 = false →
      step s = .next { s with queue := rest, mode := v.extractLsb' 2 2 }) ∧
    (s.phase.isBusy = false → off = 0x08 → step s = .next { s with queue := rest, inLen := v }) ∧
    (s.phase.isBusy = true → ¬ (off = 0x00 ∧ v.getLsbD 1 = true) → step s = .next { s with queue := rest }) ∧
    (off ≠ 0x00 → off ≠ 0x08 → step s = .next { s with queue := rest })

/-- A register access of another width, or at an offset that is no multiple of 4, is refused, read or write
(20_memory.md R57). That an aligned word beyond 0xFC is refused too is the model's reading of R57's first sentence
(log 14). -/
def Obligations.NonWordRegisterAccessIsRefused : Prop :=
  ∀ (s : State) (rest : List HostOp) (width off : Nat) (v : Word), ¬ (width = 4 ∧ off % 4 = 0 ∧ off ≤ 0xFC) →
    (s.queue = .regWrite width off v :: rest → step s = .refused (.registerAccess width off)) ∧
    (s.queue = .regRead width off :: rest → step s = .refused (.registerAccess width off))

/-- A host write to IN: outside BUSY, below IN_CAP, it writes that byte and no other, so that the command reads it
(20_memory.md R62); while BUSY it is refused (70_reset_and_hazards.md R256). -/
def Obligations.HostWritesInOutsideBusyOnly : Prop :=
  ∀ (s : State) (rest : List HostOp) (a : Nat) (b : Byte), s.queue = .inWrite a b :: rest →
    (s.phase.isBusy = true → step s = .refused (.inWriteWhileBusy a)) ∧
    (s.phase.isBusy = false → a < s.params.inCap →
      ∃ t, step s = .next t ∧ t.readIn a = b ∧ (∀ c, c ≠ a → t.readIn c = s.readIn c) ∧
        t = { s with queue := rest, inMem := t.inMem })

/-- A host read of OUT: outside BUSY, below OUT_LEN, the byte the engine wrote; while BUSY or at or beyond OUT_LEN a free
value of which nothing is known (70_reset_and_hazards.md R258, R259; log 12). The read changes nothing of the engine's.
That outside BUSY the byte is read also where the host has not yet itself read DONE = 1, which 20_memory.md R62 leaves
unordered, is the model's choice (log 28). -/
def Obligations.HostReadsOutBelowOutLen : Prop :=
  ∀ (s : State) (rest : List HostOp) (a : Nat), s.queue = .outRead a :: rest → a < s.params.outCap →
    (s.phase.isBusy = false → a < s.results.outLen.toNat →
      step s = .next { s with queue := rest, bus := (s.readOut a).setWidth 32 }) ∧
    (s.phase.isBusy = true ∨ s.results.outLen.toNat ≤ a →
      step s = .next { s with
        queue := rest, bus := (Config.freeByte s.draws).setWidth 32, draws := s.draws + 1 })

/-- After reset every register of the register file reads 0, PARAMS reading PAD_POLICY, and the phase is IDLE
(70_reset_and_hazards.md R250, 10_state.md R22), for every choice of the open parameters. -/
def Obligations.EveryRegisterReadsZeroAfterReset : Prop :=
  ∀ p : Params,
    (State.resetWith p).phase = .idle ∧
    (∀ off, off ≠ 0x34 → (State.resetWith p).regWord off = 0#32) ∧
    (State.resetWith p).regWord 0x34 = (if p.padPolicy = .padOnce then 1#32 else 0#32)

/-- Fault entry (60_exceptions.md R232): STATUS has DONE and FAULT and the code, OUT_LEN, CONSUMED and CHUNKS are those
of the records completed (0 in DECODE_CHUNK but for CONSUMED, all 0 for BAD_COMMAND), SEC_* are left, FAULT_* are written
only with the decoder's information, and nothing else of the state changes. That the entry is a next state, with the phase
DONE, is the model's reading of R232 and R233 (log 11). -/
def Obligations.FaultEntryRecords : Prop :=
  ∀ (s : State) (c : Code) (info : Option MatchInfo),
    let t := s.raiseFault c info
    t = { s with results := t.results, phase := .done, success := false, fault := true, code := c } ∧
    (c = .badCommand → t.results.outLen = 0#32 ∧ t.results.consumed = 0#32 ∧ t.results.chunks = 0#32) ∧
    (c ≠ .badCommand → s.dp.modeL = 2#2 → t.results.outLen = 0#32 ∧ t.results.chunks = 0#32 ∧
      t.results.consumed = BitVec.ofNat 32 s.dp.ip) ∧
    (c ≠ .badCommand → s.dp.modeL ≠ 2#2 → t.results.outLen = BitVec.ofNat 32 s.dp.fwlen ∧
      t.results.chunks = BitVec.ofNat 32 s.dp.nch ∧ t.results.consumed = BitVec.ofNat 32 s.dp.sp) ∧
    t.results.secStart = s.results.secStart ∧ t.results.secSize = s.results.secSize ∧
    t.results.secCrc32 = s.results.secCrc32 ∧
    (info = none → t.results.faultChunk = s.results.faultChunk ∧ t.results.faultPos = s.results.faultPos ∧
      t.results.faultInfo = s.results.faultInfo ∧ t.results.faultIpos = s.results.faultIpos) ∧
    (∀ i, info = some i →
      t.results.faultPos = BitVec.ofNat 32 i.pre ∧
      t.results.faultInfo = BitVec.ofNat 32 (i.len.toNat * 2 ^ 16 + i.hash.toNat) ∧
      t.results.faultIpos = BitVec.ofNat 32 i.oip ∧
      (c ≠ .badCommand → s.dp.modeL ≠ 2#2 → t.results.faultChunk = BitVec.ofNat 32 s.dp.nch) ∧
      (s.dp.modeL = 2#2 → t.results.faultChunk = 0#32))

/-! ## Whole-machine rules -/

/-- The state after reset meets the invariant, for every legal choice of the open parameters. -/
def Obligations.ResetMeetsTheInvariant : Prop :=
  Inv State.reset ∧ ∀ p : Params, p.Legal → Inv (State.resetWith p)

/-- Every step keeps the invariant: the classes of outcomes, the canonical form of the memories and their bounds, the
widths of the datapath registers, the cursors within their limits, every entry of HT in [4, OLEN], OLEN at most 67575,
OUT written below OUT_LEN (10_state.md R24, R28, R30, R33, R34; 20_memory.md R51, R52; 40_hash_index.md R107;
41_chunk_decoder.md R140; 60_exceptions.md R220). -/
def Obligations.StepKeepsTheInvariant : Prop :=
  ∀ s t : State, Inv s → step s = .next t → Inv t

/-- Every step keeps the classes of outcomes, whatever the datapath holds: before a command has ended SUCCESS, FAULT and
CODE are 0, after it it is exactly one of success, failure outcome and fault, so SUCCESS = 1 implies FAULT = 0 and CODE
= 0, and FAULT = 1 implies CODE >= 8 (10_state.md R24; 60_exceptions.md R220). -/
def Obligations.StepKeepsTheOutcomeClasses : Prop :=
  ∀ s t : State, StatusInv s → step s = .next t →
    StatusInv t ∧ (t.success = true → t.fault = false ∧ t.code.bits = 0#4) ∧
    (t.fault = true → 8 ≤ t.code.bits.toNat)

/-- Every step keeps the canonical form of IN, OUT and HT, and lists nothing at or beyond IN_CAP, OUT_CAP or 65536
(20_memory.md R50, R52), for every legal choice of the open parameters. -/
def Obligations.StepKeepsTheMemoryForm : Prop :=
  ∀ s t : State, s.params.Legal → MemoryInv s → step s = .next t → MemoryInv t

/-- While a stream is decoded the engine writes OUT only at addresses from FWLEN on and below OUT_CAP, and FWLEN passes
what it has written, so OUT is written in increasing order and each address at most once per command (20_memory.md
R52). -/
def Obligations.OutIsWrittenOnceInIncreasingOrder : Prop :=
  ∀ (s t : State) (p : Point), s.queue = [] → s.phase = .busy p → s.dp.modeL ≠ 2#2 → p ≠ .marker2 →
    step s = .next t →
    s.dp.fwlen ≤ t.dp.fwlen ∧
    ∀ a, t.readOut a ≠ s.readOut a → s.dp.fwlen ≤ a ∧ a < t.dp.fwlen ∧ a < s.params.outCap

/-- The stored CRC-32 is carried and never consulted: once the section is located, a machine that differs only in
SEC_CRC32 takes the same step and still differs only there (43_container_locator.md R188; 10_state.md R28). -/
def Obligations.StoredCrcIsNeverConsulted : Prop :=
  ∀ (s t : State) (p : Point) (crc : Word), s.queue = [] → s.phase = .busy p →
    p ≠ .marker1 → p ≠ .secHdr → p ≠ .marker2 → step s = .next t →
    step { s with results := { s.results with secCrc32 := crc } } =
      .next { t with results := { t.results with secCrc32 := crc } }

/-- Every command ends, within a bound in the input length: from any state of a running command that meets the
invariant, the engine left to itself is DONE after at most 9 * IN_LEN + 11 steps (41_chunk_decoder.md R142;
42_chunk_stream.md R169; 43_container_locator.md R189; 44_commands.md R210). The bound counts the model's own steps (log
8). -/
def Obligations.RunningCommandEndsWithinBound : Prop :=
  ∀ s : State, Inv s → s.queue = [] → s.phase.isBusy = true →
    ∃ k t, k ≤ 9 * s.inLen.toNat + 11 ∧ runSteps k s = .next t ∧ t.phase = .done

/-- Two machines at the same point of the same command on the same input take the same step and are so again, whatever
else they hold: stale registers, entries and output of earlier commands, IN beyond IN_LEN, OUT beyond OUT_LEN
(41_chunk_decoder.md R144; 44_commands.md R210; 70_reset_and_hazards.md R251, R253). -/
def Obligations.StepKeepsSameRun : Prop :=
  ∀ s t s' : State, Inv s → Inv t → s.queue = [] → t.queue = [] → SameRun s t → step s = .next s' →
    ∃ t', step t = .next t' ∧ SameRun s' t'

/-- A command's results are a function of the command, IN_LEN, IN[0 .. IN_LEN) and the parameters alone: started on the
same input from any two states outside BUSY, two machines agree after every number of steps in STATUS, in every result
register and, when DONE, in OUT[0 .. OUT_LEN) (44_commands.md R210; 10_state.md R39; 70_reset_and_hazards.md R253). -/
def Obligations.CommandDependsOnlyOnItsInput : Prop :=
  ∀ (i : Instr) (s t : State), (i = .decompressUpdate ∨ i = .decodeStream ∨ i = .decodeChunk ∨ i = .badMode3) →
    Inv s → Inv t → s.queue = [] → t.queue = [] → s.phase.isBusy = false → t.phase.isBusy = false → SameInput s t →
    ∃ s0 t0, exec i s = .next s0 ∧ exec i t = .next t0 ∧
      ∀ k, ∃ s' t', runSteps k s0 = .next s' ∧ runSteps k t0 = .next t' ∧ SameRun s' t' ∧
        t'.statusWord = s'.statusWord

/-- DECODE_CHUNK computes the algorithm of 41_chunk_decoder.md R120: started outside BUSY, its run ends DONE with the
output, CONSUMED and CHUNKS of the reference decoder on IN[0 .. IN_LEN), or with its fault and where it happened
(44_commands.md R205; R121 to R138). -/
def Obligations.DecodeChunkComputesTheReference : Prop :=
  ∀ s : State, Inv s → s.queue = [] → s.phase.isBusy = false → s.inLen.toNat ≤ s.params.inCap →
    ∃ s0 k t, exec .decodeChunk s = .next s0 ∧ runSteps k s0 = .next t ∧ t.phase = .done ∧
      ChunkCommandEnds t (Ref.decodeChunk s.params.padPolicy (s.inBytes 0 s.inLen.toNat))

/-- DECODE_STREAM computes the algorithm of 42_chunk_stream.md R160: its run ends DONE with the firmware, the consumed
count and the outcome of the reference framer on IN[0 .. IN_LEN) (44_commands.md R204; 42_chunk_stream.md R161 to
R168). -/
def Obligations.DecodeStreamComputesTheReference : Prop :=
  ∀ s : State, Inv s → s.queue = [] → s.phase.isBusy = false → s.inLen.toNat ≤ s.params.inCap →
    ∃ s0 k t, exec .decodeStream s = .next s0 ∧ runSteps k s0 = .next t ∧ t.phase = .done ∧
      StreamCommandEnds t 0 s.inLen.toNat Results.zero
        (Ref.decodeStream s.params.padPolicy s.params.outCap (s.inBytes 0 s.inLen.toNat))

/-- DECOMPRESS_UPDATE computes the facade: its run ends DONE with the locator's failure and every result register 0, or
with the section registers and the reference framer's results on the section slice (44_commands.md R201, R202, R203;
43_container_locator.md R180 to R187). -/
def Obligations.DecompressUpdateComputesTheReference : Prop :=
  ∀ s : State, Inv s → s.queue = [] → s.phase.isBusy = false → s.inLen.toNat ≤ s.params.inCap →
    ∃ s0 k t, exec .decompressUpdate s = .next s0 ∧ runSteps k s0 = .next t ∧ t.phase = .done ∧
      (∀ c, Ref.locate (s.inBytes 0 s.inLen.toNat) = .failed c →
        t.success = false ∧ t.fault = false ∧ t.code = c ∧ t.results = Results.zero) ∧
      (∀ start size crc, Ref.locate (s.inBytes 0 s.inLen.toNat) = .found start size crc →
        StreamCommandEnds t start size.toNat
          { Results.zero with secStart := BitVec.ofNat 32 start, secSize := size, secCrc32 := crc }
          (Ref.decodeStream s.params.padPolicy s.params.outCap
            (((s.inBytes 0 s.inLen.toNat).drop start).take size.toNat)))
end

