-- ==== Sys2Proof/Laws/Decode.lean ====
section
/-! SUPPORT. The laws of the integer assembly and of the decoder's answers. -/

namespace Sys2Proof

@[simp] theorem leBytes_length (w : Word) : (leBytes w).length = 4 := rfl

/-- A byte below a word, as a number. -/
theorem toNat_append_byte {n : Nat} (x : BitVec n) (b : Byte) :
    (x ++ b).toNat = x.toNat * 2 ^ 8 + b.toNat := by
  rw [BitVec.toNat_append, Nat.shiftLeft_eq, Nat.mul_comm, ← Nat.two_pow_add_eq_or_of_lt b.isLt]

/-- LE as a number (00_scope.md R10). -/
theorem le32_toNat (b0 b1 b2 b3 : Byte) :
    (le32 b0 b1 b2 b3).toNat = b0.toNat + 2 ^ 8 * b1.toNat + 2 ^ 16 * b2.toNat + 2 ^ 24 * b3.toNat := by
  unfold le32
  rw [toNat_append_byte, toNat_append_byte, toNat_append_byte]
  omega

/-- A little-endian field gives back its word. -/
theorem le32_extract (w : Word) :
    le32 (w.extractLsb' 0 8) (w.extractLsb' 8 8) (w.extractLsb' 16 8) (w.extractLsb' 24 8) = w := by
  apply BitVec.eq_of_toNat_eq
  rw [le32_toNat]
  simp only [BitVec.extractLsb'_toNat, Nat.shiftRight_eq_div_pow]
  have := w.isLt
  omega

namespace Machine

/-- BE as a number (00_scope.md R10). -/
theorem be32_toNat (x0 x1 x2 x3 : Byte) :
    (be32 x0 x1 x2 x3).toNat = 2 ^ 24 * x0.toNat + 2 ^ 16 * x1.toNat + 2 ^ 8 * x2.toNat + x3.toNat := by
  have h := le32_toNat x3 x2 x1 x0
  rw [show be32 x0 x1 x2 x3 = le32 x3 x2 x1 x0 from rfl, h]
  omega

end Machine

end Sys2Proof
end

