-- ==== Sys2Proof/Laws/Ops.lean ====
section
/-! SUPPORT. The laws of the shared operations: the tables by key (read after write, canonical form), the reading of IN
and OUT, the match copy. Provers cite these and do not unfold the operations. -/

namespace Sys2Proof.Machine

/-! ## Tables by key -/

namespace Sparse

variable {α : Type}

@[simp] theorem get_nil (a : Nat) : get ([] : List (Nat × α)) a = none := rfl

theorem get_append (m m' : List (Nat × α)) (a : Nat) : get (m ++ m') a = (get m a).or (get m' a) := by
  induction m with
  | nil => simp [get]
  | cons c m ih =>
    obtain ⟨k, v⟩ := c
    by_cases h : k = a <;> simp [get, h, ih]

theorem get_filter (p : Nat → Bool) (m : List (Nat × α)) (a : Nat) :
    get (m.filter (fun c => p c.1)) a = if p a then get m a else none := by
  induction m with
  | nil => simp [get]
  | cons c m ih =>
    obtain ⟨k, v⟩ := c
    by_cases hk : k = a
    · subst hk
      by_cases hp : p k <;> simp [get, hp, ih]
    · by_cases hp : p k <;> simp [get, hk, hp, ih]

theorem get_run (vs : List α) (base a : Nat) :
    get (run base vs) a = if base ≤ a then vs[a - base]? else none := by
  induction vs generalizing base with
  | nil => simp [run]
  | cons v vs ih =>
    by_cases h : base = a
    · subst h; simp [run, get]
    · simp only [run, get, h, if_false, ih]
      by_cases h1 : base ≤ a
      · have h2 : base + 1 ≤ a := by omega
        have h3 : a - base = (a - (base + 1)) + 1 := by omega
        simp [h1, h2, h3]
      · have h2 : ¬ base + 1 ≤ a := by omega
        simp [h1, h2]

/-- Read after write: the written values at the written keys, everything else as before. -/
theorem get_putRun (m : List (Nat × α)) (base : Nat) (vs : List α) (a : Nat) :
    get (putRun m base vs) a =
      if base ≤ a ∧ a < base + vs.length then vs[a - base]? else get m a := by
  rw [putRun, get_append, get_append, get_run,
    get_filter (fun k => decide (k < base)), get_filter (fun k => decide (base + vs.length ≤ k))]
  by_cases h1 : base ≤ a
  · by_cases h2 : a < base + vs.length
    · have h3 : a - base < vs.length := by omega
      have h4 : ¬ a < base := by omega
      have h5 : ¬ base + vs.length ≤ a := by omega
      simp [h1, h2, h3, h4, h5]
    · have h3 : ¬ a - base < vs.length := by omega
      have h4 : ¬ a < base := by omega
      have h5 : base + vs.length ≤ a := by omega
      have h6 : vs[a - base]? = none := List.getElem?_eq_none (by omega)
      simp [h1, h4, h5, h6]
  · have h4 : a < base := by omega
    have h5 : ¬ base + vs.length ≤ a := by omega
    simp [h1, h4, h5]

theorem get_put (m : List (Nat × α)) (k : Nat) (v : α) (a : Nat) :
    get (put m k v) a = if a = k then some v else get m a := by
  rw [put, get_putRun]
  by_cases h : a = k
  · subst h; simp
  · have h1 : ¬ (k ≤ a ∧ a < k + [v].length) := by simp only [List.length_singleton]; omega
    rw [if_neg h1, if_neg h]

@[simp] theorem get_put_same (m : List (Nat × α)) (k : Nat) (v : α) : get (put m k v) k = some v := by
  simp [get_put]

theorem get_put_other (m : List (Nat × α)) {k a : Nat} (v : α) (h : a ≠ k) : get (put m k v) a = get m a := by
  simp [get_put, h]

theorem mem_run {base : Nat} {vs : List α} {c : Nat × α} (h : c ∈ run base vs) :
    base ≤ c.1 ∧ c.1 < base + vs.length ∧ c.2 ∈ vs := by
  induction vs generalizing base with
  | nil => simp [run] at h
  | cons v vs ih =>
    simp only [run, List.mem_cons] at h
    rcases h with rfl | h
    · simp
    · obtain ⟨h1, h2, h3⟩ := ih h
      simp only [List.length_cons, List.mem_cons]
      exact ⟨by omega, by omega, .inr h3⟩

theorem sorted_run (base : Nat) (vs : List α) : Sorted (run base vs) := by
  induction vs generalizing base with
  | nil => exact List.Pairwise.nil
  | cons v vs ih =>
    refine List.Pairwise.cons ?_ (ih (base + 1))
    intro c hc
    have := (mem_run hc).1
    show base < c.1
    omega

/-- An entry after a write is a written one or one that stood before. -/
theorem mem_putRun {m : List (Nat × α)} {base : Nat} {vs : List α} {c : Nat × α} (h : c ∈ putRun m base vs) :
    c ∈ m ∨ (base ≤ c.1 ∧ c.1 < base + vs.length ∧ c.2 ∈ vs) := by
  simp only [putRun, List.mem_append, List.mem_filter] at h
  rcases h with (h | h) | h
  · exact .inl h.1
  · exact .inr (mem_run h)
  · exact .inl h.1

/-- A write keeps the canonical form. -/
theorem sorted_putRun {m : List (Nat × α)} (base : Nat) (vs : List α) (h : Sorted m) :
    Sorted (putRun m base vs) := by
  unfold putRun
  refine List.pairwise_append.2 ⟨List.pairwise_append.2 ⟨h.filter _, sorted_run _ _, ?_⟩, h.filter _, ?_⟩
  · intro x hx y hy
    have h1 := (List.mem_filter.1 hx).2
    have h2 := (mem_run hy).1
    simp only [decide_eq_true_eq] at h1
    omega
  · intro x hx y hy
    have h2 := (List.mem_filter.1 hy).2
    simp only [decide_eq_true_eq] at h2
    rcases List.mem_append.1 hx with hx | hx
    · have h1 := (List.mem_filter.1 hx).2
      simp only [decide_eq_true_eq] at h1
      omega
    · have h1 := (mem_run hx).2.1
      omega

theorem sorted_put {m : List (Nat × α)} (k : Nat) (v : α) (h : Sorted m) : Sorted (put m k v) :=
  sorted_putRun k [v] h

theorem mem_put {m : List (Nat × α)} {k : Nat} {v : α} {c : Nat × α} (h : c ∈ put m k v) :
    c ∈ m ∨ c = (k, v) := by
  rcases mem_putRun h with h | ⟨h1, h2, h3⟩
  · exact .inl h
  · simp only [List.length_singleton, List.mem_singleton] at h2 h3
    exact .inr (Prod.ext (by show c.1 = k; omega) h3)

/-- What is read is listed. -/
theorem get_mem {m : List (Nat × α)} {a : Nat} {v : α} (h : get m a = some v) : (a, v) ∈ m := by
  induction m with
  | nil => simp [get] at h
  | cons c m ih =>
    obtain ⟨k, w⟩ := c
    by_cases hk : k = a
    · simp [get, hk] at h; simp [hk, h]
    · simp [get, hk] at h; exact List.mem_cons_of_mem _ (ih h)

end Sparse

/-! ## IN and OUT -/

@[simp] theorem inBytes_length (s : State) (a n : Nat) : (s.inBytes a n).length = n := by
  induction n generalizing a with
  | zero => rfl
  | succ n ih => simp [State.inBytes, ih]

theorem inBytes_getElem? (s : State) (a n i : Nat) :
    (s.inBytes a n)[i]? = if i < n then some (s.readIn (a + i)) else none := by
  induction n generalizing a i with
  | zero => simp [State.inBytes]
  | succ n ih =>
    cases i with
    | zero => simp [State.inBytes]
    | succ i =>
      simp only [State.inBytes, List.getElem?_cons_succ, ih, Nat.add_lt_add_iff_right]
      rw [Nat.add_assoc, Nat.add_comm 1 i]

/-- Bytes of IN depend only on the bytes of IN read. -/
theorem inBytes_congr {s t : State} (a n : Nat) (h : ∀ i, a ≤ i → i < a + n → t.readIn i = s.readIn i) :
    t.inBytes a n = s.inBytes a n := by
  induction n generalizing a with
  | zero => rfl
  | succ n ih =>
    rw [State.inBytes, State.inBytes, h a (by omega) (by omega),
      ih (a + 1) (fun i h1 h2 => h i (by omega) (by omega))]

/-- The search reads IN below the end of its last candidate. -/
theorem searchMarker_congr {s t : State} (a n : Nat)
    (h : 0 < n → ∀ i, a ≤ i → i < a + n + 5 → t.readIn i = s.readIn i) : t.searchMarker a n = s.searchMarker a n := by
  induction n generalizing a with
  | zero => rfl
  | succ n ih =>
    rw [State.searchMarker, State.searchMarker,
      inBytes_congr a _ (fun i h1 h2 => h (by omega) i h1 (by simp only [Config.markerLen] at h2; omega)),
      ih (a + 1) (fun _ i h1 h2 => h (by omega) i (by omega) (by omega))]

/-- FindMarker depends only on IN_LEN and the bytes of IN below it. -/
theorem findMarker_congr {s t : State} (start : Nat) (hl : t.inLen = s.inLen)
    (h : ∀ i, i < s.inLen.toNat → t.readIn i = s.readIn i) : t.findMarker start = s.findMarker start := by
  unfold State.findMarker State.preambleLen
  rw [hl]
  exact searchMarker_congr _ _ (fun h0 i _ h2 => h i (by simp only [Config.markerLen, Config.preambleLen] at h0 h2; omega))

/-! ## The match copy (41_chunk_decoder.md R130) -/

@[simp] theorem copyLoop_length (obuf : List Byte) (e k n : Nat) :
    (copyLoop obuf e k n).length = obuf.length + n := by
  induction n generalizing obuf k with
  | zero => rfl
  | succ n ih => simp [copyLoop, ih]; omega

/-- What stood in OBUF before the copy stays. -/
theorem copyLoop_getElem?_old (obuf : List Byte) (e k n i : Nat) (h : i < obuf.length) :
    (copyLoop obuf e k n)[i]? = obuf[i]? := by
  induction n generalizing obuf k with
  | zero => rfl
  | succ n ih =>
    rw [copyLoop, ih _ _ (by simp; omega), List.getElem?_append_left h]

end Sys2Proof.Machine
end

