-- ==== Sys2Proof/Laws/State.lean ====
section
/-! SUPPORT. One lemma per field per shared update of State, so that no proof unfolds a record update. -/

namespace Sys2Proof.Machine

variable (s : State)

/-! ## goto -/

@[simp] theorem State.goto_params (p : Point) : (s.goto p).params = s.params := rfl
@[simp] theorem State.goto_mode (p : Point) : (s.goto p).mode = s.mode := rfl
@[simp] theorem State.goto_inLen (p : Point) : (s.goto p).inLen = s.inLen := rfl
@[simp] theorem State.goto_phase (p : Point) : (s.goto p).phase = .busy p := rfl
@[simp] theorem State.goto_success (p : Point) : (s.goto p).success = s.success := rfl
@[simp] theorem State.goto_fault (p : Point) : (s.goto p).fault = s.fault := rfl
@[simp] theorem State.goto_code (p : Point) : (s.goto p).code = s.code := rfl
@[simp] theorem State.goto_results (p : Point) : (s.goto p).results = s.results := rfl
@[simp] theorem State.goto_dp (p : Point) : (s.goto p).dp = s.dp := rfl
@[simp] theorem State.goto_obuf (p : Point) : (s.goto p).obuf = s.obuf := rfl
@[simp] theorem State.goto_ht (p : Point) : (s.goto p).ht = s.ht := rfl
@[simp] theorem State.goto_inMem (p : Point) : (s.goto p).inMem = s.inMem := rfl
@[simp] theorem State.goto_outMem (p : Point) : (s.goto p).outMem = s.outMem := rfl
@[simp] theorem State.goto_queue (p : Point) : (s.goto p).queue = s.queue := rfl
@[simp] theorem State.goto_bus (p : Point) : (s.goto p).bus = s.bus := rfl
@[simp] theorem State.goto_draws (p : Point) : (s.goto p).draws = s.draws := rfl

/-! ## finish -/

@[simp] theorem State.finish_params (c : Code) : (s.finish c).params = s.params := rfl
@[simp] theorem State.finish_mode (c : Code) : (s.finish c).mode = s.mode := rfl
@[simp] theorem State.finish_inLen (c : Code) : (s.finish c).inLen = s.inLen := rfl
@[simp] theorem State.finish_phase (c : Code) : (s.finish c).phase = .done := rfl
@[simp] theorem State.finish_success (c : Code) : (s.finish c).success = decide (c = .ok) := rfl
@[simp] theorem State.finish_fault (c : Code) : (s.finish c).fault = false := rfl
@[simp] theorem State.finish_code (c : Code) : (s.finish c).code = c := rfl
@[simp] theorem State.finish_results (c : Code) : (s.finish c).results = s.results := rfl
@[simp] theorem State.finish_dp (c : Code) : (s.finish c).dp = s.dp := rfl
@[simp] theorem State.finish_obuf (c : Code) : (s.finish c).obuf = s.obuf := rfl
@[simp] theorem State.finish_ht (c : Code) : (s.finish c).ht = s.ht := rfl
@[simp] theorem State.finish_inMem (c : Code) : (s.finish c).inMem = s.inMem := rfl
@[simp] theorem State.finish_outMem (c : Code) : (s.finish c).outMem = s.outMem := rfl
@[simp] theorem State.finish_queue (c : Code) : (s.finish c).queue = s.queue := rfl
@[simp] theorem State.finish_bus (c : Code) : (s.finish c).bus = s.bus := rfl
@[simp] theorem State.finish_draws (c : Code) : (s.finish c).draws = s.draws := rfl

/-! ## raiseFault -/

@[simp] theorem State.raiseFault_params (c : Code) (i : Option MatchInfo) :
    (s.raiseFault c i).params =
      s.params :=
  rfl
@[simp] theorem State.raiseFault_mode (c : Code) (i : Option MatchInfo) : (s.raiseFault c i).mode = s.mode := rfl
@[simp] theorem State.raiseFault_inLen (c : Code) (i : Option MatchInfo) : (s.raiseFault c i).inLen = s.inLen := rfl
@[simp] theorem State.raiseFault_phase (c : Code) (i : Option MatchInfo) : (s.raiseFault c i).phase = .done := rfl
@[simp] theorem State.raiseFault_success (c : Code) (i : Option MatchInfo) :
    (s.raiseFault c i).success =
      false :=
  rfl
@[simp] theorem State.raiseFault_fault (c : Code) (i : Option MatchInfo) : (s.raiseFault c i).fault = true := rfl
@[simp] theorem State.raiseFault_code (c : Code) (i : Option MatchInfo) : (s.raiseFault c i).code = c := rfl
@[simp] theorem State.raiseFault_results (c : Code) (i : Option MatchInfo) :
    (s.raiseFault c i).results =
      s.faultResults c i :=
  rfl
@[simp] theorem State.raiseFault_dp (c : Code) (i : Option MatchInfo) : (s.raiseFault c i).dp = s.dp := rfl
@[simp] theorem State.raiseFault_obuf (c : Code) (i : Option MatchInfo) : (s.raiseFault c i).obuf = s.obuf := rfl
@[simp] theorem State.raiseFault_ht (c : Code) (i : Option MatchInfo) : (s.raiseFault c i).ht = s.ht := rfl
@[simp] theorem State.raiseFault_inMem (c : Code) (i : Option MatchInfo) : (s.raiseFault c i).inMem = s.inMem := rfl
@[simp] theorem State.raiseFault_outMem (c : Code) (i : Option MatchInfo) :
    (s.raiseFault c i).outMem =
      s.outMem :=
  rfl
@[simp] theorem State.raiseFault_queue (c : Code) (i : Option MatchInfo) : (s.raiseFault c i).queue = s.queue := rfl
@[simp] theorem State.raiseFault_bus (c : Code) (i : Option MatchInfo) : (s.raiseFault c i).bus = s.bus := rfl
@[simp] theorem State.raiseFault_draws (c : Code) (i : Option MatchInfo) : (s.raiseFault c i).draws = s.draws := rfl

/-! ## clearForStart -/

@[simp] theorem State.clearForStart_params (m : BitVec 2) (p : Point) :
    (s.clearForStart m p).params =
      s.params :=
  rfl
@[simp] theorem State.clearForStart_mode (m : BitVec 2) (p : Point) : (s.clearForStart m p).mode = m := rfl
@[simp] theorem State.clearForStart_inLen (m : BitVec 2) (p : Point) : (s.clearForStart m p).inLen = s.inLen := rfl
@[simp] theorem State.clearForStart_phase (m : BitVec 2) (p : Point) : (s.clearForStart m p).phase = .busy p := rfl
@[simp] theorem State.clearForStart_success (m : BitVec 2) (p : Point) : (s.clearForStart m p).success = false := rfl
@[simp] theorem State.clearForStart_fault (m : BitVec 2) (p : Point) : (s.clearForStart m p).fault = false := rfl
@[simp] theorem State.clearForStart_code (m : BitVec 2) (p : Point) : (s.clearForStart m p).code = .ok := rfl
@[simp] theorem State.clearForStart_results (m : BitVec 2) (p : Point) :
    (s.clearForStart m p).results =
      Results.zero :=
  rfl
@[simp] theorem State.clearForStart_dp (m : BitVec 2) (p : Point) :
    (s.clearForStart m p).dp =
      { s.dp with modeL := m } :=
  rfl
@[simp] theorem State.clearForStart_obuf (m : BitVec 2) (p : Point) : (s.clearForStart m p).obuf = s.obuf := rfl
@[simp] theorem State.clearForStart_ht (m : BitVec 2) (p : Point) : (s.clearForStart m p).ht = s.ht := rfl
@[simp] theorem State.clearForStart_inMem (m : BitVec 2) (p : Point) : (s.clearForStart m p).inMem = s.inMem := rfl
@[simp] theorem State.clearForStart_outMem (m : BitVec 2) (p : Point) :
    (s.clearForStart m p).outMem =
      s.outMem :=
  rfl
@[simp] theorem State.clearForStart_queue (m : BitVec 2) (p : Point) : (s.clearForStart m p).queue = s.queue := rfl
@[simp] theorem State.clearForStart_bus (m : BitVec 2) (p : Point) : (s.clearForStart m p).bus = s.bus := rfl
@[simp] theorem State.clearForStart_draws (m : BitVec 2) (p : Point) : (s.clearForStart m p).draws = s.draws := rfl

/-! ## resetEngine -/

@[simp] theorem State.resetEngine_params : (s.resetEngine).params = s.params := rfl
@[simp] theorem State.resetEngine_mode : (s.resetEngine).mode = 0#2 := rfl
@[simp] theorem State.resetEngine_inLen : (s.resetEngine).inLen = 0#32 := rfl
@[simp] theorem State.resetEngine_phase : (s.resetEngine).phase = .idle := rfl
@[simp] theorem State.resetEngine_success : (s.resetEngine).success = false := rfl
@[simp] theorem State.resetEngine_fault : (s.resetEngine).fault = false := rfl
@[simp] theorem State.resetEngine_code : (s.resetEngine).code = .ok := rfl
@[simp] theorem State.resetEngine_results : (s.resetEngine).results = Results.zero := rfl
@[simp] theorem State.resetEngine_dp : (s.resetEngine).dp = Datapath.zero := rfl
@[simp] theorem State.resetEngine_obuf : (s.resetEngine).obuf = [] := rfl
@[simp] theorem State.resetEngine_ht : (s.resetEngine).ht = [] := rfl
@[simp] theorem State.resetEngine_inMem : (s.resetEngine).inMem = s.inMem := rfl
@[simp] theorem State.resetEngine_outMem : (s.resetEngine).outMem = s.outMem := rfl
@[simp] theorem State.resetEngine_queue : (s.resetEngine).queue = s.queue := rfl
@[simp] theorem State.resetEngine_bus : (s.resetEngine).bus = s.bus := rfl
@[simp] theorem State.resetEngine_draws : (s.resetEngine).draws = s.draws := rfl

/-! ## beginStream -/

@[simp] theorem State.beginStream_params (sb sl : Nat) : (s.beginStream sb sl).params = s.params := rfl
@[simp] theorem State.beginStream_mode (sb sl : Nat) : (s.beginStream sb sl).mode = s.mode := rfl
@[simp] theorem State.beginStream_inLen (sb sl : Nat) : (s.beginStream sb sl).inLen = s.inLen := rfl
@[simp] theorem State.beginStream_phase (sb sl : Nat) : (s.beginStream sb sl).phase = .busy .chunkHdr := rfl
@[simp] theorem State.beginStream_success (sb sl : Nat) : (s.beginStream sb sl).success = s.success := rfl
@[simp] theorem State.beginStream_fault (sb sl : Nat) : (s.beginStream sb sl).fault = s.fault := rfl
@[simp] theorem State.beginStream_code (sb sl : Nat) : (s.beginStream sb sl).code = s.code := rfl
@[simp] theorem State.beginStream_results (sb sl : Nat) : (s.beginStream sb sl).results = s.results := rfl
@[simp] theorem State.beginStream_dp (sb sl : Nat) :
    (s.beginStream sb sl).dp =
      { s.dp with sb := sb, sl := sl, sp := 0, nch := 0, fwlen := 0 } :=
  rfl
@[simp] theorem State.beginStream_obuf (sb sl : Nat) : (s.beginStream sb sl).obuf = s.obuf := rfl
@[simp] theorem State.beginStream_ht (sb sl : Nat) : (s.beginStream sb sl).ht = s.ht := rfl
@[simp] theorem State.beginStream_inMem (sb sl : Nat) : (s.beginStream sb sl).inMem = s.inMem := rfl
@[simp] theorem State.beginStream_outMem (sb sl : Nat) : (s.beginStream sb sl).outMem = s.outMem := rfl
@[simp] theorem State.beginStream_queue (sb sl : Nat) : (s.beginStream sb sl).queue = s.queue := rfl
@[simp] theorem State.beginStream_bus (sb sl : Nat) : (s.beginStream sb sl).bus = s.bus := rfl
@[simp] theorem State.beginStream_draws (sb sl : Nat) : (s.beginStream sb sl).draws = s.draws := rfl

/-! ## beginChunk -/

@[simp] theorem State.beginChunk_params (pb n : Nat) : (s.beginChunk pb n).params = s.params := rfl
@[simp] theorem State.beginChunk_mode (pb n : Nat) : (s.beginChunk pb n).mode = s.mode := rfl
@[simp] theorem State.beginChunk_inLen (pb n : Nat) : (s.beginChunk pb n).inLen = s.inLen := rfl
@[simp] theorem State.beginChunk_phase (pb n : Nat) : (s.beginChunk pb n).phase = .busy .initCtx := rfl
@[simp] theorem State.beginChunk_success (pb n : Nat) : (s.beginChunk pb n).success = s.success := rfl
@[simp] theorem State.beginChunk_fault (pb n : Nat) : (s.beginChunk pb n).fault = s.fault := rfl
@[simp] theorem State.beginChunk_code (pb n : Nat) : (s.beginChunk pb n).code = s.code := rfl
@[simp] theorem State.beginChunk_results (pb n : Nat) : (s.beginChunk pb n).results = s.results := rfl
@[simp] theorem State.beginChunk_dp (pb n : Nat) : (s.beginChunk pb n).dp = { s.dp with pb := pb, n := n } := rfl
@[simp] theorem State.beginChunk_obuf (pb n : Nat) : (s.beginChunk pb n).obuf = s.obuf := rfl
@[simp] theorem State.beginChunk_ht (pb n : Nat) : (s.beginChunk pb n).ht = s.ht := rfl
@[simp] theorem State.beginChunk_inMem (pb n : Nat) : (s.beginChunk pb n).inMem = s.inMem := rfl
@[simp] theorem State.beginChunk_outMem (pb n : Nat) : (s.beginChunk pb n).outMem = s.outMem := rfl
@[simp] theorem State.beginChunk_queue (pb n : Nat) : (s.beginChunk pb n).queue = s.queue := rfl
@[simp] theorem State.beginChunk_bus (pb n : Nat) : (s.beginChunk pb n).bus = s.bus := rfl
@[simp] theorem State.beginChunk_draws (pb n : Nat) : (s.beginChunk pb n).draws = s.draws := rfl

/-! ## htClear -/

@[simp] theorem State.htClear_params : (s.htClear).params = s.params := rfl
@[simp] theorem State.htClear_mode : (s.htClear).mode = s.mode := rfl
@[simp] theorem State.htClear_inLen : (s.htClear).inLen = s.inLen := rfl
@[simp] theorem State.htClear_phase : (s.htClear).phase = s.phase := rfl
@[simp] theorem State.htClear_success : (s.htClear).success = s.success := rfl
@[simp] theorem State.htClear_fault : (s.htClear).fault = s.fault := rfl
@[simp] theorem State.htClear_code : (s.htClear).code = s.code := rfl
@[simp] theorem State.htClear_results : (s.htClear).results = s.results := rfl
@[simp] theorem State.htClear_dp : (s.htClear).dp = s.dp := rfl
@[simp] theorem State.htClear_obuf : (s.htClear).obuf = s.obuf := rfl
@[simp] theorem State.htClear_ht : (s.htClear).ht = [] := rfl
@[simp] theorem State.htClear_inMem : (s.htClear).inMem = s.inMem := rfl
@[simp] theorem State.htClear_outMem : (s.htClear).outMem = s.outMem := rfl
@[simp] theorem State.htClear_queue : (s.htClear).queue = s.queue := rfl
@[simp] theorem State.htClear_bus : (s.htClear).bus = s.bus := rfl
@[simp] theorem State.htClear_draws : (s.htClear).draws = s.draws := rfl

/-! ## htInsert -/

@[simp] theorem State.htInsert_params (h : BitVec 16) (pos : Nat) : (s.htInsert h pos).params = s.params := rfl
@[simp] theorem State.htInsert_mode (h : BitVec 16) (pos : Nat) : (s.htInsert h pos).mode = s.mode := rfl
@[simp] theorem State.htInsert_inLen (h : BitVec 16) (pos : Nat) : (s.htInsert h pos).inLen = s.inLen := rfl
@[simp] theorem State.htInsert_phase (h : BitVec 16) (pos : Nat) : (s.htInsert h pos).phase = s.phase := rfl
@[simp] theorem State.htInsert_success (h : BitVec 16) (pos : Nat) : (s.htInsert h pos).success = s.success := rfl
@[simp] theorem State.htInsert_fault (h : BitVec 16) (pos : Nat) : (s.htInsert h pos).fault = s.fault := rfl
@[simp] theorem State.htInsert_code (h : BitVec 16) (pos : Nat) : (s.htInsert h pos).code = s.code := rfl
@[simp] theorem State.htInsert_results (h : BitVec 16) (pos : Nat) : (s.htInsert h pos).results = s.results := rfl
@[simp] theorem State.htInsert_dp (h : BitVec 16) (pos : Nat) : (s.htInsert h pos).dp = s.dp := rfl
@[simp] theorem State.htInsert_obuf (h : BitVec 16) (pos : Nat) : (s.htInsert h pos).obuf = s.obuf := rfl
@[simp] theorem State.htInsert_ht (h : BitVec 16) (pos : Nat) :
    (s.htInsert h pos).ht =
      Sparse.put s.ht h.toNat pos :=
  rfl
@[simp] theorem State.htInsert_inMem (h : BitVec 16) (pos : Nat) : (s.htInsert h pos).inMem = s.inMem := rfl
@[simp] theorem State.htInsert_outMem (h : BitVec 16) (pos : Nat) : (s.htInsert h pos).outMem = s.outMem := rfl
@[simp] theorem State.htInsert_queue (h : BitVec 16) (pos : Nat) : (s.htInsert h pos).queue = s.queue := rfl
@[simp] theorem State.htInsert_bus (h : BitVec 16) (pos : Nat) : (s.htInsert h pos).bus = s.bus := rfl
@[simp] theorem State.htInsert_draws (h : BitVec 16) (pos : Nat) : (s.htInsert h pos).draws = s.draws := rfl

/-! ## append -/

@[simp] theorem State.append_params (b : Byte) : (s.append b).params = s.params := rfl
@[simp] theorem State.append_mode (b : Byte) : (s.append b).mode = s.mode := rfl
@[simp] theorem State.append_inLen (b : Byte) : (s.append b).inLen = s.inLen := rfl
@[simp] theorem State.append_phase (b : Byte) : (s.append b).phase = s.phase := rfl
@[simp] theorem State.append_success (b : Byte) : (s.append b).success = s.success := rfl
@[simp] theorem State.append_fault (b : Byte) : (s.append b).fault = s.fault := rfl
@[simp] theorem State.append_code (b : Byte) : (s.append b).code = s.code := rfl
@[simp] theorem State.append_results (b : Byte) : (s.append b).results = s.results := rfl
@[simp] theorem State.append_dp (b : Byte) : (s.append b).dp = s.dp := rfl
@[simp] theorem State.append_obuf (b : Byte) : (s.append b).obuf = s.obuf ++ [b] := rfl
@[simp] theorem State.append_ht (b : Byte) : (s.append b).ht = s.ht := rfl
@[simp] theorem State.append_inMem (b : Byte) : (s.append b).inMem = s.inMem := rfl
@[simp] theorem State.append_outMem (b : Byte) : (s.append b).outMem = s.outMem := rfl
@[simp] theorem State.append_queue (b : Byte) : (s.append b).queue = s.queue := rfl
@[simp] theorem State.append_bus (b : Byte) : (s.append b).bus = s.bus := rfl
@[simp] theorem State.append_draws (b : Byte) : (s.append b).draws = s.draws := rfl

/-! ## beginStep -/

@[simp] theorem State.beginStep_params (cur : Byte) (bit exh : Bool) :
    (s.beginStep cur bit exh).params =
      s.params :=
  rfl
@[simp] theorem State.beginStep_mode (cur : Byte) (bit exh : Bool) : (s.beginStep cur bit exh).mode = s.mode := rfl
@[simp] theorem State.beginStep_inLen (cur : Byte) (bit exh : Bool) :
    (s.beginStep cur bit exh).inLen =
      s.inLen :=
  rfl
@[simp] theorem State.beginStep_phase (cur : Byte) (bit exh : Bool) :
    (s.beginStep cur bit exh).phase =
      s.phase :=
  rfl
@[simp] theorem State.beginStep_success (cur : Byte) (bit exh : Bool) :
    (s.beginStep cur bit exh).success =
      s.success :=
  rfl
@[simp] theorem State.beginStep_fault (cur : Byte) (bit exh : Bool) :
    (s.beginStep cur bit exh).fault =
      s.fault :=
  rfl
@[simp] theorem State.beginStep_code (cur : Byte) (bit exh : Bool) : (s.beginStep cur bit exh).code = s.code := rfl
@[simp] theorem State.beginStep_results (cur : Byte) (bit exh : Bool) :
    (s.beginStep cur bit exh).results =
      s.results :=
  rfl
@[simp] theorem State.beginStep_dp (cur : Byte) (bit exh : Bool) :
    (s.beginStep cur bit exh).dp =
      { s.dp with cur := cur, bit := bit, exh := exh, ip := if exh then s.dp.ip else s.dp.ip + 1, pre := s.olen, hash := hashOf (contextOf s.obuf) } :=
  rfl
@[simp] theorem State.beginStep_obuf (cur : Byte) (bit exh : Bool) : (s.beginStep cur bit exh).obuf = s.obuf := rfl
@[simp] theorem State.beginStep_ht (cur : Byte) (bit exh : Bool) : (s.beginStep cur bit exh).ht = s.ht := rfl
@[simp] theorem State.beginStep_inMem (cur : Byte) (bit exh : Bool) :
    (s.beginStep cur bit exh).inMem =
      s.inMem :=
  rfl
@[simp] theorem State.beginStep_outMem (cur : Byte) (bit exh : Bool) :
    (s.beginStep cur bit exh).outMem =
      s.outMem :=
  rfl
@[simp] theorem State.beginStep_queue (cur : Byte) (bit exh : Bool) :
    (s.beginStep cur bit exh).queue =
      s.queue :=
  rfl
@[simp] theorem State.beginStep_bus (cur : Byte) (bit exh : Bool) : (s.beginStep cur bit exh).bus = s.bus := rfl
@[simp] theorem State.beginStep_draws (cur : Byte) (bit exh : Bool) :
    (s.beginStep cur bit exh).draws =
      s.draws :=
  rfl

/-! ## The next step of a group -/

@[simp] theorem State.nextBit_params : s.nextBit.params = s.params := by
  unfold State.nextBit; split_ifs <;> rfl
@[simp] theorem State.nextBit_mode : s.nextBit.mode = s.mode := by
  unfold State.nextBit; split_ifs <;> rfl
@[simp] theorem State.nextBit_inLen : s.nextBit.inLen = s.inLen := by
  unfold State.nextBit; split_ifs <;> rfl
@[simp] theorem State.nextBit_success : s.nextBit.success = s.success := by
  unfold State.nextBit; split_ifs <;> rfl
@[simp] theorem State.nextBit_fault : s.nextBit.fault = s.fault := by
  unfold State.nextBit; split_ifs <;> rfl
@[simp] theorem State.nextBit_code : s.nextBit.code = s.code := by
  unfold State.nextBit; split_ifs <;> rfl
@[simp] theorem State.nextBit_results : s.nextBit.results = s.results := by
  unfold State.nextBit; split_ifs <;> rfl
@[simp] theorem State.nextBit_obuf : s.nextBit.obuf = s.obuf := by
  unfold State.nextBit; split_ifs <;> rfl
@[simp] theorem State.nextBit_ht : s.nextBit.ht = s.ht := by
  unfold State.nextBit; split_ifs <;> rfl
@[simp] theorem State.nextBit_inMem : s.nextBit.inMem = s.inMem := by
  unfold State.nextBit; split_ifs <;> rfl
@[simp] theorem State.nextBit_outMem : s.nextBit.outMem = s.outMem := by
  unfold State.nextBit; split_ifs <;> rfl
@[simp] theorem State.nextBit_queue : s.nextBit.queue = s.queue := by
  unfold State.nextBit; split_ifs <;> rfl
@[simp] theorem State.nextBit_bus : s.nextBit.bus = s.bus := by
  unfold State.nextBit; split_ifs <;> rfl
@[simp] theorem State.nextBit_draws : s.nextBit.draws = s.draws := by
  unfold State.nextBit; split_ifs <;> rfl

/-- The step after the next bit: only BI can differ in the datapath. -/
theorem State.nextBit_dp :
    s.nextBit.dp =
      if (s.dp.exh = true ∧ s.params.padPolicy = .padOnce) ∨ s.dp.bi = 0 then s.dp
      else { s.dp with bi := s.dp.bi - 1 } := by
  unfold State.nextBit
  by_cases h1 : s.dp.exh = true ∧ s.params.padPolicy = .padOnce
  · rw [if_pos h1, if_pos (.inl h1)]; rfl
  · rw [if_neg h1]
    by_cases h2 : s.dp.bi = 0
    · rw [if_pos h2, if_pos (.inr h2)]; rfl
    · rw [if_neg h2, if_neg (by tauto)]

/-- The point after a step: the end of the chunk after the first pad of PAD_ONCE, the loop test after the step of bit
0, the next step otherwise. -/
theorem State.nextBit_phase :
    s.nextBit.phase =
      if s.dp.exh = true ∧ s.params.padPolicy = .padOnce then .busy .chunkEnd
      else if s.dp.bi = 0 then .busy .mask
      else .busy .token := by
  unfold State.nextBit; split_ifs <;> rfl

/-! ## The end of a step -/

@[simp] theorem State.endStep_params : s.endStep.params = s.params := by simp [State.endStep]
@[simp] theorem State.endStep_mode : s.endStep.mode = s.mode := by simp [State.endStep]
@[simp] theorem State.endStep_inLen : s.endStep.inLen = s.inLen := by simp [State.endStep]
@[simp] theorem State.endStep_success : s.endStep.success = s.success := by simp [State.endStep]
@[simp] theorem State.endStep_fault : s.endStep.fault = s.fault := by simp [State.endStep]
@[simp] theorem State.endStep_code : s.endStep.code = s.code := by simp [State.endStep]
@[simp] theorem State.endStep_results : s.endStep.results = s.results := by simp [State.endStep]
@[simp] theorem State.endStep_obuf : s.endStep.obuf = s.obuf := by simp [State.endStep]
@[simp] theorem State.endStep_inMem : s.endStep.inMem = s.inMem := by simp [State.endStep]
@[simp] theorem State.endStep_outMem : s.endStep.outMem = s.outMem := by simp [State.endStep]
@[simp] theorem State.endStep_queue : s.endStep.queue = s.queue := by simp [State.endStep]
@[simp] theorem State.endStep_bus : s.endStep.bus = s.bus := by simp [State.endStep]
@[simp] theorem State.endStep_draws : s.endStep.draws = s.draws := by simp [State.endStep]
@[simp] theorem State.endStep_ht : s.endStep.ht = Sparse.put s.ht s.dp.hash.toNat s.dp.pre := by
  simp [State.endStep]

theorem State.endStep_dp :
    s.endStep.dp =
      if (s.dp.exh = true ∧ s.params.padPolicy = .padOnce) ∨ s.dp.bi = 0 then s.dp
      else { s.dp with bi := s.dp.bi - 1 } := by
  rw [State.endStep, State.nextBit_dp]; rfl

theorem State.endStep_phase :
    s.endStep.phase =
      if s.dp.exh = true ∧ s.params.padPolicy = .padOnce then .busy .chunkEnd
      else if s.dp.bi = 0 then .busy .mask
      else .busy .token := by
  rw [State.endStep, State.nextBit_phase]; rfl

/-! ## HT (40_hash_index.md R103 to R105) -/

@[simp] theorem htLookup_htClear (h : BitVec 16) : s.htClear.htLookup h = none := rfl

/-- A lookup after an insert: the inserted position at its hash, the entry that stood there elsewhere. -/
theorem htLookup_htInsert (h g : BitVec 16) (pos : Nat) :
    (s.htInsert h pos).htLookup g = if g = h then some pos else s.htLookup g := by
  show Sparse.get (Sparse.put s.ht h.toNat pos) g.toNat = _
  rw [Sparse.get_put]
  by_cases hg : g = h
  · subst hg; simp
  · rw [if_neg hg, if_neg (fun hn => hg (BitVec.eq_of_toNat_eq hn))]
    rfl

/-! ## The memories of reset are in canonical form -/

theorem resetWith_memories_wf (p : Params) :
    Memory.wf (State.resetWith p).inMem ∧ Memory.wf (State.resetWith p).outMem ∧
      Sparse.Sorted (State.resetWith p).ht :=
  ⟨List.Pairwise.nil, List.Pairwise.nil, List.Pairwise.nil⟩

/-! ## The phase -/

@[simp] theorem Phase.isBusy_busy (p : Point) : (Phase.busy p).isBusy = true := rfl
@[simp] theorem Phase.isBusy_idle : Phase.idle.isBusy = false := rfl
@[simp] theorem Phase.isBusy_done : Phase.done.isBusy = false := rfl
@[simp] theorem Phase.isDone_busy (p : Point) : (Phase.busy p).isDone = false := rfl
@[simp] theorem Phase.isDone_idle : Phase.idle.isDone = false := rfl
@[simp] theorem Phase.isDone_done : Phase.done.isDone = true := rfl

/-- BUSY and DONE are never both 1 (10_state.md R21). -/
theorem Phase.isBusy_isDone (p : Phase) : (p.isBusy && p.isDone) = false := by
  cases p <;> rfl

theorem Phase.isBusy_iff (p : Phase) : p.isBusy = true ↔ ∃ q, p = .busy q := by
  cases p <;> simp

end Sys2Proof.Machine
end

