-- ==== Sys2Proof/Laws/Moves.lean ====
section
/-! SUPPORT. One lemma per shared operation that says everything it can do: the acceptance of a command, the searches,
the ends of a step, of a chunk and of a stream, the match. Provers cite these and do not unfold the operations. -/

namespace Sys2Proof.Machine

variable {s : State}

/-- START: ignored, refused by BAD_COMMAND, or accepted (44_commands.md R200, R206, R208). -/
theorem start_cases (m : BitVec 2) (p : Point) (f : State → State) :
    (s.phase.isBusy = true ∧ s.start m p f = s) ∨
    (s.phase.isBusy = false ∧ (m = 3#2 ∨ s.params.inCap < s.inLen.toNat) ∧
      s.start m p f = (s.clearForStart m p).raiseFault .badCommand none) ∨
    (s.phase.isBusy = false ∧ m ≠ 3#2 ∧ s.inLen.toNat ≤ s.params.inCap ∧ s.start m p f = f (s.clearForStart m p)) := by
  unfold State.start
  cases hb : s.phase.isBusy with
  | true => exact .inl ⟨rfl, by simp⟩
  | false =>
    by_cases hc : m = 3#2 ∨ s.params.inCap < s.inLen.toNat
    · exact .inr (.inl ⟨rfl, hc, by simp [hc]⟩)
    · refine .inr (.inr ⟨rfl, fun h => hc (.inl h), Nat.not_lt.1 fun h => hc (.inr h), by simp [hc]⟩)

/-- What a search finds lies at or after its start, inside its candidates. -/
theorem searchMarker_bound {a n b : Nat} (h : s.searchMarker a n = some b) : a ≤ b ∧ b < a + n := by
  induction n generalizing a with
  | zero => simp [State.searchMarker] at h
  | succ n ih =>
    rw [State.searchMarker] at h
    split_ifs at h with hm
    · injection h with h; omega
    · have := ih h; omega

/-- What FindMarker gives lies at or after the start, whole in the preamble (43_container_locator.md R180). -/
theorem findMarker_bound {a b : Nat} (h : s.findMarker a = some b) : a ≤ b ∧ b + 6 ≤ s.preambleLen := by
  have := searchMarker_bound h
  simp only [Config.markerLen] at this
  omega

theorem preambleLen_le (s : State) : s.preambleLen ≤ 0x90 ∧ s.preambleLen ≤ s.inLen.toNat := by
  simp only [State.preambleLen, Config.preambleLen]; omega

/-- The first search ends in two failures or goes on (43_container_locator.md R182, R183). -/
theorem firstMarker_cases :
    (s.findMarker 0 = none ∧ s.firstMarker = s.finish .marker1NotFound) ∨
    (∃ a, s.findMarker 0 = some a ∧ a < 8 ∧ s.firstMarker = s.finish .headerRange) ∨
    (∃ a, s.findMarker 0 = some a ∧ 8 ≤ a ∧
      s.firstMarker = { s with phase := .busy .secHdr, dp := { s.dp with m1 := a } }) := by
  unfold State.firstMarker
  cases hf : s.findMarker 0 with
  | none => exact .inl ⟨rfl, rfl⟩
  | some a =>
    by_cases h8 : a < Config.hdrBack
    · exact .inr (.inl ⟨a, rfl, h8, by simp only [if_pos h8]⟩)
    · exact .inr (.inr ⟨a, rfl, Nat.not_lt.1 h8, by simp only [if_neg h8]⟩)

/-- The second search ends in a failure or begins the section (43_container_locator.md R185 to R187). -/
theorem secondMarker_cases :
    (s.findMarker (s.dp.m1 + 9) = none ∧ s.secondMarker = s.finish .marker2NotFound) ∨
    (∃ a, s.findMarker (s.dp.m1 + 9) = some a ∧ s.secondMarker = s.beginSection a) := by
  unfold State.secondMarker
  simp only [Config.search2Skip]
  cases hf : s.findMarker (s.dp.m1 + 9) with
  | none => exact .inl ⟨rfl, rfl⟩
  | some a => exact .inr ⟨a, rfl, rfl⟩

/-- The state whose result registers tell the stream's end. -/
def State.streamResults (s : State) : State :=
  { s with
    results := { s.results with
      consumed := BitVec.ofNat 32 s.dp.sp
      outLen := BitVec.ofNat 32 s.dp.fwlen
      chunks := BitVec.ofNat 32 s.dp.nch } }

/-- The three outcomes of a stream (44_commands.md R203). -/
theorem endStream_cases (b : Bool) :
    (s.dp.sp = s.declaredSize ∧ s.endStream b = s.streamResults.finish .ok) ∨
    (s.dp.sp ≠ s.declaredSize ∧ b = true ∧ s.endStream b = s.streamResults.finish .truncatedChunk) ∨
    (s.dp.sp ≠ s.declaredSize ∧ b = false ∧ s.endStream b = s.streamResults.finish .incompleteConsumption) := by
  unfold State.endStream
  by_cases hd : s.dp.sp = s.declaredSize
  · exact .inl ⟨hd, by simp only [if_pos hd]; rfl⟩
  · cases b with
    | true => exact .inr (.inl ⟨hd, rfl, by simp only [if_neg hd, if_true]; rfl⟩)
    | false => exact .inr (.inr ⟨hd, rfl, by simp only [if_neg hd]; rfl⟩)

theorem chunkBytes_length : s.chunkBytes.length = min s.olen 0x10000 := by
  simp only [State.chunkBytes, State.olen, List.length_take, Config.chunkCap]; omega

/-- The result of a chunk goes to DECODE_CHUNK, to OUT, or into an overflow (42_chunk_stream.md R165; 44_commands.md
R205). -/
theorem endChunk_cases :
    (s.dp.modeL = 2#2 ∧ s.endChunk = s.endChunkCmd) ∨
    (s.dp.modeL ≠ 2#2 ∧ s.params.outCap < s.dp.fwlen + min s.olen 0x10000 ∧
      s.endChunk = s.raiseFault .outputOverflow none) ∨
    (s.dp.modeL ≠ 2#2 ∧ s.dp.fwlen + min s.olen 0x10000 ≤ s.params.outCap ∧
      s.endChunk = { s with
        phase := .busy .chunkHdr
        outMem := Sparse.putRun s.outMem s.dp.fwlen s.chunkBytes
        dp := { s.dp with
          fwlen := s.dp.fwlen + min s.olen 0x10000
          nch := s.dp.nch + 1
          sp := s.dp.sp + 4 + s.dp.cs } }) := by
  unfold State.endChunk
  by_cases hm : s.dp.modeL = 2#2
  · exact .inl ⟨hm, by rw [if_pos hm]⟩
  · rw [if_neg hm, State.appendChunk, chunkBytes_length]
    by_cases ho : s.params.outCap < s.dp.fwlen + min s.olen 0x10000
    · exact .inr (.inl ⟨hm, ho, by rw [if_pos ho]⟩)
    · exact .inr (.inr ⟨hm, Nat.not_lt.1 ho, by rw [if_neg ho]⟩)

/-- A lookup after a step's epilogue. -/
theorem htLookup_endStep (h : BitVec 16) :
    s.endStep.htLookup h = if h = s.dp.hash then some s.dp.pre else s.htLookup h := by
  have e : s.endStep.htLookup h = (s.htInsert s.dp.hash s.dp.pre).htLookup h := by
    simp [State.htLookup, State.htInsert]
  rw [e, htLookup_htInsert]

/-- The epilogue changes nothing of the datapath but BI. -/
theorem endStep_dp_bi : ∃ b, s.endStep.dp = { s.dp with bi := b } := by
  rw [State.endStep_dp]
  split_ifs
  · exact ⟨s.dp.bi, rfl⟩
  · exact ⟨_, rfl⟩

/-- MATCH: the two faults, or the copy and the insert (41_chunk_decoder.md R129 to R134). -/
theorem execMatchLen_cases (l : Byte) :
    (s.htLookup (hashOf (contextOf s.obuf)) = none ∧
      execMatchLen l s =
        .next (State.raiseFault
          { s.beginStep l true false with dp := { (s.beginStep l true false).dp with e := none } } .unknownContext
          (some ⟨s.olen, hashOf (contextOf s.obuf), l, s.dp.pb + s.dp.ip⟩))) ∨
    (∃ e, s.htLookup (hashOf (contextOf s.obuf)) = some e ∧ 1 ≤ l.toNat ∧ s.olen ≤ e ∧
      execMatchLen l s =
        .next (State.raiseFault
          { s.beginStep l true false with dp := { (s.beginStep l true false).dp with e := some e } } .selfReference
          (some ⟨s.olen, hashOf (contextOf s.obuf), l, s.dp.pb + s.dp.ip⟩))) ∨
    (∃ e, s.htLookup (hashOf (contextOf s.obuf)) = some e ∧ (e < s.olen ∨ l.toNat = 0) ∧
      execMatchLen l s =
        .next (State.endStep
          { s.beginStep l true false with
            obuf := copyLoop s.obuf e 0 l.toNat
            dp := { (s.beginStep l true false).dp with e := some e, k := l.toNat } })) := by
  have hl : (s.beginStep l true false).htLookup (s.beginStep l true false).dp.hash =
      s.htLookup (hashOf (contextOf s.obuf)) := rfl
  unfold execMatchLen
  simp only [hl]
  cases hf : s.htLookup (hashOf (contextOf s.obuf)) with
  | none => exact .inl ⟨rfl, rfl⟩
  | some e =>
    have hp : (s.beginStep l true false).dp.pre = s.olen := rfl
    by_cases hc : 1 ≤ l.toNat ∧ s.olen ≤ e
    · refine .inr (.inl ⟨e, rfl, hc.1, hc.2, ?_⟩)
      simp only [hp, if_pos hc]; rfl
    · refine .inr (.inr ⟨e, rfl, by omega, ?_⟩)
      simp only [hp, if_neg hc]; rfl

/-- The bytes a copy appends are those it reads: the k-th is the byte of the output at its entry plus k
(41_chunk_decoder.md R130). -/
theorem copyLoop_getElem?_new (e n : Nat) :
    ∀ (ob : List Byte) (k0 k : Nat), e + k0 < ob.length → k < n →
      (copyLoop ob e k0 n)[ob.length + k]? = (copyLoop ob e k0 n)[e + k0 + k]? := by
  induction n with
  | zero => intro _ _ _ _ h; omega
  | succ n ih =>
    intro ob k0 k he hk
    rw [copyLoop]
    cases k with
    | zero =>
      rw [copyLoop_getElem?_old _ _ _ _ _ (by simp), copyLoop_getElem?_old _ _ _ _ _ (by simp; omega)]
      simp [List.getElem?_append_left he, obufAt, List.getElem?_eq_getElem he]
    | succ k =>
      have h1 := ih (ob ++ [obufAt ob (e + k0)]) (k0 + 1) k (by simp; omega) (by omega)
      have h2 : ob.length + (k + 1) = (ob ++ [obufAt ob (e + k0)]).length + k := by simp; omega
      rw [h2, h1]
      congr 1; omega

end Sys2Proof.Machine
end

