-- ==== Sys2Proof/Laws/PerInstr.lean ====
section
/-! SUPPORT. Statements about every element as syntax, one lemma per constructor. -/

namespace Sys2Proof.Laws.EncodedSize

/-- The bytes of an element in its format (30_encoding.md R71, R75, R76, R77; 20_memory.md R55 for a CTRL word). -/
def size : Instr → Nat
  | .decompressUpdate => 4
  | .decodeStream => 4
  | .decodeChunk => 4
  | .badMode3 => 4
  | .srst => 4
  | .modeWrite _ => 4
  | .marker => 6
  | .secHdr _ _ => 8
  | .chunkHdr _ => 4
  | .skip reserved => reserved.length
  | .initCtx ctx => ctx.length
  | .mask _ => 1
  | .lit _ => 1
  | .matchLen _ => 1
  | .pad => 0

/-- The encoder writes exactly the element's bytes, at most eight. -/
def Statement (i : Instr) : Prop :=
  WellFormed i → (encode i).length = size i ∧ size i ≤ 8

theorem decompressUpdate : Statement .decompressUpdate := fun _ => ⟨rfl, by decide⟩
theorem decodeStream : Statement .decodeStream := fun _ => ⟨rfl, by decide⟩
theorem decodeChunk : Statement .decodeChunk := fun _ => ⟨rfl, by decide⟩
theorem badMode3 : Statement .badMode3 := fun _ => ⟨rfl, by decide⟩
theorem srst : Statement .srst := fun _ => ⟨rfl, by decide⟩
theorem modeWrite (mode : BitVec 2) : Statement (.modeWrite mode) := fun _ => ⟨rfl, by simp [size]⟩
theorem marker : Statement .marker := fun _ => ⟨rfl, by decide⟩
theorem secHdr (sz crc : Word) : Statement (.secHdr sz crc) := fun _ => ⟨rfl, by simp [size]⟩
theorem chunkHdr (chunkSize : Word) : Statement (.chunkHdr chunkSize) := fun _ => ⟨rfl, by simp [size]⟩

theorem skip (reserved : List Byte) : Statement (.skip reserved) := by
  intro h
  have hl : reserved.length ≤ 2 := of_decide_eq_true h
  exact ⟨rfl, by simp only [size]; omega⟩

theorem initCtx (ctx : List Byte) : Statement (.initCtx ctx) := by
  intro h
  have hl : ctx.length ≤ 4 := of_decide_eq_true h
  exact ⟨rfl, by simp only [size]; omega⟩

theorem mask (m : Byte) : Statement (.mask m) := fun _ => ⟨rfl, by simp [size]⟩
theorem lit (octet : Byte) : Statement (.lit octet) := fun _ => ⟨rfl, by simp [size]⟩
theorem matchLen (len : Byte) : Statement (.matchLen len) := fun _ => ⟨rfl, by simp [size]⟩
theorem pad : Statement .pad := fun _ => ⟨rfl, by decide⟩

end Sys2Proof.Laws.EncodedSize
end

