-- ==== Sys2Proof/Laws/Step.lean ====
section
/-! SUPPORT. What one step is, said once: which element the engine decodes at each point, and what a step does with it.
Proofs about steps cite these and do not unfold the fetch. -/

namespace Sys2Proof.Machine

/-! ## What the engine decodes -/

theorem fetch_secHdr (s : State) :
    s.fetch .secHdr =
      some (.secHdr
        (le32 (s.readIn (s.dp.m1 - 8)) (s.readIn (s.dp.m1 - 8 + 1)) (s.readIn (s.dp.m1 - 8 + 2)) (s.readIn (s.dp.m1 - 8 + 3)))
        (le32 (s.readIn (s.dp.m1 - 8 + 4)) (s.readIn (s.dp.m1 - 8 + 5)) (s.readIn (s.dp.m1 - 8 + 6))
          (s.readIn (s.dp.m1 - 8 + 7)))) := rfl

/-- The chunk-size field at SP. -/
def State.chunkSizeAt (s : State) : Word :=
  le32 (s.readIn (s.dp.sb + s.dp.sp)) (s.readIn (s.dp.sb + s.dp.sp + 1)) (s.readIn (s.dp.sb + s.dp.sp + 2))
    (s.readIn (s.dp.sb + s.dp.sp + 3))

theorem fetch_chunkHdr (s : State) :
    s.fetch .chunkHdr = if s.dp.sl - s.dp.sp < 4 then none else some (.chunkHdr s.chunkSizeAt) := rfl

/-- The reserved bytes of a record, whole. -/
theorem decode_skip_whole {n : Nat} {bs : List Byte} (hn : n ≤ 2) (hl : bs.length = n) :
    decode (.skip n) bs = .element (.skip bs) [] := by
  subst hl
  simp [decode, Nat.not_lt.2 hn]

/-- The initial context of a payload, whole. -/
theorem decode_initCtx_whole {n : Nat} {bs : List Byte} (hn : n ≤ 4) (hl : bs.length = n) :
    decode (.initCtx n) bs = .element (.initCtx bs) [] := by
  subst hl
  simp [decode, Nat.not_lt.2 hn]

theorem fetch_skip (s : State) :
    s.fetch .skip = some (.skip (s.inBytes (s.dp.sb + s.dp.sp + 4) (min 2 s.dp.cs))) := by
  simp [State.fetch, decode_skip_whole (Nat.min_le_left 2 s.dp.cs), Decoded.instr?]

theorem fetch_initCtx (s : State) :
    s.fetch .initCtx = some (.initCtx (s.inBytes s.dp.pb (min 4 s.dp.n))) := by
  simp [State.fetch, decode_initCtx_whole (Nat.min_le_left 4 s.dp.n), Decoded.instr?]

theorem fetch_mask (s : State) :
    s.fetch .mask =
      if s.olen < 0x10000 ∧ s.dp.ip < s.dp.n then some (.mask (s.readIn (s.dp.pb + s.dp.ip))) else none := rfl

theorem fetch_token_octet (s : State) (h : s.dp.ip < s.dp.n) :
    s.fetch .token =
      some (if s.maskBit then .matchLen (s.readIn (s.dp.pb + s.dp.ip)) else .lit (s.readIn (s.dp.pb + s.dp.ip))) := by
  cases hb : s.maskBit <;> simp [State.fetch, h, hb, State.inBytes, decode, Decoded.instr?]

theorem fetch_token_none (s : State) (h : s.dp.n ≤ s.dp.ip) : s.fetch .token = some .pad := by
  cases hb : s.maskBit <;> simp [State.fetch, Nat.not_lt.2 h, hb, decode, Decoded.instr?]

/-! ## The engine's step -/

/-- The engine's turn, run: the meaning of the element it decodes, or its move. -/
def State.engineStep (s : State) : Answer :=
  match s.engineTurn with
  | .run i t => exec i t
  | .answer o => o

/-- With no host turn pending the step is the engine's. -/
theorem step_of_nil {s : State} (hq : s.queue = []) : step s = s.engineStep := by
  simp only [step, State.nextAction, hq]; rfl

/-- A turn the host leaves to the engine. -/
theorem step_of_engineTurn {s : State} {rest : List HostOp} (hq : s.queue = .engineTurn :: rest) :
    step s = State.engineStep { s with queue := rest } := by
  simp only [step, State.nextAction, hq]; rfl

/-- A poll before DONE. -/
theorem step_of_poll {s : State} {rest : List HostOp} (hq : s.queue = .pollDone :: rest)
    (hd : s.phase.isDone = false) : step s = s.engineStep := by
  simp only [step, State.nextAction, hq, hd]; rfl

/-- A poll after DONE. -/
theorem step_of_poll_done {s : State} {rest : List HostOp} (hq : s.queue = .pollDone :: rest)
    (hd : s.phase.isDone = true) : step s = .next { s with queue := rest, bus := s.statusWord } := by
  simp only [step, State.nextAction, hq, hd]; rfl

/-- A BUSY engine runs the element it decodes, or makes its move. -/
theorem engineStep_of_busy {s : State} {p : Point} (hp : s.phase = .busy p) :
    s.engineStep = match s.fetch p with
      | some i => exec i s
      | none => engineMove s p := by
  simp only [State.engineStep, State.engineTurn, hp]
  cases s.fetch p <;> rfl

/-- Outside BUSY the engine holds its state. -/
theorem engineStep_of_not_busy {s : State} (hp : s.phase.isBusy = false) : s.engineStep = .next s := by
  cases h : s.phase <;> simp [h] at hp <;> simp [State.engineStep, State.engineTurn, h]

theorem step_of_busy {s : State} {p : Point} (hq : s.queue = []) (hp : s.phase = .busy p) :
    step s = match s.fetch p with
      | some i => exec i s
      | none => engineMove s p := by
  rw [step_of_nil hq, engineStep_of_busy hp]

theorem step_of_idle {s : State} (hq : s.queue = []) (hp : s.phase.isBusy = false) : step s = .next s := by
  rw [step_of_nil hq, engineStep_of_not_busy hp]

/-- Every move the engine makes, by its point: the whole of what an engine turn can be, whatever host turns are pending. -/
theorem engineStep_cases {s : State} {p : Point} (hp : s.phase = .busy p) :
    (p = .marker1 ∧ s.engineStep = .next s.firstMarker) ∨
    (p = .marker2 ∧ s.engineStep = .next s.secondMarker) ∨
    (p = .secHdr ∧ ∃ size crc, s.fetch .secHdr = some (.secHdr size crc) ∧
      s.engineStep = .next { s with phase := .busy .marker2, dp := { s.dp with size := size, crc := crc } }) ∨
    (p = .chunkHdr ∧ s.dp.sl - s.dp.sp < 4 ∧ s.engineStep = .next (s.endStream false)) ∨
    (p = .chunkHdr ∧ 4 ≤ s.dp.sl - s.dp.sp ∧ s.engineStep = execChunkHdr s.chunkSizeAt s) ∨
    (p = .skip ∧ s.engineStep = .next (s.beginChunk (s.dp.sb + s.dp.sp + 4 + min 2 s.dp.cs) (s.dp.cs - 2))) ∨
    (p = .initCtx ∧ s.engineStep = execInitCtx (s.inBytes s.dp.pb (min 4 s.dp.n)) s) ∨
    (p = .mask ∧ s.olen < 0x10000 ∧ s.dp.ip < s.dp.n ∧ s.engineStep = execMask (s.readIn (s.dp.pb + s.dp.ip)) s) ∨
    (p = .mask ∧ ¬ (s.olen < 0x10000 ∧ s.dp.ip < s.dp.n) ∧ s.engineStep = .next (s.goto .chunkEnd)) ∨
    (p = .token ∧ s.dp.ip < s.dp.n ∧ s.maskBit = true ∧ s.engineStep = execMatchLen (s.readIn (s.dp.pb + s.dp.ip)) s) ∨
    (p = .token ∧ s.dp.ip < s.dp.n ∧ s.maskBit = false ∧ s.engineStep = execLit (s.readIn (s.dp.pb + s.dp.ip)) s) ∨
    (p = .token ∧ s.dp.n ≤ s.dp.ip ∧ s.engineStep = execPad s) ∨
    (p = .chunkEnd ∧ s.engineStep = .next s.endChunk) := by
  have h := engineStep_of_busy hp
  cases p with
  | marker1 => left; exact ⟨rfl, by rw [h]; simp [State.fetch, exec, execMarker, hp]⟩
  | marker2 => right; left; exact ⟨rfl, by rw [h]; simp [State.fetch, exec, execMarker, hp]⟩
  | secHdr =>
    right; right; left
    exact ⟨rfl, _, _, fetch_secHdr s, by rw [h, fetch_secHdr]; rfl⟩
  | chunkHdr =>
    rw [fetch_chunkHdr] at h
    by_cases hs : s.dp.sl - s.dp.sp < 4
    · rw [if_pos hs] at h; iterate 3 right
      exact .inl ⟨rfl, hs, h⟩
    · rw [if_neg hs] at h; iterate 4 right
      exact .inl ⟨rfl, by omega, h⟩
  | skip =>
    rw [fetch_skip] at h; iterate 5 right
    exact .inl ⟨rfl, h⟩
  | initCtx =>
    rw [fetch_initCtx] at h; iterate 6 right
    exact .inl ⟨rfl, h⟩
  | mask =>
    rw [fetch_mask] at h
    by_cases hs : s.olen < 0x10000 ∧ s.dp.ip < s.dp.n
    · rw [if_pos hs] at h; iterate 7 right
      exact .inl ⟨rfl, hs.1, hs.2, h⟩
    · rw [if_neg hs] at h; iterate 8 right
      exact .inl ⟨rfl, hs, h⟩
  | token =>
    iterate 9 right
    by_cases hs : s.dp.ip < s.dp.n
    · rw [fetch_token_octet s hs] at h
      cases hb : s.maskBit with
      | true => rw [hb] at h; exact .inl ⟨rfl, hs, rfl, h⟩
      | false => rw [hb] at h; exact .inr (.inl ⟨rfl, hs, rfl, h⟩)
    · rw [fetch_token_none s (Nat.not_lt.1 hs)] at h
      exact .inr (.inr (.inl ⟨rfl, Nat.not_lt.1 hs, h⟩))
  | chunkEnd =>
    iterate 12 right
    exact ⟨rfl, h⟩

end Sys2Proof.Machine
end

