-- ==== Sys2Proof/Tests/Slice0.lean ====
section
/-! SUPPORT. The tests: the WellFormed smoke, words written out from 30_encoding.md, single steps against the worked
values of 95_test_vectors.md, and a witness for the hypotheses of every statement that has some. -/

namespace Sys2Proof.Tests

open Sys2Proof.Machine

/-! ## Small states -/

/-- Small buffers, so that the bounds can be met. Not a legal build; the statements tested with it do not need one. -/
def small : Params := ⟨32, 16, .padGroup⟩

/-- The same under PAD_ONCE. -/
def smallOnce : Params := ⟨32, 16, .padOnce⟩

/-- The smallest legal build. -/
def legal : Params := ⟨32, 0x10000, .padGroup⟩

/-- A machine BUSY at `p` with the latched mode `m` and IN holding `bs` from 0. -/
def busyAt (p : Point) (m : BitVec 2) (bs : List Byte) : State :=
  { State.resetWith small with
    inLen := BitVec.ofNat 32 bs.length
    phase := .busy p
    inMem := Sparse.run 0 bs
    dp := { Datapath.zero with modeL := m } }

/-- A machine in a group of DECODE_CHUNK: output `out`, table `ht`, the payload `bs` with its cursor at `ip`, the mask
byte `m` at bit `bi`. -/
def tokenAt (out : List Byte) (ht : HashTable) (bs : List Byte) (ip : Nat) (m : Byte) (bi : Nat) : State :=
  let s := busyAt .token 2#2 bs
  { s with obuf := out, ht := ht, dp := { s.dp with n := bs.length, ip := ip, mask := m, bi := bi } }

/-- The state of a next answer. -/
def after (o : Answer) : State := (nextState? o).getD State.reset

theorem next_after {o : Answer} (h : (nextState? o).isSome = true) : o = .next (after o) := by
  cases o with
  | next t => rfl
  | fault r => exact absurd h (by simp [nextState?])
  | refused r => exact absurd h (by simp [nextState?])

/-! ## WellFormed smoke: each check refuses an ill-formed term -/

theorem test_wellFormed_refuses_long_skip : ¬ WellFormed (.skip [0#8, 0#8, 0#8]) := by decide
theorem test_wellFormed_refuses_long_initCtx : ¬ WellFormed (.initCtx [0#8, 0#8, 0#8, 0#8, 0#8]) := by decide
theorem test_wellFormed_accepts_bounds : WellFormed (.skip [0#8, 0#8]) ∧ WellFormed (.initCtx [1#8, 2#8, 3#8, 4#8]) := by
  decide

/-! ## Decoding: words written out from 30_encoding.md R71 to R78 and R82 -/

theorem test_decode_decompressUpdate : decode .command [0x01#8, 0#8, 0#8, 0#8] = .element .decompressUpdate [] := by
  decide
theorem test_decode_decodeStream_ignores_high_bits :
    decode .command [0xF5#8, 0xFF#8, 0xFF#8, 0xFF#8] = .element .decodeStream [] := by decide
theorem test_decode_decodeChunk : decode .command [0x09#8, 0#8, 0#8, 0#8] = .element .decodeChunk [] := by decide
theorem test_decode_badMode3 : decode .command [0x0D#8, 0#8, 0#8, 0#8] = .element .badMode3 [] := by decide
theorem test_decode_srst_over_start : decode .command [0x0B#8, 0#8, 0#8, 0#8] = .element .srst [] := by decide
theorem test_decode_modeWrite : decode .command [0x08#8, 0#8, 0#8, 0x80#8] = .element (.modeWrite 2#2) [] := by decide
theorem test_decode_marker :
    decode .marker [0x41#8, 0x30#8, 0x30#8, 0x30#8, 0x30#8, 0x30#8, 0x31#8] = .element .marker [0x31#8] := by decide
theorem test_decode_not_marker :
    decode .marker [0x41#8, 0x30#8, 0x30#8, 0x30#8, 0x30#8, 0x31#8] = .rejected .notMarker := by decide
theorem test_decode_secHdr :
    decode .secHdr [0x01#8, 0x02#8, 0x03#8, 0x04#8, 0xEF#8, 0xBE#8, 0xAD#8, 0xDE#8] =
      .element (.secHdr 0x04030201#32 0xDEADBEEF#32) [] := by decide
theorem test_decode_chunkHdr :
    decode .chunkHdr [0x0F#8, 0x00#8, 0x00#8, 0x80#8, 0xAA#8] = .element (.chunkHdr 0x8000000F#32) [0xAA#8] := by decide
theorem test_decode_skip : decode (.skip 2) [0x12#8, 0x34#8, 0x56#8] = .element (.skip [0x12#8, 0x34#8]) [0x56#8] := by
  decide
theorem test_decode_initCtx :
    decode (.initCtx 4) [1#8, 2#8, 3#8, 4#8, 5#8] = .element (.initCtx [1#8, 2#8, 3#8, 4#8]) [5#8] := by decide
theorem test_decode_mask : decode .mask [0x80#8, 0x11#8] = .element (.mask 0x80#8) [0x11#8] := by decide
theorem test_decode_lit_match_pad :
    decode (.octet false) [0x5A#8] = .element (.lit 0x5A#8) [] ∧
    decode (.octet true) [0x5A#8] = .element (.matchLen 0x5A#8) [] ∧
    decode (.octet true) [] = .element .pad [] := by decide
theorem test_decode_rejects_by_name :
    decode .chunkHdr [0#8, 0#8, 0#8] = .rejected (.missingBytes .chunkHdr) ∧
    decode (.skip 3) [0#8, 0#8, 0#8] = .rejected (.noSuchLength (.skip 3)) ∧
    decode .mask [] = .rejected (.missingBytes .mask) := by decide

/-! ## The hash and the table (95_test_vectors.md HV-2, HV-7, HV-8, HV-13, HV-19; HT-3, HT-4) -/

theorem test_hash_vectors :
    hashOf (be32 0x01#8 0x02#8 0x03#8 0x04#8) = 0x0100#16 ∧ hashOf (be32 0x40#8 0#8 0#8 0#8) = 0x8000#16 ∧
    hashOf (be32 0#8 0#8 0x80#8 0#8) = 0x8001#16 ∧ hashOf (be32 0x12#8 0x34#8 0x56#8 0x78#8) = 0x7210#16 ∧
    hashOf (be32 0xAA#8 0xBB#8 0xCC#8 0xDD#8) = 0x99AA#16 := by decide
theorem test_table_most_recent_wins :
    ((State.reset.htInsert 0x0100#16 4).htInsert 0x0100#16 9).htLookup 0x0100#16 = some 9 ∧
    (State.reset.htInsert 0x0100#16 4).htLookup 0x0003#16 = none := by decide

/-! ## One step each -/

/-- R201: DECOMPRESS_UPDATE goes BUSY before the first search. -/
theorem test_decompressUpdate : (after (exec .decompressUpdate State.reset)).phase = .busy .marker1 := by decide
/-- R204: DECODE_STREAM over IN_LEN bytes. -/
theorem test_decodeStream :
    (after (exec .decodeStream { State.reset with inLen := 19#32 })).dp.sl = 19 ∧
    (after (exec .decodeStream { State.reset with inLen := 19#32 })).mode = 1#2 := by decide
/-- R205: DECODE_CHUNK over IN_LEN bytes. -/
theorem test_decodeChunk : (after (exec .decodeChunk { State.reset with inLen := 13#32 })).dp.n = 13 := by decide
/-- 95_test_vectors.md: STATUS 0xBA is code 11. -/
theorem test_badMode3 : (after (exec .badMode3 State.reset)).statusWord = 0xBA#32 := by decide
/-- R206: IN_LEN > IN_CAP. -/
theorem test_inLen_beyond_inCap :
    (after (exec .decodeChunk { State.resetWith small with inLen := 33#32 })).statusWord = 0xBA#32 := by decide
/-- R207: SRST while BUSY. -/
theorem test_srst :
    (after (exec .srst (busyAt .token 2#2 [1#8]))).phase = .idle ∧
    (after (exec .srst (busyAt .token 2#2 [1#8]))).readIn 0 = 1#8 := by decide
/-- R211: MODE is written, MODE_L is not. -/
theorem test_modeWrite :
    (after (exec (.modeWrite 3#2) State.reset)).mode = 3#2 ∧
    (after (exec (.modeWrite 3#2) State.reset)).dp.modeL = 0#2 := by decide

/-- Eight header bytes, the marker at 8, three bytes, the marker at 17, three more: a preamble in the form of R71, the
second marker at the earliest place R185 finds. -/
def preamble : List Byte :=
  [0x03#8, 0#8, 0#8, 0#8, 0x78#8, 0x56#8, 0x34#8, 0x12#8] ++ Config.marker ++ [0#8, 0#8, 0#8] ++ Config.marker ++
    [0xA0#8, 0xA1#8, 0xA2#8]

/-- R182: the first marker. -/
theorem test_marker_first : (after (exec .marker (busyAt .marker1 0#2 preamble))).dp.m1 = 8 := by decide

/-- The locator at its second search. -/
def second : State :=
  let s := busyAt .marker2 0#2 preamble
  { s with dp := { s.dp with m1 := 8, size := 3#32, crc := 0x12345678#32 } }

/-- R185, R186: the search starts at m1 + 9 = 17, so SEC_START is 23, and the slice is 3 bytes. -/
theorem test_marker_second :
    (after (exec .marker second)).results.secStart = 23#32 ∧ (after (exec .marker second)).dp.sl = 3 := by decide
/-- R184. -/
theorem test_secHdr : (after (exec (.secHdr 3#32 9#32) (busyAt .secHdr 0#2 preamble))).dp.size = 3#32 := by decide

/-- ST-11: `05 00 00 00 00 00`, a record whose bytes are not all there. -/
def truncated : State :=
  let s := busyAt .chunkHdr 1#2 [5#8, 0#8, 0#8, 0#8, 0#8, 0#8]
  { s with dp := { s.dp with sl := 6 } }

/-- ST-11: code 4. -/
theorem test_chunkHdr_truncated : (after (step truncated)).statusWord = 0x42#32 := by decide

/-- ST-8: `06 00 00 00 FF FF AA BB CC DD`, after its chunk-size field. -/
def skipAt : State :=
  let s := busyAt .skip 1#2 [6#8, 0#8, 0#8, 0#8, 0xFF#8, 0xFF#8, 0xAA#8, 0xBB#8, 0xCC#8, 0xDD#8]
  { s with dp := { s.dp with sl := 10, cs := 6 } }

/-- ST-8: the payload is the four bytes at 6. -/
theorem test_skip : (after (step skipAt)).dp.pb = 6 ∧ (after (step skipAt)).dp.n = 4 := by decide
/-- R121, HV-2: the entry 4 under the hash 0x0100. -/
theorem test_initCtx :
    (after (exec (.initCtx [1#8, 2#8, 3#8, 4#8]) (busyAt .initCtx 2#2 []))).ht = [(0x0100, 4)] := by decide
/-- R122, DC-10: a payload of two bytes inserts nothing. -/
theorem test_initCtx_short :
    (after (exec (.initCtx [0xAA#8, 0xBB#8]) (busyAt .initCtx 2#2 []))).obuf = [0xAA#8, 0xBB#8] ∧
    (after (exec (.initCtx [0xAA#8, 0xBB#8]) (busyAt .initCtx 2#2 []))).ht = [] := by decide
/-- R124, R125: the group begins at bit 7. -/
theorem test_mask : (after (exec (.mask 0x80#8) (busyAt .mask 2#2 []))).dp.bi = 7 := by decide

/-- DC-9 at its literal: `01 02 03 04 40 05 03`. -/
def dc9 : State :=
  tokenAt [1#8, 2#8, 3#8, 4#8] [(0x0100, 4)] [1#8, 2#8, 3#8, 4#8, 0x40#8, 5#8, 3#8] 5 0x40#8 7

/-- DC-9: the literal 05 is appended. -/
theorem test_lit : (after (step dc9)).obuf = [1#8, 2#8, 3#8, 4#8, 5#8] := by decide
/-- DC-9: the match then finds no entry for hash 0x0003: STATUS 0x8A, FAULT_INFO, FAULT_IPOS. -/
theorem test_match_unknownContext :
    (after (step (after (step dc9)))).statusWord = 0x8A#32 ∧
    (after (step (after (step dc9)))).results.faultInfo = 0x00030003#32 ∧
    (after (step (after (step dc9)))).results.faultIpos = 6#32 := by decide

/-- DC-4 at its match: PRE 8, hash 0xC1C0, E 4. -/
def dc4 : State :=
  tokenAt [0x41#8, 0x42#8, 0x43#8, 0x44#8, 0x41#8, 0x42#8, 0x43#8, 0x44#8] [(0xC1C0, 4)]
    [0x41#8, 0x42#8, 0x43#8, 0x44#8, 0x08#8, 0x41#8, 0x42#8, 0x43#8, 0x44#8, 8#8] 9 0x08#8 3

/-- DC-4: eight bytes from entry 4, the last four of them bytes the copy itself wrote. -/
theorem test_match_copies :
    (after (step dc4)).obuf.drop 8 = [0x41#8, 0x42#8, 0x43#8, 0x44#8, 0x41#8, 0x42#8, 0x43#8, 0x44#8] := by decide

/-- DC-2 at its first pad: `AA BB CC DD 80`. -/
def dc2 : State :=
  tokenAt [0xAA#8, 0xBB#8, 0xCC#8, 0xDD#8] [(0x99AA, 4)] [0xAA#8, 0xBB#8, 0xCC#8, 0xDD#8, 0x80#8] 5 0x80#8 7

/-- DC-2: under PAD_GROUP the group goes on, under PAD_ONCE the decode ends, both after one FF. -/
theorem test_pad :
    (after (step dc2)).obuf = [0xAA#8, 0xBB#8, 0xCC#8, 0xDD#8, 0xFF#8] ∧ (after (step dc2)).phase = .busy .token ∧
    (after (step { dc2 with params := smallOnce })).phase = .busy .chunkEnd := by decide

/-! ## The host's probes -/

theorem test_withFetchWord_runs :
    (after (step (State.reset.withFetchWord 32 0x0D))).statusWord = 0xBA#32 ∧
    (after (step (State.reset.withFetchWord 16 0x041))).obuf = [0#8, 0#8, 0#8, 0#8, 0#8, 0x41#8] := by decide
theorem test_withFetchWord_match :
    (after (step (State.reset.withFetchWord 16 0x103))).obuf.length = 8 := by decide

/-! ## Witnesses: the hypotheses of each statement are met together, each clause at a bound of its range -/

theorem test_witness_DecodeOfEncodeGivesElementBack :
    WellFormed (.skip [1#8, 2#8]) ∧ WellFormed (.initCtx []) ∧ WellFormed .pad ∧ (Instr.marker ≠ .pad) := by decide
theorem test_witness_TokenAndElementDetermineEachOther :
    encodeToken (.lit 0xFF#8) = some 0x0FF#9 ∧ encodeToken (.matchLen 0#8) = some 0x100#9 := by decide
theorem test_witness_CtrlWordFirstMatchingRowWins :
    (0x0000000F#32).getLsbD 1 = true ∧
    ((0xFFFFFFF1#32).getLsbD 1 = false ∧ (0xFFFFFFF1#32).getLsbD 0 = true ∧ (0xFFFFFFF1#32).extractLsb' 2 2 = 0#2) ∧
    ((0x00000005#32).getLsbD 1 = false ∧ (0x00000005#32).getLsbD 0 = true ∧ (0x00000005#32).extractLsb' 2 2 = 1#2) ∧
    ((0x00000009#32).getLsbD 1 = false ∧ (0x00000009#32).getLsbD 0 = true ∧ (0x00000009#32).extractLsb' 2 2 = 2#2) ∧
    ((0x0000000D#32).getLsbD 1 = false ∧ (0x0000000D#32).getLsbD 0 = true ∧ (0x0000000D#32).extractLsb' 2 2 = 3#2) ∧
    ((0x0000000C#32).getLsbD 1 = false ∧ (0x0000000C#32).getLsbD 0 = false) ∧
    (0xFFFFFFF5#32).extractLsb' 0 4 = (0x00000005#32).extractLsb' 0 4 := by decide

/-- A stream of one record, at the top of the framer's loop with exactly the field left. -/
def fieldLeft : State :=
  let s := busyAt .chunkHdr 1#2 [0#8, 0#8, 0#8, 0#8]
  { s with dp := { s.dp with sl := 4 } }

/-- A payload of one byte at 0, at the loop test. -/
def maskLeft : State :=
  let s := busyAt .mask 2#2 [0x80#8]
  { s with dp := { s.dp with n := 1 } }

/-- A payload of four bytes, before its context. -/
def ctxLeft : State :=
  let s := busyAt .initCtx 2#2 [1#8, 2#8, 3#8, 4#8]
  { s with dp := { s.dp with n := 4 } }

theorem test_witness_EngineStepRunsElementAtCursor :
    (busyAt .secHdr 0#2 preamble).queue = [] ∧
    decode .secHdr ((busyAt .secHdr 0#2 preamble).inBytes 0 8) = .element (.secHdr 3#32 0x12345678#32) [] ∧
    (fieldLeft.phase = .busy .chunkHdr ∧ 4 ≤ fieldLeft.dp.sl - fieldLeft.dp.sp ∧
      decode .chunkHdr (fieldLeft.inBytes 0 4) = .element (.chunkHdr 0#32) []) ∧
    (skipAt.phase = .busy .skip ∧ decode (.skip 2) (skipAt.inBytes 4 2) = .element (.skip [0xFF#8, 0xFF#8]) []) ∧
    (ctxLeft.phase = .busy .initCtx ∧
      decode (.initCtx 4) (ctxLeft.inBytes 0 4) = .element (.initCtx [1#8, 2#8, 3#8, 4#8]) []) ∧
    (maskLeft.phase = .busy .mask ∧ maskLeft.olen < 0x10000 ∧ maskLeft.dp.ip < maskLeft.dp.n ∧
      decode .mask (maskLeft.inBytes 0 1) = .element (.mask 0x80#8) []) ∧
    (dc9.phase = .busy .token ∧ dc9.dp.ip < dc9.dp.n ∧
      decode (.octet (dc9.dp.mask.getLsbD dc9.dp.bi)) (dc9.inBytes 5 1) = .element (.lit 5#8) []) ∧
    (dc2.phase = .busy .token ∧ dc2.dp.n ≤ dc2.dp.ip ∧
      decode (.octet (dc2.dp.mask.getLsbD dc2.dp.bi)) [] = .element .pad []) := by decide

theorem test_witness_HostTurnsRunCommandsOrLeaveTheEngine :
    ({ State.reset with queue := [.regWrite 4 0 1#32] }).queue = [.regWrite 4 0 1#32] ∧
    (({ dc9 with queue := [.engineTurn] }).phase = .busy .token ∧
      State.fetch { dc9 with queue := [.engineTurn] } .token = some (.lit 5#8)) ∧
    (({ dc9 with queue := [.pollDone] }).phase = .busy .token ∧
      State.fetch { dc9 with queue := [.pollDone] } .token = some (.lit 5#8)) ∧
    ({ State.reset with phase := .done, queue := [.pollDone] }).phase = .done ∧
    (State.reset.queue = [] ∧ State.reset.phase.isBusy = false) := by decide
theorem test_witness_EngineStepAlwaysAnswersAndKeepsInput : dc9.queue = [] ∧ State.reset.queue = [] := by decide
theorem test_witness_OnlyHostAccessesStop :
    ({ State.reset with queue := [.regRead 4 0x100] }).queue = [.regRead 4 0x100] ∧
    step { State.reset with queue := [.regRead 4 0x100] } = .refused (.registerAccess 4 0x100) ∧
    step { State.resetWith small with queue := [.outRead 16] } = .fault (.noOutByte 16) ∧
    step { State.resetWith small with queue := [.inWrite 32 0#8] } = .fault (.noInByte 32) :=
  ⟨rfl, rfl, rfl, rfl⟩

theorem test_witness_AcceptedCommandStartsBusyAndCleared :
    ({ State.resetWith small with inLen := 32#32 }).phase.isBusy = false ∧
    ({ State.resetWith small with inLen := 32#32 }).inLen.toNat ≤ small.inCap := by decide
theorem test_witness_StartWhileBusyIsIgnored : dc9.phase.isBusy = true := by decide
theorem test_witness_BadCommandFaultsAtOnce :
    State.reset.phase.isBusy = false ∧ small.inCap < ({ State.resetWith small with inLen := 33#32 }).inLen.toNat := by
  decide
theorem test_witness_ResetsRestoreTheResetState :
    ({ dc9 with queue := [.hardReset] }).queue = [.hardReset] := by decide
theorem test_witness_ModeWriteWritesModeOnly : State.reset.phase.isBusy = false ∧ dc9.phase.isBusy = true := by decide

/-- The marker at 8, at 7, and nowhere. -/
theorem test_witness_FirstMarkerFoundOrFailure :
    (busyAt .marker1 0#2 preamble).phase = .busy .marker1 ∧ (busyAt .marker1 0#2 preamble).findMarker 0 = some 8 ∧
    (busyAt .marker1 0#2 (preamble.drop 1)).findMarker 0 = some 7 ∧
    (busyAt .marker1 0#2 (preamble.take 13)).findMarker 0 = none := by decide

/-- The machine before the section header, m1 = 8. -/
def headerAt : State :=
  let s := busyAt .secHdr 0#2 preamble
  { s with dp := { s.dp with m1 := 8 } }

theorem test_witness_SectionHeaderIsReadBeforeTheFirstMarker :
    headerAt.phase = .busy .secHdr ∧ headerAt.queue = [] ∧ 8 ≤ headerAt.dp.m1 ∧
    step headerAt = .next (after (step headerAt)) := ⟨rfl, rfl, by decide, next_after (by decide)⟩
theorem test_witness_SecondMarkerBeginsTheSection :
    second.phase = .busy .marker2 ∧ second.findMarker (second.dp.m1 + 9) = some 17 ∧
    State.findMarker { second with inLen := 22#32 } (second.dp.m1 + 9) = none := by decide
theorem test_witness_ChunkHeaderTakesOrTruncates :
    truncated.phase = .busy .chunkHdr ∧ (2#32).toNat ≤ truncated.dp.sl - truncated.dp.sp - 4 ∧
    truncated.dp.sl - truncated.dp.sp - 4 < (3#32).toNat ∧
    truncated.dp.sp ≠ truncated.declaredSize := by decide
theorem test_witness_SkipBytesAreDroppedUnread :
    skipAt.phase = .busy .skip ∧ 2 ≤ skipAt.dp.cs ∧ ({ skipAt.dp with cs := 2 }).cs = 2 ∧
    ({ skipAt.dp with cs := 1 }).cs < 2 := by decide

/-- ST-7, `01 02 03`, and an empty stream: the two ends with fewer than four bytes left. -/
theorem test_witness_StreamEndSucceedsIffAllConsumed :
    (let s := busyAt .chunkHdr 1#2 [1#8, 2#8, 3#8]
     let t : State := { s with dp := { s.dp with sl := 3 } }
     t.queue = [] ∧ t.phase = .busy .chunkHdr ∧ t.dp.sl - t.dp.sp < 4 ∧ t.dp.sp < 2 ^ 32 ∧ t.dp.modeL = 1#2 ∧
       (after (step t)).success = false) ∧
    (let t := busyAt .chunkHdr 0#2 []
     t.queue = [] ∧ t.dp.sl - t.dp.sp < 4 ∧ t.dp.modeL = 0#2 ∧ (after (step t)).success = true) := by decide

/-- A record's chunk of 16 bytes has been decoded. -/
def chunkDone (m : BitVec 2) : State :=
  { busyAt .chunkEnd m [] with obuf := List.replicate 16 0x5A#8 }

theorem test_witness_ChunkIsAppendedToOut :
    (chunkDone 1#2).queue = [] ∧ (chunkDone 1#2).phase = .busy .chunkEnd ∧ (chunkDone 1#2).dp.modeL ≠ 2#2 ∧
    (chunkDone 1#2).dp.fwlen + min (chunkDone 1#2).olen 0x10000 ≤ (chunkDone 1#2).params.outCap := by decide

/-- One byte of OUT is taken, so that the chunk no longer fits. -/
def chunkBeyond : State := { chunkDone 1#2 with dp := { (chunkDone 1#2).dp with fwlen := 1 } }

theorem test_witness_ChunkBeyondOutCapOverflows :
    chunkBeyond.queue = [] ∧ chunkBeyond.phase = .busy .chunkEnd ∧ chunkBeyond.dp.modeL ≠ 2#2 ∧
    chunkBeyond.params.outCap < chunkBeyond.dp.fwlen + min chunkBeyond.olen 0x10000 := by decide
theorem test_witness_DecodeChunkEndsWithItsOutput :
    (chunkDone 2#2).queue = [] ∧ (chunkDone 2#2).phase = .busy .chunkEnd ∧ (chunkDone 2#2).dp.modeL = 2#2 := by decide

theorem test_witness_InitialContextIsOutputAndHashed :
    ctxLeft.phase = .busy .initCtx ∧ ([1#8, 2#8, 3#8, 4#8] : List Byte).length ≤ 4 ∧
    ([1#8, 2#8, 3#8] : List Byte).length < 4 := by decide

/-- The loop test passes with output 65535 bytes long and fails with 65536. -/
theorem test_witness_GroupLoopTakesMaskOrEnds :
    (maskLeft.queue = [] ∧ maskLeft.phase = .busy .mask) ∧
    (let s : State := { maskLeft with obuf := List.replicate 65535 0#8 }; s.olen < 0x10000 ∧ s.dp.ip < s.dp.n) ∧
    (let s : State := { maskLeft with obuf := List.replicate 65536 0#8 }; ¬ (s.olen < 0x10000 ∧ s.dp.ip < s.dp.n)) := by
  refine ⟨by decide, ?_, ?_⟩
  · have h : (List.replicate 65535 (0#8)).length = 65535 := List.length_replicate
    refine ⟨?_, by decide⟩
    show (List.replicate 65535 (0#8)).length < 0x10000
    rw [h]; decide
  · intro s h0
    have h1 := h0.1
    have h : (List.replicate 65536 (0#8)).length = 65536 := List.length_replicate
    have h2 : (List.replicate 65536 (0#8)).length < 0x10000 := h1
    rw [h] at h2
    exact absurd h2 (by decide)

theorem test_witness_StepFetchesOctetOrPads :
    (dc9.queue = [] ∧ dc9.phase = .busy .token ∧ step dc9 = .next (after (step dc9)) ∧ dc9.dp.ip < dc9.dp.n) ∧
    (dc2.queue = [] ∧ dc2.phase = .busy .token ∧ step dc2 = .next (after (step dc2)) ∧ dc2.dp.n ≤ dc2.dp.ip) :=
  ⟨⟨rfl, rfl, next_after (by decide), by decide⟩, rfl, rfl, next_after (by decide), by decide⟩
theorem test_witness_StepInsertsOldLengthAtOldHash :
    (step dc9 = .next (after (step dc9)) ∧ (after (step dc9)).phase ≠ .done) ∧
    ((after (step dc9)).queue = [] ∧ (after (step dc9)).phase = .busy .token ∧
      step (after (step dc9)) = .next (after (step (after (step dc9)))) ∧
      (after (step (after (step dc9)))).phase = .done) :=
  ⟨⟨next_after (by decide), by decide⟩, by decide, by decide, next_after (by decide), by decide⟩
theorem test_witness_LiteralAppendsItsOctet : dc9.phase = .busy .token := by decide
theorem test_witness_PadAppendsFFByPolicy :
    dc2.phase = .busy .token ∧ dc2.params.padPolicy = .padGroup ∧
    ({ dc2 with params := smallOnce }).phase = .busy .token ∧
    ({ dc2 with params := smallOnce }).params.padPolicy = .padOnce := by decide

/-- DC-4 at its match, and DC-8: a zero-length match whose entry is pre_len. -/
def dc8 : State :=
  tokenAt [1#8, 2#8, 3#8, 4#8] [(0x0100, 4)] [1#8, 2#8, 3#8, 4#8, 0xC0#8, 0#8, 1#8] 5 0xC0#8 7

theorem test_witness_MatchCopiesFromItsEntry :
    (dc4.phase = .busy .token ∧ dc4.htLookup (hashOf (contextOf dc4.obuf)) = some 4 ∧ 4 < dc4.olen) ∧
    (dc8.phase = .busy .token ∧ dc8.htLookup (hashOf (contextOf dc8.obuf)) = some 4 ∧ (0#8).toNat = 0) := by decide
theorem test_witness_MatchFaultsBeforeCopying :
    ((after (step dc9)).phase = .busy .token ∧
      (after (step dc9)).htLookup (hashOf (contextOf (after (step dc9)).obuf)) = none) ∧
    (dc8.htLookup (hashOf (contextOf dc8.obuf)) = some 4 ∧ dc8.olen ≤ 4 ∧ 1 ≤ (1#8).toNat) := by decide
theorem test_witness_MatchAfterZeroLengthMatchSelfReferences :
    dc8.phase = .busy .token ∧ dc8.dp.bi ≠ 0 ∧ dc8.htLookup (hashOf (contextOf dc8.obuf)) = some 4 ∧
    1 ≤ (1#8).toNat := by decide
theorem test_witness_MatchCopyRepeatsItsSource :
    dc4.phase = .busy .token ∧ dc4.htLookup (hashOf (contextOf dc4.obuf)) = some 4 ∧ 4 < dc4.olen ∧
    7 < (8#8).toNat := by decide
theorem test_witness_HashXorsTheShiftedContext : 15 < 16 := by decide

/-- The clauses of the register map: their offsets are distinct, and the reserved ones run from 0x38 to 0xFC. -/
theorem test_witness_RegisterReadsFollowTheMap :
    (∀ off ∈ [0x00, 0x04, 0x08, 0x0C, 0x10, 0x14, 0x18, 0x1C, 0x20, 0x24, 0x28, 0x2C, 0x30, 0x34, 0x38, 0xFC],
      State.reset.phase.isBusy = false ∧
      ({ State.reset with queue := [.regRead 4 off] }).queue = [.regRead 4 off] ∧ off ≤ 0xFC ∧ off % 4 = 0) ∧
    [0x00, 0x04, 0x08, 0x0C, 0x10, 0x14, 0x18, 0x1C, 0x20, 0x24, 0x28, 0x2C, 0x30, 0x34, 0x38, 0xFC].Nodup := by decide
theorem test_witness_ReadsWhileBusyLeaveTheEngine :
    ∀ off ∈ [0x00, 0x04, 0x08, 0x0C, 0x30, 0x34, 0x38, 0xFC],
      ({ dc9 with queue := [.regRead 4 off] }).phase.isBusy = true ∧ off % 4 = 0 ∧ off ≤ 0xFC ∧
      ({ dc9 with queue := [.regRead 4 off] }).queue = [.regRead 4 off] := by decide
theorem test_witness_ParamsIsConstant : step dc9 = .next (after (step dc9)) := next_after (by decide)
theorem test_witness_RegisterWritesAreIgnoredOrWriteOneRegister :
    (State.reset.phase.isBusy = false ∧ (0x8#32).getLsbD 0 = false ∧ (0x8#32).getLsbD 1 = false ∧
      ({ State.reset with queue := [.regWrite 4 0x00 0x8#32] }).queue = [.regWrite 4 0x00 0x8#32]) ∧
    ({ State.reset with queue := [.regWrite 4 0x08 5#32] }).queue = [.regWrite 4 0x08 5#32] ∧
    (dc9.phase.isBusy = true ∧ ¬ ((0x00 : Nat) = 0x00 ∧ (0x1#32).getLsbD 1 = true) ∧
      ({ dc9 with queue := [.regWrite 4 0x00 0x1#32] }).queue = [.regWrite 4 0x00 0x1#32]) ∧
    ({ State.reset with queue := [.regWrite 4 0xFC 5#32] }).queue = [.regWrite 4 0xFC 5#32] := by decide
theorem test_witness_NonWordRegisterAccessIsRefused :
    ¬ ((2 : Nat) = 4 ∧ 0 % 4 = 0 ∧ 0 ≤ 0xFC) ∧ ¬ ((4 : Nat) = 4 ∧ 2 % 4 = 0 ∧ 2 ≤ 0xFC) ∧
    ¬ ((4 : Nat) = 4 ∧ 0x100 % 4 = 0 ∧ 0x100 ≤ 0xFC) ∧
    ({ State.reset with queue := [.regWrite 2 0 0#32] }).queue = [.regWrite 2 0 0#32] ∧
    ({ State.reset with queue := [.regRead 4 2] }).queue = [.regRead 4 2] := by decide
theorem test_witness_HostWritesInOutsideBusyOnly :
    (({ State.resetWith small with queue := [.inWrite 31 7#8] }).queue = [.inWrite 31 7#8] ∧
      (State.resetWith small).phase.isBusy = false ∧ 31 < small.inCap) ∧
    (({ dc9 with queue := [.inWrite 0 7#8] }).queue = [.inWrite 0 7#8] ∧ dc9.phase.isBusy = true) := by decide

/-- DECODE_CHUNK has left two bytes in OUT. -/
def outTwo (op : HostOp) : State :=
  { State.resetWith small with
    phase := .done, success := true, results := { Results.zero with outLen := 2#32, chunks := 1#32 }
    outMem := [(0, 0xAA#8), (1, 0xBB#8)], queue := [op] }

theorem test_witness_HostReadsOutBelowOutLen :
    ((outTwo (.outRead 1)).queue = [.outRead 1] ∧ 1 < small.outCap ∧ (outTwo (.outRead 1)).phase.isBusy = false ∧
      1 < (outTwo (.outRead 1)).results.outLen.toNat) ∧
    ((outTwo (.outRead 2)).results.outLen.toNat ≤ 2 ∧ 2 < small.outCap) ∧
    ({ dc9 with queue := [.outRead 15] }).phase.isBusy = true := by decide
theorem test_witness_EveryRegisterReadsZeroAfterReset : (0x04 : Nat) ≠ 0x34 := by decide
theorem test_witness_FaultEntryRecords :
    (Code.unknownContext ≠ .badCommand ∧ dc9.dp.modeL = 2#2) ∧
    (Code.outputOverflow ≠ .badCommand ∧ chunkBeyond.dp.modeL ≠ 2#2) := by decide

/-! ### States that meet the invariant -/

theorem test_witness_legal : legal.Legal := by decide

theorem test_witness_ResetMeetsTheInvariant : (⟨1, 0x10000, .padOnce⟩ : Params).Legal ∧ Params.default.Legal := by decide

/-- A machine of a legal build outside BUSY with IN holding `bs` from 0. -/
def ready (bs : List Byte) : State :=
  { State.resetWith legal with inLen := BitVec.ofNat 32 bs.length, inMem := Sparse.run 0 bs }

theorem inv_ready (bs : List Byte) (hw : Memory.wf (ready bs).inMem)
    (hc : ∀ c ∈ (ready bs).inMem, c.1 < (ready bs).params.inCap) : Inv (ready bs) where
  params := test_witness_legal
  status := ⟨rfl, rfl, rfl⟩
  memory := ⟨hw, List.Pairwise.nil, List.Pairwise.nil, hc, (fun _ h => nomatch h), (fun _ h => nomatch h)⟩
  widths := by
    refine ⟨?_, ?_, ?_, ?_, ?_, ?_, ?_, ?_, ?_, ?_, (fun _ h => nomatch h), ?_, ?_, ?_, ?_⟩ <;>
      simp [ready, State.resetWith, Datapath.zero, State.olen]
  engine := rfl

/-- DC-9 at its literal, in a legal build. -/
def running : State := { dc9 with params := legal }

theorem inv_running : Inv running where
  params := test_witness_legal
  status := ⟨rfl, rfl, rfl⟩
  memory := by
    refine ⟨?_, List.Pairwise.nil, ?_, ?_, (fun _ h => nomatch h), ?_⟩ <;> decide
  widths := by
    refine ⟨?_, ?_, ?_, ?_, ?_, ?_, ?_, ?_, ?_, ?_, (fun _ h => nomatch h), ?_, ?_, ?_, ?_⟩ <;> decide
  engine := by
    refine ⟨by decide, ⟨⟨⟨by decide, .inl rfl⟩, by decide, by decide, by decide⟩, by decide, by decide, by decide⟩, ?_⟩
    exact ⟨rfl, rfl, rfl, rfl, rfl, rfl, rfl, rfl, rfl, rfl⟩

/-- The same machine with other stale registers: another m1, another entry read, another
output byte. -/
def runningStale : State :=
  { running with
    dp := { running.dp with m1 := 77, e := some 9, k := 3, sp := 5, cs := 6 }
    outMem := [(3, 0x11#8)] }

theorem inv_runningStale : Inv runningStale where
  params := test_witness_legal
  status := ⟨rfl, rfl, rfl⟩
  memory := by
    refine ⟨?_, ?_, ?_, ?_, ?_, ?_⟩ <;> decide
  widths := by
    refine ⟨?_, ?_, ?_, ?_, ?_, ?_, ?_, ?_, ?_, ?_, ?_, ?_, ?_, ?_, ?_⟩
    case refine_11 => intro e h; injection h with h; subst h; decide
    all_goals decide
  engine := by
    refine ⟨by decide, ⟨⟨⟨by decide, .inl rfl⟩, by decide, by decide, by decide⟩, by decide, by decide, by decide⟩, ?_⟩
    exact ⟨rfl, rfl, rfl, rfl, rfl, rfl, rfl, rfl, rfl, rfl⟩

theorem test_witness_StepKeepsTheInvariant : Inv running ∧ step running = .next (after (step running)) :=
  ⟨inv_running, next_after (by decide)⟩
theorem test_witness_StepKeepsTheOutcomeClasses : StatusInv running ∧ step running = .next (after (step running)) :=
  ⟨inv_running.status, next_after (by decide)⟩
theorem test_witness_StepKeepsTheMemoryForm :
    running.params.Legal ∧ MemoryInv running ∧ step running = .next (after (step running)) :=
  ⟨inv_running.params, inv_running.memory, next_after (by decide)⟩
theorem test_witness_OutIsWrittenOnceInIncreasingOrder :
    (chunkDone 1#2).queue = [] ∧ (chunkDone 1#2).phase = .busy .chunkEnd ∧ (chunkDone 1#2).dp.modeL ≠ 2#2 ∧
    Point.chunkEnd ≠ .marker2 ∧ step (chunkDone 1#2) = .next (after (step (chunkDone 1#2))) ∧
    (after (step (chunkDone 1#2))).dp.fwlen = 16 :=
  ⟨rfl, rfl, by decide, by decide, next_after (by decide), by decide⟩
theorem test_witness_StoredCrcIsNeverConsulted :
    dc9.queue = [] ∧ dc9.phase = .busy .token ∧ Point.token ≠ .marker1 ∧ Point.token ≠ .secHdr ∧
    Point.token ≠ .marker2 ∧ step dc9 = .next (after (step dc9)) :=
  ⟨rfl, rfl, by decide, by decide, by decide, next_after (by decide)⟩
theorem test_witness_RunningCommandEndsWithinBound :
    Inv running ∧ running.queue = [] ∧ running.phase.isBusy = true := ⟨inv_running, rfl, rfl⟩
theorem test_witness_StepKeepsSameRun :
    Inv running ∧ Inv runningStale ∧ running.queue = [] ∧ runningStale.queue = [] ∧ SameRun running runningStale ∧
    runningStale ≠ running ∧ step running = .next (after (step running)) := by
  refine ⟨inv_running, inv_runningStale, rfl, rfl, ?_, by decide, next_after (by decide)⟩
  refine ⟨⟨rfl, rfl, fun _ _ => rfl⟩, rfl, rfl, rfl, rfl, rfl, rfl, ⟨⟨rfl, rfl, ?_⟩, rfl, rfl, fun _ => rfl⟩, rfl, rfl⟩
  intro h
  exact absurd rfl h

/-- Two machines that differ in OUT, in stale registers and in what they did before. -/
def readyStale (bs : List Byte) : State :=
  { ready bs with dp := { Datapath.zero with fwlen := 9, m1 := 4 }, outMem := [(0, 0x22#8)] }

theorem test_inv_ready_dc1 : Inv (ready [1#8, 2#8, 3#8, 4#8]) := inv_ready _ (by decide) (by decide)

theorem inv_readyStale : Inv (readyStale [1#8, 2#8, 3#8, 4#8]) where
  params := test_witness_legal
  status := ⟨rfl, rfl, rfl⟩
  memory := by
    refine ⟨?_, ?_, List.Pairwise.nil, ?_, ?_, (fun _ h => nomatch h)⟩ <;> decide
  widths := by
    refine ⟨?_, ?_, ?_, ?_, ?_, ?_, ?_, ?_, ?_, ?_, (fun _ h => nomatch h), ?_, ?_, ?_, ?_⟩ <;> decide
  engine := rfl

theorem test_witness_CommandDependsOnlyOnItsInput :
    Inv (ready [1#8, 2#8, 3#8, 4#8]) ∧ Inv (readyStale [1#8, 2#8, 3#8, 4#8]) ∧
    (ready [1#8, 2#8, 3#8, 4#8]).queue = [] ∧ (readyStale [1#8, 2#8, 3#8, 4#8]).queue = [] ∧
    (ready [1#8, 2#8, 3#8, 4#8]).phase.isBusy = false ∧ (readyStale [1#8, 2#8, 3#8, 4#8]).phase.isBusy = false ∧
    SameInput (ready [1#8, 2#8, 3#8, 4#8]) (readyStale [1#8, 2#8, 3#8, 4#8]) :=
  ⟨test_inv_ready_dc1, inv_readyStale, rfl, rfl, rfl, rfl, ⟨rfl, rfl, fun _ _ => rfl⟩⟩

theorem test_witness_DecodeChunkComputesTheReference :
    Inv (ready [1#8, 2#8, 3#8, 4#8]) ∧ (ready [1#8, 2#8, 3#8, 4#8]).queue = [] ∧
    (ready [1#8, 2#8, 3#8, 4#8]).phase.isBusy = false ∧
    (ready [1#8, 2#8, 3#8, 4#8]).inLen.toNat ≤ (ready [1#8, 2#8, 3#8, 4#8]).params.inCap :=
  ⟨test_inv_ready_dc1, rfl, rfl, by decide⟩
/-- ST-10: `00 00 00 00`. -/
theorem test_witness_DecodeStreamComputesTheReference :
    Inv (ready [0#8, 0#8, 0#8, 0#8]) ∧ (ready [0#8, 0#8, 0#8, 0#8]).queue = [] ∧
    (ready [0#8, 0#8, 0#8, 0#8]).phase.isBusy = false ∧
    (ready [0#8, 0#8, 0#8, 0#8]).inLen.toNat ≤ (ready [0#8, 0#8, 0#8, 0#8]).params.inCap :=
  ⟨inv_ready _ (by decide) (by decide), rfl, rfl, by decide⟩
/-- Both clauses: a preamble with its two markers, and one with none. -/
theorem test_witness_DecompressUpdateComputesTheReference :
    (Inv (ready preamble) ∧ (ready preamble).queue = [] ∧ (ready preamble).phase.isBusy = false ∧
      (ready preamble).inLen.toNat ≤ (ready preamble).params.inCap ∧
      Ref.locate ((ready preamble).inBytes 0 (ready preamble).inLen.toNat) = .found 23 3#32 0x12345678#32) ∧
    (Inv (ready [0#8]) ∧ (ready [0#8]).inLen.toNat ≤ (ready [0#8]).params.inCap ∧
      Ref.locate ((ready [0#8]).inBytes 0 (ready [0#8]).inLen.toNat) = .failed .marker1NotFound) :=
  ⟨⟨inv_ready _ (by decide) (by decide), rfl, rfl, by decide, by decide⟩,
    inv_ready _ (by decide) (by decide), by decide, by decide⟩

end Sys2Proof.Tests
end

namespace Sys2Proof.Machine

/-! ## What a step can do (70_reset_and_hazards.md R255; 20_memory.md R61)

Two relations list the next states of a host turn and of an engine turn, with the guards they happen under. Every
whole-machine rule is then one case analysis over each, packaged by `step_keeps`. -/

/-- What a turn of the host can do, its turn already taken off the queue. -/
inductive HostStepsTo (s : State) : State → Prop
  | access (b : Word) (d : Nat) : HostStepsTo s { s with bus := b, draws := d }
  | modeWrite (m : BitVec 2) (hb : s.phase.isBusy = false) : HostStepsTo s { s with mode := m }
  | inLenWrite (w : Word) (hb : s.phase.isBusy = false) : HostStepsTo s { s with inLen := w }
  | inWrite (a : Nat) (b : Byte) (hb : s.phase.isBusy = false) (ha : a < s.params.inCap) :
    HostStepsTo s { s with inMem := Sparse.put s.inMem a b }
  | reset : HostStepsTo s s.resetEngine
  | badCommand (m : BitVec 2) (p : Point) (hb : s.phase.isBusy = false)
    (hm : m = 3#2 ∨ s.params.inCap < s.inLen.toNat) :
    HostStepsTo s ((s.clearForStart m p).raiseFault .badCommand none)
  | decompressUpdate (hb : s.phase.isBusy = false) (hl : s.inLen.toNat ≤ s.params.inCap) :
    HostStepsTo s (s.clearForStart 0#2 .marker1)
  | decodeStream (hb : s.phase.isBusy = false) (hl : s.inLen.toNat ≤ s.params.inCap) :
    HostStepsTo s ((s.clearForStart 1#2 .chunkHdr).beginStream 0 s.inLen.toNat)
  | decodeChunk (hb : s.phase.isBusy = false) (hl : s.inLen.toNat ≤ s.params.inCap) :
    HostStepsTo s ((s.clearForStart 2#2 .initCtx).beginChunk 0 s.inLen.toNat)

/-- What a turn of the engine can do at the point `p`. Every step of a group that does not fault is the one case
`octet`: it appends at most 255 bytes, inserts PRE at HASH, and goes on, ends its group or ends the decode. -/
inductive EngineStepsTo (s : State) : Point → State → Prop
  | marker1NotFound : EngineStepsTo s .marker1 (s.finish .marker1NotFound)
  | headerRange : EngineStepsTo s .marker1 (s.finish .headerRange)
  | marker1Found (a : Nat) (ha : 8 ≤ a) (hp : a + 6 ≤ s.preambleLen) :
    EngineStepsTo s .marker1 { s with phase := .busy .secHdr, dp := { s.dp with m1 := a } }
  | secHdr (size crc : Word) :
    EngineStepsTo s .secHdr { s with phase := .busy .marker2, dp := { s.dp with size := size, crc := crc } }
  | marker2NotFound : EngineStepsTo s .marker2 (s.finish .marker2NotFound)
  | marker2Found (a : Nat) (ha : s.dp.m1 + 9 ≤ a) (hp : a + 6 ≤ s.preambleLen) :
    EngineStepsTo s .marker2 (s.beginSection a)
  | streamEnd (c : Code) (hc : c = .ok ∨ c = .incompleteConsumption) :
    EngineStepsTo s .chunkHdr (s.streamResults.finish c)
  | truncated (cs : Word) (c : Code) (hc : c = .ok ∨ c = .truncatedChunk) :
    EngineStepsTo s .chunkHdr
      ((State.streamResults { s with dp := { s.dp with cs := cs.toNat } }).finish c)
  | record (cs : Word) (h4 : 4 ≤ s.dp.sl - s.dp.sp) (hcs : cs.toNat ≤ s.dp.sl - s.dp.sp - 4) :
    EngineStepsTo s .chunkHdr { s with phase := .busy .skip, dp := { s.dp with cs := cs.toNat } }
  | payload :
    EngineStepsTo s .skip (s.beginChunk (s.dp.sb + s.dp.sp + 4 + min 2 s.dp.cs) (s.dp.cs - 2))
  | initCtx (ctx : List Byte) (ht : HashTable) (hl : ctx.length = min 4 s.dp.n)
    (hht : ht = [] ∨ ctx.length = 4 ∧ ∃ h : BitVec 16, ht = [(h.toNat, 4)]) :
    EngineStepsTo s .initCtx
      { s with phase := .busy .mask, obuf := ctx, ht := ht, dp := { s.dp with ip := ctx.length } }
  | mask (m : Byte) (ho : s.olen < 0x10000) (hi : s.dp.ip < s.dp.n) :
    EngineStepsTo s .mask
      { s with phase := .busy .token, dp := { s.dp with mask := m, ip := s.dp.ip + 1, bi := 7 } }
  | groupsEnd : EngineStepsTo s .mask (s.goto .chunkEnd)
  | matchFault (c : Code) (l : Byte) (e : Option Nat) (i : MatchInfo)
    (hc : c = .unknownContext ∨ c = .selfReference) (hi : s.dp.ip < s.dp.n)
    (he : s.htLookup (hashOf (contextOf s.obuf)) = e) :
    EngineStepsTo s .token
      (State.raiseFault
        { s.beginStep l true false with dp := { (s.beginStep l true false).dp with e := e } } c (some i))
  | octet (q : Point) (cur : Byte) (bit exh : Bool) (e : Option Nat) (k b : Nat) (out : List Byte)
    (hi : exh = true ∨ s.dp.ip < s.dp.n)
    (he : e = s.dp.e ∨ s.htLookup (hashOf (contextOf s.obuf)) = e)
    (hk : k = s.dp.k ∨ k ≤ 255)
    (ho : s.olen ≤ out.length ∧ out.length ≤ s.olen + 255)
    (hb : b ≤ s.dp.bi)
    (hq : q = .chunkEnd ∨ q = .mask ∨ q = .token ∧ b < s.dp.bi) :
    EngineStepsTo s .token
      { s with
        phase := .busy q
        obuf := out
        ht := Sparse.put s.ht (hashOf (contextOf s.obuf)).toNat s.olen
        dp := { (s.beginStep cur bit exh).dp with e := e, k := k, bi := b } }
  | chunkCommandEnd (hm : s.dp.modeL = 2#2) : EngineStepsTo s .chunkEnd s.endChunkCmd
  | overflow (hm : s.dp.modeL ≠ 2#2) : EngineStepsTo s .chunkEnd (s.raiseFault .outputOverflow none)
  | append (hm : s.dp.modeL ≠ 2#2) (hf : s.dp.fwlen + min s.olen 0x10000 ≤ s.params.outCap) :
    EngineStepsTo s .chunkEnd
      { s with
        phase := .busy .chunkHdr
        outMem := Sparse.putRun s.outMem s.dp.fwlen s.chunkBytes
        dp := { s.dp with
          fwlen := s.dp.fwlen + min s.olen 0x10000
          nch := s.dp.nch + 1
          sp := s.dp.sp + 4 + s.dp.cs } }

/-! ### The host's turns -/

/-- A START that `start` accepts, refuses or ignores. -/
theorem hostStepsTo_start {s : State} {m : BitVec 2} {p : Point} {f : State → State}
    (ha : m ≠ 3#2 → s.phase.isBusy = false → s.inLen.toNat ≤ s.params.inCap →
      HostStepsTo s (f (s.clearForStart m p))) :
    HostStepsTo s (s.start m p f) := by
  rcases start_cases (s := s) m p f with ⟨-, h⟩ | ⟨hb, hm, h⟩ | ⟨hb, hm, hl, h⟩ <;> rw [h]
  · exact .access s.bus s.draws
  · exact .badCommand m p hb hm
  · exact ha hm hb hl

/-- A CTRL write is one of the six commands (30_encoding.md R82). -/
theorem hostStepsTo_ctrl {s t : State} (w : Word) (h : exec (decodeCtrl w) s = .next t) : HostStepsTo s t := by
  unfold decodeCtrl at h
  split at h
  case isTrue => cases h; exact .reset
  split at h
  case isFalse =>
    simp only [exec, execModeWrite, Host.Outcome.next.injEq] at h
    subst h
    split
    case isTrue => exact .access s.bus s.draws
    case isFalse hb => exact .modeWrite _ (Bool.not_eq_true _ ▸ hb)
  split at h <;> cases h
  · exact hostStepsTo_start fun _ => .decompressUpdate
  · exact hostStepsTo_start fun _ => .decodeStream
  · exact hostStepsTo_start fun _ => .decodeChunk
  · exact hostStepsTo_start fun hm => absurd rfl hm

/-- A register write runs a command, writes IN_LEN outside BUSY, or is ignored (44_commands.md R211). -/
theorem hostStepsTo_regWrite {s t : State} {width off : Nat} {v : Word} {rest : List HostOp}
    (hq : s.queue = .regWrite width off v :: rest) (h : step s = .next t) :
    HostStepsTo { s with queue := rest } t := by
  simp only [step, State.nextAction, hq, State.regWriteTurn] at h
  split_ifs at h with hr h0
  · exact hostStepsTo_ctrl v h
  · unfold State.writeRegister at h
    cases h
    split
    case isTrue hw => exact .inLenWrite v hw.2
    case isFalse => exact .access s.bus s.draws

theorem hostStepsTo_regRead {s t : State} {width off : Nat} (h : hostRegRead width off s = .next t) :
    HostStepsTo s t := by
  unfold hostRegRead at h
  split_ifs at h
  unfold State.readRegister at h
  split_ifs at h <;> cases h
  · exact .access _ _
  · exact .access _ s.draws

theorem hostStepsTo_inWrite {s t : State} {a : Nat} {b : Byte} (h : hostInWrite a b s = .next t) :
    HostStepsTo s t := by
  unfold hostInWrite at h
  split_ifs at h with hb ha
  cases h
  exact .inWrite a b (Bool.not_eq_true _ ▸ hb) (Nat.not_le.1 ha)

theorem hostStepsTo_outRead {s t : State} {a : Nat} (h : hostOutRead a s = .next t) : HostStepsTo s t := by
  unfold hostOutRead at h
  split_ifs at h <;> cases h
  · exact .access _ _
  · exact .access _ s.draws

/-! ### The engine's turns -/

/-- The search at `marker1` (43_container_locator.md R182, R183). -/
theorem engineStepsTo_firstMarker (s : State) : EngineStepsTo s .marker1 s.firstMarker := by
  rcases firstMarker_cases (s := s) with ⟨-, h⟩ | ⟨a, -, -, h⟩ | ⟨a, hf, h8, h⟩ <;> rw [h]
  · exact .marker1NotFound
  · exact .headerRange
  · exact .marker1Found a h8 (findMarker_bound hf).2

/-- The search at `marker2` (43_container_locator.md R185). -/
theorem engineStepsTo_secondMarker (s : State) : EngineStepsTo s .marker2 s.secondMarker := by
  rcases secondMarker_cases (s := s) with ⟨-, h⟩ | ⟨a, hf, h⟩ <;> rw [h]
  · exact .marker2NotFound
  · exact .marker2Found a (findMarker_bound hf).1 (findMarker_bound hf).2

/-- The end of the stream where fewer than four bytes are left (42_chunk_stream.md R161). -/
theorem engineStepsTo_endStream (s : State) : EngineStepsTo s .chunkHdr (s.endStream false) := by
  rcases endStream_cases (s := s) false with ⟨-, h⟩ | ⟨-, hb, -⟩ | ⟨-, -, h⟩
  · rw [h]; exact .streamEnd .ok (.inl rfl)
  · cases hb
  · rw [h]; exact .streamEnd .incompleteConsumption (.inr rfl)

/-- A chunk-size field takes its record or ends the stream truncated (42_chunk_stream.md R162). -/
theorem engineStepsTo_chunkHdr {s t : State} {cs : Word} (h4 : 4 ≤ s.dp.sl - s.dp.sp)
    (h : execChunkHdr cs s = .next t) : EngineStepsTo s .chunkHdr t := by
  unfold execChunkHdr at h
  split_ifs at h with hcs <;> cases h
  · rcases endStream_cases (s := { s with dp := { s.dp with cs := cs.toNat } }) true with
      ⟨-, h⟩ | ⟨-, -, h⟩ | ⟨-, hb, -⟩
    · rw [h]; exact .truncated cs .ok (.inl rfl)
    · rw [h]; exact .truncated cs .truncatedChunk (.inr rfl)
    · cases hb
  · exact .record cs h4 (Nat.not_lt.1 hcs)

/-- The initial context leaves HT empty or with its one entry 4 (41_chunk_decoder.md R121, R122). -/
theorem engineStepsTo_initCtx {s t : State} {ctx : List Byte} (hl : ctx.length = min 4 s.dp.n)
    (h : execInitCtx ctx s = .next t) : EngineStepsTo s .initCtx t := by
  unfold execInitCtx at h
  cases h
  split
  case isTrue => exact .initCtx ctx [] hl (.inl rfl)
  case isFalse hn =>
    simp only [Config.ctxLen] at hn
    have h4 : ctx.length = 4 := by omega
    have hht : Sparse.put [] (hashOf (contextOf ctx)).toNat ctx.length = [((hashOf (contextOf ctx)).toNat, 4)] := by
      rw [h4]; rfl
    exact .initCtx ctx _ hl (.inr ⟨h4, _, hht⟩)

/-- The point a step goes on to, and the bit it leaves (41_chunk_decoder.md R125, R136). -/
theorem endStep_cases (u : State) :
    ∃ q b, b ≤ u.dp.bi ∧ (q = .chunkEnd ∨ q = .mask ∨ q = .token ∧ b < u.dp.bi) ∧
      u.endStep =
        { u with
          phase := .busy q, ht := Sparse.put u.ht u.dp.hash.toNat u.dp.pre, dp := { u.dp with bi := b } } := by
  unfold State.endStep State.nextBit
  split_ifs with hx hb
  · exact ⟨.chunkEnd, u.dp.bi, le_rfl, .inl rfl, rfl⟩
  · exact ⟨.mask, u.dp.bi, le_rfl, .inr (.inl rfl), rfl⟩
  · have hb : u.dp.bi ≠ 0 := hb
    exact ⟨.token, u.dp.bi - 1, by omega, .inr (.inr ⟨rfl, by omega⟩), rfl⟩

/-- The epilogue of a step that has appended what it appends and read what it reads. -/
theorem engineStepsTo_endStep {s : State} {cur : Byte} {bit exh : Bool} {e : Option Nat} {k : Nat} {out : List Byte}
    (hi : exh = true ∨ s.dp.ip < s.dp.n)
    (he : e = s.dp.e ∨ s.htLookup (hashOf (contextOf s.obuf)) = e)
    (hk : k = s.dp.k ∨ k ≤ 255)
    (ho : s.olen ≤ out.length ∧ out.length ≤ s.olen + 255) :
    EngineStepsTo s .token
      (State.endStep
        { s.beginStep cur bit exh with obuf := out, dp := { (s.beginStep cur bit exh).dp with e := e, k := k } }) := by
  obtain ⟨q, b, hb, hq, h⟩ := endStep_cases
    { s.beginStep cur bit exh with obuf := out, dp := { (s.beginStep cur bit exh).dp with e := e, k := k } }
  rw [h]
  exact .octet q cur bit exh e k b out hi he hk ho hb hq

/-- A step that appends one byte: a literal or a pad. -/
theorem engineStepsTo_appendByte {s : State} {cur o : Byte} {exh : Bool} (hi : exh = true ∨ s.dp.ip < s.dp.n) :
    EngineStepsTo s .token ((s.beginStep cur false exh).append o).endStep :=
  engineStepsTo_endStep (e := s.dp.e) (k := s.dp.k) (out := s.obuf ++ [o]) hi (.inl rfl) (.inl rfl)
    (by simp [State.olen])

/-- A match faults or copies (41_chunk_decoder.md R129 to R134). -/
theorem engineStepsTo_matchLen {s t : State} {l : Byte} (hi : s.dp.ip < s.dp.n) (h : execMatchLen l s = .next t) :
    EngineStepsTo s .token t := by
  rcases execMatchLen_cases (s := s) l with ⟨he, h'⟩ | ⟨e, he, -, -, h'⟩ | ⟨e, he, -, h'⟩ <;>
    rw [h'] at h <;> cases h
  · exact .matchFault .unknownContext l none _ (.inl rfl) hi he
  · exact .matchFault .selfReference l (some e) _ (.inr rfl) hi he
  · have hl := l.isLt
    exact engineStepsTo_endStep (.inr hi) (.inr he) (.inr (by omega)) (by rw [copyLoop_length, State.olen]; omega)

/-- The end of a chunk (41_chunk_decoder.md R137; 42_chunk_stream.md R165, R166; 44_commands.md R205). -/
theorem engineStepsTo_endChunk (s : State) : EngineStepsTo s .chunkEnd s.endChunk := by
  rcases endChunk_cases (s := s) with ⟨hm, h⟩ | ⟨hm, -, h⟩ | ⟨hm, hf, h⟩ <;> rw [h]
  · exact .chunkCommandEnd hm
  · exact .overflow hm
  · exact .append hm hf

theorem engineStepsTo_of_engineStep {s t : State} {p : Point} (hp : s.phase = .busy p)
    (h : s.engineStep = .next t) : EngineStepsTo s p t := by
  rcases engineStep_cases hp with ⟨rfl, h'⟩ | ⟨rfl, h'⟩ | ⟨rfl, size, crc, -, h'⟩ | ⟨rfl, -, h'⟩ | ⟨rfl, h4, h'⟩ |
    ⟨rfl, h'⟩ | ⟨rfl, h'⟩ | ⟨rfl, ho, hi, h'⟩ | ⟨rfl, -, h'⟩ | ⟨rfl, hi, -, h'⟩ | ⟨rfl, hi, -, h'⟩ | ⟨rfl, -, h'⟩ |
    ⟨rfl, h'⟩ <;> rw [h'] at h
  · cases h; exact engineStepsTo_firstMarker s
  · cases h; exact engineStepsTo_secondMarker s
  · cases h; exact .secHdr size crc
  · cases h; exact engineStepsTo_endStream s
  · exact engineStepsTo_chunkHdr h4 h
  · cases h; exact .payload
  · exact engineStepsTo_initCtx (inBytes_length ..) h
  · cases h; exact .mask _ ho hi
  · cases h; exact .groupsEnd
  · exact engineStepsTo_matchLen hi h
  · cases h; exact engineStepsTo_appendByte (.inr hi)
  · cases h; exact engineStepsTo_appendByte (.inl rfl)
  · cases h; exact engineStepsTo_endChunk s

/-! ### One step -/

/-- An engine's turn outside BUSY is no more than an access of the host that reads nothing. -/
theorem engineTurn_cases {s t : State} (h : s.engineStep = .next t) :
    HostStepsTo s t ∨ ∃ p, s.phase = .busy p ∧ EngineStepsTo s p t := by
  cases hb : s.phase.isBusy with
  | false =>
    rw [engineStep_of_not_busy hb] at h
    cases h
    exact .inl (.access s.bus s.draws)
  | true =>
    obtain ⟨p, hp⟩ := (Phase.isBusy_iff _).1 hb
    exact .inr ⟨p, hp, engineStepsTo_of_engineStep hp h⟩

/-- A step takes the pending turn off the queue, where it ends, and is then a turn of the host or of the engine. -/
theorem step_cases {s t : State} (h : step s = .next t) :
    ∃ rest, HostStepsTo { s with queue := rest } t ∨
      ∃ p, s.phase = .busy p ∧ EngineStepsTo { s with queue := rest } p t := by
  cases hq : s.queue with
  | nil => exact ⟨s.queue, engineTurn_cases (step_of_nil hq ▸ h)⟩
  | cons op rest =>
    cases op with
    | regWrite width off v => exact ⟨rest, .inl (hostStepsTo_regWrite hq h)⟩
    | regRead width off =>
      simp only [step, State.nextAction, hq] at h
      exact ⟨rest, .inl (hostStepsTo_regRead h)⟩
    | inWrite a b =>
      simp only [step, State.nextAction, hq] at h
      exact ⟨rest, .inl (hostStepsTo_inWrite h)⟩
    | outRead a =>
      simp only [step, State.nextAction, hq] at h
      exact ⟨rest, .inl (hostStepsTo_outRead h)⟩
    | pollDone =>
      cases hd : s.phase.isDone with
      | true =>
        rw [step_of_poll_done hq hd] at h
        cases h
        exact ⟨rest, .inl (.access _ s.draws)⟩
      | false => exact ⟨s.queue, engineTurn_cases (step_of_poll hq hd ▸ h)⟩
    | engineTurn => exact ⟨rest, engineTurn_cases (step_of_engineTurn hq ▸ h)⟩
    | hardReset =>
      simp only [step, State.nextAction, hq] at h
      cases h
      exact ⟨rest, .inl .reset⟩

/-- A property that does not look at the pending turns, and that every turn of the host and of the engine keeps, is kept
by every step. -/
theorem step_keeps {P : State → Prop} (hqueue : ∀ s q, P s → P { s with queue := q })
    (hhost : ∀ s t, P s → HostStepsTo s t → P t)
    (hengine : ∀ s t p, P s → s.phase = .busy p → EngineStepsTo s p t → P t)
    {s t : State} (hs : P s) (h : step s = .next t) : P t := by
  obtain ⟨rest, hh | ⟨p, hp, he⟩⟩ := step_cases h
  · exact hhost _ _ (hqueue s rest hs) hh
  · exact hengine _ _ p (hqueue s rest hs) hp he

/-! ## The parameters -/

theorem HostStepsTo.params_eq {s t : State} (h : HostStepsTo s t) : t.params = s.params := by
  cases h <;> rfl

theorem EngineStepsTo.params_eq {s t : State} {p : Point} (h : EngineStepsTo s p t) : t.params = s.params := by
  cases h <;> rfl

/-- No step changes the parameters of the build (00_scope.md R8, log 1). -/
theorem step_params {s t : State} (h : step s = .next t) : t.params = s.params :=
  step_keeps (P := fun u => u.params = s.params) (fun _ _ hu => hu) (fun _ _ hu hh => hh.params_eq.trans hu)
    (fun _ _ _ hu _ he => he.params_eq.trans hu) rfl h

/-! ## The classes of outcomes (60_exceptions.md R220) -/

theorem statusInv_of_not_done {s : State} (hp : s.phase ≠ .done) :
    StatusInv s ↔ s.success = false ∧ s.fault = false ∧ s.code.bits.toNat = 0 := by
  unfold StatusInv
  cases h : s.phase with
  | done => exact absurd h hp
  | idle => exact Iff.rfl
  | busy p => exact Iff.rfl

theorem statusInv_of_done {s : State} (hp : s.phase = .done) :
    StatusInv s ↔
      (s.success = true ∧ s.fault = false ∧ s.code.bits.toNat = 0) ∨
      (s.success = false ∧ s.fault = false ∧ 1 ≤ s.code.bits.toNat ∧ s.code.bits.toNat ≤ 5) ∨
      (s.success = false ∧ s.fault = true ∧ 8 ≤ s.code.bits.toNat ∧ s.code.bits.toNat ≤ 11) := by
  unfold StatusInv
  rw [hp]

/-- The classes of outcomes are a matter of the phase and the flags alone. -/
theorem StatusInv.congr {s t : State} (hs : StatusInv s) (hp : t.phase = s.phase) (hf : SameFlags s t) :
    StatusInv t := by
  unfold StatusInv at hs ⊢
  rw [hp, hf.success, hf.fault, hf.code]
  exact hs

/-- A BUSY engine that goes on leaves the flags 0. -/
theorem StatusInv.of_busy {s t : State} {p q : Point} (hs : StatusInv s) (hp : s.phase = .busy p)
    (hq : t.phase = .busy q) (hf : SameFlags s t) : StatusInv t := by
  rw [statusInv_of_not_done (by simp [hp])] at hs
  rw [statusInv_of_not_done (by simp [hq]), hf.success, hf.fault, hf.code]
  exact hs

/-- An accepted command begins with the flags 0. -/
theorem statusInv_of_cleared {s : State} (hp : s.phase ≠ .done) (hs : s.success = false) (hf : s.fault = false)
    (hc : s.code = .ok) : StatusInv s :=
  (statusInv_of_not_done hp).2 ⟨hs, hf, by rw [hc]; rfl⟩

theorem Code.bits_eq_zero_iff (c : Code) : c.bits.toNat = 0 ↔ c = .ok := by
  cases c <;> decide

/-- A command that ends by `finish` succeeds with OK and fails with a code from 1 to 5. -/
theorem statusInv_finish (s : State) {c : Code} (hc : c.bits.toNat ≤ 5) : StatusInv (s.finish c) := by
  rw [statusInv_of_done rfl]
  by_cases hok : c = .ok
  · subst hok
    exact .inl ⟨rfl, rfl, rfl⟩
  · exact .inr (.inl ⟨decide_eq_false hok, rfl, Nat.pos_of_ne_zero (mt (Code.bits_eq_zero_iff c).1 hok), hc⟩)

/-- A command that ends by a fault has a code from 8 to 11. -/
theorem statusInv_raiseFault (s : State) {c : Code} (i : Option MatchInfo)
    (hc : 8 ≤ c.bits.toNat ∧ c.bits.toNat ≤ 11) : StatusInv (s.raiseFault c i) :=
  (statusInv_of_done rfl).2 (.inr (.inr ⟨rfl, rfl, hc⟩))

theorem HostStepsTo.keeps_statusInv {s t : State} (hs : StatusInv s) (h : HostStepsTo s t) : StatusInv t := by
  cases h with
  | access | modeWrite | inLenWrite | inWrite => exact hs.congr rfl ⟨rfl, rfl, rfl⟩
  | reset | decompressUpdate | decodeStream | decodeChunk => exact statusInv_of_cleared nofun rfl rfl rfl
  | badCommand => exact statusInv_raiseFault _ _ (by decide)

theorem EngineStepsTo.keeps_statusInv {s t : State} {p : Point} (hs : StatusInv s) (hp : s.phase = .busy p)
    (h : EngineStepsTo s p t) : StatusInv t := by
  cases h with
  | marker1NotFound | headerRange | marker2NotFound | chunkCommandEnd => exact statusInv_finish _ (by decide)
  | streamEnd c hc | truncated _ c hc => rcases hc with rfl | rfl <;> exact statusInv_finish _ (by decide)
  | matchFault c l e i hc => rcases hc with rfl | rfl <;> exact statusInv_raiseFault _ _ (by decide)
  | overflow => exact statusInv_raiseFault _ _ (by decide)
  | marker1Found | secHdr | marker2Found | record | payload | initCtx | mask | groupsEnd | octet | append =>
    exact hs.of_busy hp rfl ⟨rfl, rfl, rfl⟩

theorem step_keeps_statusInv {s t : State} (hs : StatusInv s) (h : step s = .next t) : StatusInv t :=
  step_keeps (fun _ _ hu => hu) (fun _ _ hu hh => hh.keeps_statusInv hu)
    (fun _ _ _ hu hp he => he.keeps_statusInv hu hp) hs h

/-- SUCCESS implies FAULT = 0 and CODE = 0 (10_state.md R24). -/
theorem StatusInv.of_success {s : State} (hs : StatusInv s) (h : s.success = true) :
    s.fault = false ∧ s.code.bits = 0#4 := by
  by_cases hp : s.phase = .done
  · rcases (statusInv_of_done hp).1 hs with ⟨-, hf, hc⟩ | ⟨hn, -⟩ | ⟨hn, -⟩
    · exact ⟨hf, BitVec.eq_of_toNat_eq hc⟩
    · simp [hn] at h
    · simp [hn] at h
  · obtain ⟨hn, -⟩ := (statusInv_of_not_done hp).1 hs
    simp [hn] at h

/-- FAULT implies CODE ≥ 8 (10_state.md R24). -/
theorem StatusInv.of_fault {s : State} (hs : StatusInv s) (h : s.fault = true) : 8 ≤ s.code.bits.toNat := by
  by_cases hp : s.phase = .done
  · rcases (statusInv_of_done hp).1 hs with ⟨-, hn, -⟩ | ⟨-, hn, -⟩ | ⟨-, -, h8, -⟩
    · simp [hn] at h
    · simp [hn] at h
    · exact h8
  · obtain ⟨-, hn, -⟩ := (statusInv_of_not_done hp).1 hs
    simp [hn] at h

/-- Settles O49: the classes are kept by every turn, and the implications of R24 are read off the classes. -/
theorem stepKeepsTheOutcomeClasses : Obligations.StepKeepsTheOutcomeClasses := by
  intro s t hs h
  have ht := step_keeps_statusInv hs h
  exact ⟨ht, ht.of_success, ht.of_fault⟩

/-! ## The registers the host reads -/

theorem paramsWord_eq (s : State) :
    s.paramsWord = if s.params.padPolicy = .padOnce then 1#32 else 0#32 := by
  unfold State.paramsWord
  cases s.params.padPolicy <;> rfl

/-- The offsets after PARAMS are reserved and read 0 (10_state.md R32). -/
theorem regWord_reserved (s : State) {off : Nat} (h : 0x38 ≤ off) : s.regWord off = 0#32 := by
  unfold State.regWord
  split
  case h_15 => rfl
  all_goals omega

/-- A word read at an offset of the map outside BUSY takes its turn and puts the register on the bus (44_commands.md
R212). -/
theorem step_of_regRead {s : State} {off : Nat} {rest : List HostOp} (hq : s.queue = .regRead 4 off :: rest)
    (hb : s.phase.isBusy = false) (h4 : off % 4 = 0) (hm : off ≤ 0xFC) :
    step s = .next { s with queue := rest, bus := s.regWord off } := by
  have hr : isRegisterAccess 4 off = true := by simp [isRegisterAccess, h4, hm]
  simp only [step, State.nextAction, hq, hostRegRead, hr, State.readRegister, hb]
  rfl

/-- Settles O38: the read is `step_of_regRead`; what is left is the map. -/
theorem registerReadsFollowTheMap : Obligations.RegisterReadsFollowTheMap := by
  intro s rest off v hb hq hmap
  have key : off % 4 = 0 ∧ off ≤ 0xFC ∧ v = s.regWord off := by
    rcases hmap with ⟨rfl, rfl⟩ | ⟨rfl, rfl⟩ | ⟨rfl, rfl⟩ | ⟨rfl, rfl⟩ | ⟨rfl, rfl⟩ | ⟨rfl, rfl⟩ | ⟨rfl, rfl⟩ |
      ⟨rfl, rfl⟩ | ⟨rfl, rfl⟩ | ⟨rfl, rfl⟩ | ⟨rfl, rfl⟩ | ⟨rfl, rfl⟩ | ⟨rfl, rfl⟩ | ⟨rfl, hv⟩ | ⟨h38, hm, h4, hv⟩
    iterate 13 exact ⟨rfl, by decide, rfl⟩
    · exact ⟨rfl, by decide, hv.trans (paramsWord_eq s).symm⟩
    · exact ⟨h4, hm, hv.trans (regWord_reserved s h38).symm⟩
  obtain ⟨h4, hm, hv⟩ := key
  rw [hv]
  exact step_of_regRead hq hb h4 hm

/-- Settles O40: PARAMS is a view of the parameters, which no step changes. -/
theorem paramsIsConstant : Obligations.ParamsIsConstant := by
  refine ⟨fun s => ?_, fun s t h => ?_⟩
  · have hw : s.regWord 0x34 = s.paramsWord := rfl
    rw [hw, paramsWord_eq]
    cases s.params.padPolicy <;> decide
  · have hp := step_params h
    have hw (u : State) : u.regWord 0x34 = u.paramsWord := rfl
    exact ⟨hp, by rw [hw, hw, paramsWord_eq, paramsWord_eq, hp]⟩

/-- The four lowest bits of a word with four flags below it, and the word above them. -/
theorem getLsbD_flags_below {n : Nat} (x : BitVec n) (f u d b : Bool) :
    ((((x.concat f).concat u).concat d).concat b).getLsbD 0 = b ∧
    ((((x.concat f).concat u).concat d).concat b).getLsbD 1 = d ∧
    ((((x.concat f).concat u).concat d).concat b).getLsbD 2 = u ∧
    ((((x.concat f).concat u).concat d).concat b).getLsbD 3 = f ∧
    ∀ i, ((((x.concat f).concat u).concat d).concat b).getLsbD (i + 4) = x.getLsbD i := by
  refine ⟨?_, ?_, ?_, ?_, fun i => ?_⟩
  · simp
  · simp
  · simp
  · simp
  · simp only [BitVec.getLsbD_concat_succ]

theorem getLsbD_statusWord (s : State) :
    s.statusWord.getLsbD 0 = s.phase.isBusy ∧ s.statusWord.getLsbD 1 = s.phase.isDone ∧
    s.statusWord.getLsbD 2 = s.success ∧ s.statusWord.getLsbD 3 = s.fault ∧
    ∀ i, s.statusWord.getLsbD (i + 4) = (0#24 ++ s.code.bits).getLsbD i :=
  getLsbD_flags_below (0#24 ++ s.code.bits) s.fault s.success s.phase.isDone s.phase.isBusy

/-- Settles O37: the flags are `getLsbD_statusWord`, and CODE and the zeros are the bits above them. -/
theorem statusWordLayout : Obligations.StatusWordLayout := by
  refine ⟨fun s => ?_, by decide⟩
  obtain ⟨hbusy, hdone, hsuccess, hfault, habove⟩ := getLsbD_statusWord s
  refine ⟨hbusy, hdone, hsuccess, hfault, ?_, ?_, ?_⟩
  · ext i hi
    rw [BitVec.getElem_extractLsb', Nat.add_comm, habove, BitVec.getLsbD_append, if_pos hi]
    rfl
  · ext i hi
    rw [BitVec.getElem_extractLsb', show 8 + i = 4 + i + 4 by omega, habove, BitVec.getLsbD_append, if_neg (by omega)]
    simp
  · rw [hbusy, hdone]
    exact Phase.isBusy_isDone s.phase

end Sys2Proof.Machine

namespace Sys2Proof.Machine

/-! ## The memories (20_memory.md R50, R52) -/

/-- A table in canonical form whose keys are all below `n`. -/
def Sparse.FitsIn {α : Type} (m : List (Nat × α)) (n : Nat) : Prop := Sparse.Sorted m ∧ ∀ c ∈ m, c.1 < n

theorem memoryInv_iff (s : State) :
    MemoryInv s ↔ Sparse.FitsIn s.inMem s.params.inCap ∧ Sparse.FitsIn s.outMem s.params.outCap ∧
      Sparse.FitsIn s.ht Config.htEntries :=
  ⟨fun ⟨hi, ho, ht, ci, co, ct⟩ => ⟨⟨hi, ci⟩, ⟨ho, co⟩, ht, ct⟩,
    fun ⟨⟨hi, ci⟩, ⟨ho, co⟩, ht, ct⟩ => ⟨hi, ho, ht, ci, co, ct⟩⟩

namespace Sparse.FitsIn

variable {α : Type} {m : List (Nat × α)} {n : Nat}

theorem nil : FitsIn ([] : List (Nat × α)) n := ⟨List.Pairwise.nil, fun _ hc => nomatch hc⟩

theorem putRun {base : Nat} {vs : List α} (h : FitsIn m n) (hb : base + vs.length ≤ n) :
    FitsIn (Sparse.putRun m base vs) n := by
  refine ⟨sorted_putRun base vs h.1, fun c hc => ?_⟩
  rcases mem_putRun hc with hm | ⟨-, hlt, -⟩
  · exact h.2 c hm
  · omega

theorem put {a : Nat} (v : α) (h : FitsIn m n) (ha : a < n) : FitsIn (Sparse.put m a v) n :=
  h.putRun (vs := [v]) ha

end Sparse.FitsIn

theorem HostStepsTo.keeps_memoryInv {s t : State} (hs : MemoryInv s) (h : HostStepsTo s t) : MemoryInv t := by
  obtain ⟨hin, hout, hht⟩ := (memoryInv_iff s).1 hs
  cases h with
  | inWrite a b _ ha => exact (memoryInv_iff _).2 ⟨hin.put b ha, hout, hht⟩
  | reset => exact (memoryInv_iff _).2 ⟨hin, hout, .nil⟩
  | access | modeWrite | inLenWrite | badCommand | decompressUpdate | decodeStream | decodeChunk => exact hs

/-- DECODE_CHUNK writes at most 0x10000 bytes, which every legal OUT holds. -/
theorem EngineStepsTo.keeps_memoryInv {s t : State} {p : Point} (hl : s.params.Legal) (hs : MemoryInv s)
    (h : EngineStepsTo s p t) : MemoryInv t := by
  obtain ⟨hin, hout, hht⟩ := (memoryInv_iff s).1 hs
  have hlen := chunkBytes_length (s := s)
  cases h with
  | initCtx ctx ht _ hc =>
    refine (memoryInv_iff _).2 ⟨hin, hout, ?_⟩
    rcases hc with rfl | ⟨-, g, rfl⟩
    · exact .nil
    · exact Sparse.FitsIn.nil.put 4 g.isLt
  | octet => exact (memoryInv_iff _).2 ⟨hin, hout, hht.put _ (hashOf _).isLt⟩
  | chunkCommandEnd =>
    obtain ⟨-, -, hcap, -⟩ := hl
    exact (memoryInv_iff _).2 ⟨hin, hout.putRun (by omega), hht⟩
  | append _ hf => exact (memoryInv_iff _).2 ⟨hin, hout.putRun (by omega), hht⟩
  | marker1NotFound | headerRange | marker1Found | secHdr | marker2NotFound | marker2Found | streamEnd | truncated |
    record | payload | mask | groupsEnd | matchFault | overflow => exact hs

/-! ## What holds at a point and at the end of a command -/

theorem engineInv_of_busy {s : State} {p : Point} (hp : s.phase = .busy p) :
    EngineInv s ↔ s.inLen.toNat ≤ s.params.inCap ∧ PointInv s p ∧ BusyResults s p := by
  unfold EngineInv
  rw [hp]

theorem engineInv_of_done {s : State} (hp : s.phase = .done) : EngineInv s ↔ DoneResults s := by
  unfold EngineInv
  rw [hp]

/-- FAULT_* are 0 (10_state.md R30). -/
def NoFaultInfo (r : Results) : Prop :=
  r.faultChunk = 0#32 ∧ r.faultPos = 0#32 ∧ r.faultInfo = 0#32 ∧ r.faultIpos = 0#32

/-- The ends of a command that has written no result register (10_state.md R26 to R30). -/
abbrev Code.LeavesNoResults (c : Code) : Prop :=
  c = .marker1NotFound ∨ c = .marker2NotFound ∨ c = .headerRange ∨ c = .badCommand

/-- The points of Locate, at which the section registers are still 0. -/
abbrev Point.inLocator (p : Point) : Prop := p = .marker1 ∨ p = .secHdr ∨ p = .marker2

theorem BusyResults.noFaultInfo {s : State} {p : Point} (h : BusyResults s p) : NoFaultInfo s.results := by
  obtain ⟨-, -, -, hc, hp, hi, ha, -⟩ := h
  exact ⟨hc, hp, hi, ha⟩

/-- Until the section is located every result register is 0. -/
theorem busyResults_locator {s : State} {p : Point} (hp : p.inLocator) :
    BusyResults s p ↔ s.results = Results.zero := by
  have hn : ¬ (s.dp.modeL = 0#2 ∧ p ≠ .marker1 ∧ p ≠ .secHdr ∧ p ≠ .marker2) := by
    rintro ⟨-, h1, h2, h3⟩
    rcases hp with h | h | h
    · exact h1 h
    · exact h2 h
    · exact h3 h
  rw [BusyResults, if_neg hn]
  cases s.results
  simp [Results.zero]
  tauto

/-- A command that locates no section begins with every result register 0. -/
theorem busyResults_zero {s : State} {p : Point} (hm : s.dp.modeL ≠ 0#2) (hz : s.results = Results.zero) :
    BusyResults s p := by
  rw [BusyResults, if_neg (fun h => hm h.1), hz]
  exact ⟨rfl, rfl, rfl, rfl, rfl, rfl, rfl, rfl, rfl, rfl⟩

/-- After Locate the result registers stay as they are. -/
theorem BusyResults.of_not_inLocator {s t : State} {p q : Point} (h : BusyResults s p) (hp : ¬ p.inLocator)
    (hq : ¬ q.inLocator) (hr : t.results = s.results) (hm : t.dp.modeL = s.dp.modeL) : BusyResults t q := by
  simp only [Point.inLocator, not_or] at hp hq
  simpa [BusyResults, hr, hm, hp, hq] using h

theorem doneResults_zero {s : State} (hz : s.results = Results.zero) : DoneResults s := by
  rw [DoneResults, hz]
  exact ⟨fun _ => rfl, fun _ _ => ⟨rfl, rfl, rfl, rfl⟩, Nat.zero_le _, fun a ha => absurd ha (Nat.not_lt_zero a)⟩

/-- A command that decoded something ends with OUT_LEN bytes written and in OUT. -/
theorem doneResults_of_written {s : State} {n : Nat}
    (hc : ¬ s.code.LeavesNoResults)
    (hf : s.code = .unknownContext ∨ s.code = .selfReference ∨ NoFaultInfo s.results)
    (hn : s.results.outLen = BitVec.ofNat 32 n) (hcap : n ≤ s.params.outCap)
    (hout : ∀ a, a < n → (Sparse.get s.outMem a).isSome = true) : DoneResults s := by
  have hle : s.results.outLen.toNat ≤ n := by
    rw [hn, BitVec.toNat_ofNat]
    exact Nat.mod_le n _
  refine ⟨fun h => absurd h hc, fun hu hs => ?_, hle.trans hcap, fun a ha => hout a (ha.trans_le hle)⟩
  rcases hf with h | h | h
  · exact absurd h hu
  · exact absurd h hs
  · exact h

/-- The stream a payload belongs to, where there is one. -/
theorem PayloadInv.stream {s : State} (h : PayloadInv s) (hm : s.dp.modeL ≠ 2#2) : StreamInv s :=
  (h.2.resolve_left hm).1.1

/-- OUT_LEN after a fault of the decoder or of the framer (60_exceptions.md R232). -/
theorem faultResults_outLen (s : State) {c : Code} (hc : c ≠ .badCommand) (i : Option MatchInfo) :
    (s.faultResults c i).outLen = BitVec.ofNat 32 (if s.dp.modeL = 2#2 then 0 else s.dp.fwlen) := by
  cases i <;> by_cases hm : s.dp.modeL = 2#2 <;> simp [State.faultResults, hc, hm]

/-- A decoder fault or an overflow ends a command that meets the invariant of its payload. -/
theorem doneResults_raiseFault {s : State} {c : Code} {i : Option MatchInfo} (hp : PayloadInv s)
    (hc : c = .unknownContext ∨ c = .selfReference ∨ c = .outputOverflow ∧ NoFaultInfo (s.faultResults c i)) :
    DoneResults (s.raiseFault c i) := by
  have hcode : ¬ c.LeavesNoResults := by
    rcases hc with rfl | rfl | ⟨rfl, -⟩ <;> decide
  have hw : (if s.dp.modeL = 2#2 then 0 else s.dp.fwlen) ≤ s.params.outCap ∧
      ∀ a, a < (if s.dp.modeL = 2#2 then 0 else s.dp.fwlen) → (Sparse.get s.outMem a).isSome = true := by
    split
    case isTrue => simp
    case isFalse hm =>
      obtain ⟨-, -, -, -, hcap, hout⟩ := hp.stream hm
      exact ⟨hcap, hout⟩
  exact doneResults_of_written hcode (hc.imp_right (Or.imp_right And.right))
    (faultResults_outLen s (fun h => hcode (.inr (.inr (.inr h)))) i) hw.1 hw.2

/-- A stream ends with FWLEN bytes written. -/
theorem doneResults_endStream {s : State} {c : Code} (hs : StreamInv s) (hr : NoFaultInfo s.results)
    (hc : c = .ok ∨ c = .truncatedChunk ∨ c = .incompleteConsumption) :
    DoneResults (s.streamResults.finish c) := by
  obtain ⟨-, -, -, -, hcap, hout⟩ := hs
  exact doneResults_of_written (s := s.streamResults.finish c) (n := s.dp.fwlen)
    (by rw [State.finish_code]; rcases hc with rfl | rfl | rfl <;> decide) (.inr (.inr hr)) rfl hcap hout

/-- The bytes of a run that has just been written are written, and so are those written before. -/
theorem isSome_get_putRun {α : Type} {m : List (Nat × α)} {base a : Nat} {vs : List α}
    (hm : a < base → (Sparse.get m a).isSome = true) (ha : a < base + vs.length) :
    (Sparse.get (Sparse.putRun m base vs) a).isSome = true := by
  rw [Sparse.get_putRun]
  by_cases hb : base ≤ a
  · rw [if_pos ⟨hb, ha⟩, List.getElem?_eq_getElem (by omega)]
    rfl
  · rw [if_neg (fun h => hb h.1)]
    exact hm (Nat.not_le.1 hb)

/-- DECODE_CHUNK ends with its output written from 0 on. -/
theorem doneResults_endChunkCmd {s : State} (hl : s.params.Legal) (hr : NoFaultInfo s.results) :
    DoneResults s.endChunkCmd := by
  obtain ⟨-, -, hcap, -⟩ := hl
  have hlen := chunkBytes_length (s := s)
  refine doneResults_of_written (s := s.endChunkCmd) (n := s.chunkBytes.length) ?_ (.inr (.inr hr)) rfl ?_ ?_
  · show ¬ Code.ok.LeavesNoResults
    decide
  · show s.chunkBytes.length ≤ s.params.outCap
    omega
  · exact fun a ha => isSome_get_putRun (fun h => absurd h (Nat.not_lt_zero a)) (by omega)

/-! ## The engine's part of the invariant -/

/-- What a lookup reads is an entry, within the bounds of the entries (41_chunk_decoder.md R140). -/
theorem ChunkInv.lookup_le {s : State} (h : ChunkInv s) {g : BitVec 16} {e : Nat} (he : s.htLookup g = some e) :
    e ≤ s.olen := by
  obtain ⟨-, -, -, hht⟩ := h
  exact (hht _ (Sparse.get_mem he)).2

/-- Outside BUSY the engine's part speaks of the result registers, the code, the parameters and OUT alone. -/
theorem EngineInv.of_not_busy {s t : State} (hs : EngineInv s) (hb : s.phase.isBusy = false)
    (hp : t.phase = s.phase) (hr : t.results = s.results) (hc : t.code = s.code) (hq : t.params = s.params)
    (ho : t.outMem = s.outMem) : EngineInv t := by
  unfold EngineInv DoneResults at hs ⊢
  rw [hp, hr, hc, hq, ho]
  cases hph : s.phase with
  | busy p => simp [hph] at hb
  | idle => simpa [hph] using hs
  | done => simpa [hph] using hs

theorem HostStepsTo.keeps_engineInv {s t : State} (hs : EngineInv s) (h : HostStepsTo s t) : EngineInv t := by
  cases h with
  | access | modeWrite => exact hs
  | inLenWrite _ hb | inWrite _ _ hb => exact hs.of_not_busy hb rfl rfl rfl rfl rfl
  | reset => exact (rfl : Results.zero = Results.zero)
  | badCommand => exact (engineInv_of_done rfl).2 (doneResults_zero rfl)
  | decompressUpdate _ hl =>
    exact (engineInv_of_busy (p := .marker1) rfl).2 ⟨hl, rfl, (busyResults_locator (.inl rfl)).2 rfl⟩
  | decodeStream _ hl =>
    refine (engineInv_of_busy rfl).2 ⟨hl, ?_, busyResults_zero (by decide : (1#2 : BitVec 2) ≠ 0#2) rfl⟩
    exact ⟨.inr rfl, (Nat.zero_add _).le, Nat.zero_le _, le_rfl, Nat.zero_le _, fun a ha => absurd ha (Nat.not_lt_zero a)⟩
  | decodeChunk _ hl =>
    refine (engineInv_of_busy rfl).2 ⟨hl, ?_, busyResults_zero (by decide : (2#2 : BitVec 2) ≠ 0#2) rfl⟩
    exact ⟨(Nat.zero_add _).le, .inl rfl⟩

/-- The section begins at its first record (43_container_locator.md R186, R187). -/
theorem streamInv_beginSection {s : State} {a : Nat} (hm : s.dp.modeL = 0#2) (ha : a + 6 ≤ s.preambleLen) :
    StreamInv (s.beginSection a) := by
  obtain ⟨-, hle⟩ := preambleLen_le s
  refine ⟨.inl hm, ?_, Nat.zero_le _, le_rfl, Nat.zero_le _, fun b hb => absurd hb (Nat.not_lt_zero b)⟩
  show a + 6 + min s.dp.size.toNat (s.inLen.toNat - (a + 6)) ≤ s.inLen.toNat
  omega

/-- SEC_START is in [23, 0x90] (10_state.md R28). -/
theorem busyResults_beginSection {s : State} {a : Nat} (hz : s.results = Results.zero) (hm : s.dp.modeL = 0#2)
    (h8 : 8 ≤ s.dp.m1) (hm1 : s.dp.m1 + 9 ≤ a) (ha : a + 6 ≤ s.preambleLen) :
    BusyResults (s.beginSection a) .chunkHdr := by
  obtain ⟨hle, -⟩ := preambleLen_le s
  have hstart : (BitVec.ofNat 32 (a + 6)).toNat = a + 6 := by
    rw [BitVec.toNat_ofNat]
    omega
  rw [BusyResults, if_pos ⟨hm, by decide⟩]
  simp only [State.beginSection, State.beginStream_results, hz, Config.markerLen, hstart]
  exact ⟨rfl, rfl, rfl, rfl, rfl, rfl, rfl, by omega, by omega⟩

/-- A record appended: SP has passed it, and OUT is written up to the new FWLEN (42_chunk_stream.md R165, R166). -/
theorem streamInv_append {s : State} (hr : RecordInv s) (hf : s.dp.fwlen + min s.olen 0x10000 ≤ s.params.outCap) :
    StreamInv
      { s with
        phase := .busy .chunkHdr
        outMem := Sparse.putRun s.outMem s.dp.fwlen s.chunkBytes
        dp := { s.dp with
          fwlen := s.dp.fwlen + min s.olen 0x10000
          nch := s.dp.nch + 1
          sp := s.dp.sp + 4 + s.dp.cs } } := by
  obtain ⟨⟨hm, hin, hsp, hnch, -, hout⟩, hcs⟩ := hr
  refine ⟨hm, hin, hcs, ?_, hf, fun a ha => isSome_get_putRun (hout a) (chunkBytes_length (s := s) ▸ ha)⟩
  show 4 * (s.dp.nch + 1) ≤ s.dp.sp + 4 + s.dp.cs
  omega

/-- The record's payload is its body after the skip bytes (42_chunk_stream.md R163, R164). -/
theorem payloadInv_beginChunk {s : State} (hr : RecordInv s) :
    PayloadInv (s.beginChunk (s.dp.sb + s.dp.sp + 4 + min 2 s.dp.cs) (s.dp.cs - 2)) := by
  refine ⟨?_, .inr ⟨hr, rfl, rfl⟩⟩
  obtain ⟨⟨-, hin, -, -, -, -⟩, hcs⟩ := hr
  show s.dp.sb + s.dp.sp + 4 + min 2 s.dp.cs + (s.dp.cs - 2) ≤ s.inLen.toNat
  omega

/-- A step of a group keeps the decoder's invariant: the entry it inserts is the old OLEN, at least 4, and what it
appends fits the room its mask bit leaves (41_chunk_decoder.md R140). -/
theorem pointInv_octet {s : State} (hp : PointInv s .token) {q : Point} {cur : Byte} {bit exh : Bool}
    {e : Option Nat} {k b : Nat} {out : List Byte} (hi : exh = true ∨ s.dp.ip < s.dp.n)
    (ho : s.olen ≤ out.length ∧ out.length ≤ s.olen + 255) (hb : b ≤ s.dp.bi)
    (hq : q = .chunkEnd ∨ q = .mask ∨ q = .token ∧ b < s.dp.bi) :
    PointInv
      { s with
        phase := .busy q
        obuf := out
        ht := Sparse.put s.ht (hashOf (contextOf s.obuf)).toNat s.olen
        dp := { (s.beginStep cur bit exh).dp with e := e, k := k, bi := b } } q := by
  obtain ⟨⟨hpay, hip, -, hht⟩, h4, hbi, hroom⟩ := hp
  simp only [Config.obufSize] at hroom
  have hchunk : ChunkInv
      { s with
        phase := .busy q
        obuf := out
        ht := Sparse.put s.ht (hashOf (contextOf s.obuf)).toNat s.olen
        dp := { (s.beginStep cur bit exh).dp with e := e, k := k, bi := b } } := by
    refine ⟨hpay, ?_, ?_, fun c hc => ?_⟩
    · show (if exh then s.dp.ip else s.dp.ip + 1) ≤ s.dp.n
      split
      · exact hip
      · exact hi.resolve_left ‹_›
    · show out.length ≤ 67575
      omega
    · show 4 ≤ c.2 ∧ c.2 ≤ out.length
      rcases Sparse.mem_put hc with hold | rfl
      · have := hht c hold
        omega
      · exact ⟨h4, ho.1⟩
  have h4' : 4 ≤ out.length := h4.trans ho.1
  rcases hq with rfl | rfl | ⟨rfl, hlt⟩
  · exact hchunk
  · exact ⟨hchunk, fun _ => h4'⟩
  · refine ⟨hchunk, h4', hb.trans hbi, ?_⟩
    calc out.length + 255 * (b + 1)
        ≤ s.olen + 255 + 255 * s.dp.bi := Nat.add_le_add ho.2 (Nat.mul_le_mul_left 255 hlt)
      _ = s.olen + 255 * (s.dp.bi + 1) := by ring
      _ ≤ 67575 := hroom

theorem EngineStepsTo.keeps_engineInv {s t : State} {p : Point} (hl : s.params.Legal)
    (hin : s.inLen.toNat ≤ s.params.inCap) (hp : PointInv s p) (hr : BusyResults s p) (h : EngineStepsTo s p t) :
    EngineInv t := by
  cases h with
  | marker1NotFound | headerRange =>
    exact (engineInv_of_done rfl).2 (doneResults_zero ((busyResults_locator (.inl rfl)).1 hr))
  | marker2NotFound =>
    exact (engineInv_of_done rfl).2 (doneResults_zero ((busyResults_locator (.inr (.inr rfl))).1 hr))
  | marker1Found a ha hpl =>
    have hz := (busyResults_locator (.inl rfl)).1 hr
    exact (engineInv_of_busy (p := .secHdr) rfl).2 ⟨hin, ⟨hp, ha, hpl⟩, (busyResults_locator (.inr (.inl rfl))).2 hz⟩
  | secHdr =>
    have hz := (busyResults_locator (.inr (.inl rfl))).1 hr
    exact (engineInv_of_busy (p := .marker2) rfl).2 ⟨hin, hp, (busyResults_locator (.inr (.inr rfl))).2 hz⟩
  | marker2Found a ha hpl =>
    obtain ⟨hm, h8, -⟩ := hp
    have hz := (busyResults_locator (.inr (.inr rfl))).1 hr
    exact (engineInv_of_busy (p := .chunkHdr) rfl).2
      ⟨hin, streamInv_beginSection hm hpl, busyResults_beginSection hz hm h8 ha hpl⟩
  | streamEnd c hc =>
    exact (engineInv_of_done rfl).2 (doneResults_endStream hp hr.noFaultInfo (hc.imp_right .inr))
  | truncated cs c hc =>
    exact (engineInv_of_done rfl).2
      (doneResults_endStream (s := { s with dp := { s.dp with cs := cs.toNat } }) hp hr.noFaultInfo
        (hc.imp_right .inl))
  | record cs h4 hcs =>
    refine (engineInv_of_busy (p := .skip) rfl).2 ⟨hin, ⟨hp, ?_⟩, hr.of_not_inLocator (by decide) (by decide) rfl rfl⟩
    show s.dp.sp + 4 + cs.toNat ≤ s.dp.sl
    omega
  | payload =>
    exact (engineInv_of_busy (p := .initCtx) rfl).2
      ⟨hin, payloadInv_beginChunk hp, hr.of_not_inLocator (by decide) (by decide) rfl rfl⟩
  | initCtx ctx ht hc hht =>
    refine (engineInv_of_busy (p := .mask) rfl).2
      ⟨hin, ⟨⟨hp, ?_, ?_, fun c hm => ?_⟩, ?_⟩, hr.of_not_inLocator (by decide) (by decide) rfl rfl⟩
    · show ctx.length ≤ s.dp.n
      omega
    · show ctx.length ≤ 67575
      omega
    · show 4 ≤ c.2 ∧ c.2 ≤ ctx.length
      rcases hht with rfl | ⟨h4, g, rfl⟩
      · cases hm
      · rw [List.mem_singleton] at hm
        subst hm
        exact ⟨le_rfl, h4.ge⟩
    · show ctx.length < s.dp.n → 4 ≤ ctx.length
      omega
  | mask m ho hi =>
    obtain ⟨⟨hpay, -, hobuf, hht⟩, h4⟩ := hp
    refine (engineInv_of_busy (p := .token) rfl).2
      ⟨hin, ⟨⟨hpay, hi, hobuf, hht⟩, h4 hi, le_rfl, ?_⟩, hr.of_not_inLocator (by decide) (by decide) rfl rfl⟩
    show s.olen + 255 * (7 + 1) ≤ 67575
    omega
  | groupsEnd =>
    exact (engineInv_of_busy (p := .chunkEnd) rfl).2 ⟨hin, hp.1, hr.of_not_inLocator (by decide) (by decide) rfl rfl⟩
  | matchFault c l e i hc =>
    obtain ⟨⟨hpay, -⟩, -⟩ := hp
    exact (engineInv_of_done rfl).2 (doneResults_raiseFault hpay (hc.imp_right .inl))
  | octet q cur bit exh e k b out hi he hk ho hb hq =>
    have hql : ¬ q.inLocator := by rcases hq with rfl | rfl | ⟨rfl, -⟩ <;> decide
    exact (engineInv_of_busy rfl).2
      ⟨hin, pointInv_octet hp hi ho hb hq, hr.of_not_inLocator (by decide) hql rfl rfl⟩
  | chunkCommandEnd => exact (engineInv_of_done rfl).2 (doneResults_endChunkCmd hl hr.noFaultInfo)
  | overflow =>
    exact (engineInv_of_done rfl).2 (doneResults_raiseFault hp.1 (.inr (.inr ⟨rfl, hr.noFaultInfo⟩)))
  | append hm hf =>
    obtain ⟨hpay, -⟩ := hp
    have hrec := (hpay.2.resolve_left hm).1
    exact (engineInv_of_busy (p := .chunkHdr) rfl).2
      ⟨hin, streamInv_append hrec hf, hr.of_not_inLocator (by decide) (by decide) rfl rfl⟩

/-! ## The widths (10_state.md R33) -/

/-- `WidthInv` with a name for each register. -/
structure Widths (s : State) : Prop where
  sb : s.dp.sb < 2 ^ 32
  sl : s.dp.sl < 2 ^ 32
  sp : s.dp.sp < 2 ^ 32
  nch : s.dp.nch < 2 ^ 32
  cs : s.dp.cs < 2 ^ 32
  pb : s.dp.pb < 2 ^ 32
  n : s.dp.n < 2 ^ 32
  ip : s.dp.ip < 2 ^ 32
  bi : s.dp.bi < 2 ^ 4
  pre : s.dp.pre < 2 ^ 17
  e : ∀ e, s.dp.e = some e → e < 2 ^ 17
  k : s.dp.k < 2 ^ 8
  olen : s.olen < 2 ^ 17
  fwlen : s.dp.fwlen < 2 ^ 32
  m1 : s.dp.m1 < 2 ^ 32

theorem widthInv_iff (s : State) : WidthInv s ↔ Widths s :=
  ⟨fun ⟨sb, sl, sp, nch, cs, pb, n, ip, bi, pre, e, k, olen, fwlen, m1⟩ =>
      ⟨sb, sl, sp, nch, cs, pb, n, ip, bi, pre, e, k, olen, fwlen, m1⟩,
    fun ⟨sb, sl, sp, nch, cs, pb, n, ip, bi, pre, e, k, olen, fwlen, m1⟩ =>
      ⟨sb, sl, sp, nch, cs, pb, n, ip, bi, pre, e, k, olen, fwlen, m1⟩⟩

theorem HostStepsTo.keeps_widths {s t : State} (hw : Widths s) (h : HostStepsTo s t) : Widths t := by
  have hlen := s.inLen.isLt
  cases h with
  | access | modeWrite | inLenWrite | inWrite | badCommand | decompressUpdate => exact { hw with }
  | reset =>
    constructor
    case e => exact nofun
    all_goals exact Nat.two_pow_pos _
  | decodeStream =>
    exact { hw with sb := Nat.two_pow_pos _, sl := hlen, sp := Nat.two_pow_pos _, nch := Nat.two_pow_pos _
                    fwlen := Nat.two_pow_pos _ }
  | decodeChunk => exact { hw with pb := Nat.two_pow_pos _, n := hlen }

/-- Every register is bounded by IN_LEN, by the preamble, by OUT_CAP or by OBUF_SIZE where the engine writes it. -/
theorem EngineStepsTo.keeps_widths {s t : State} {p : Point} (hl : s.params.Legal) (hp : PointInv s p)
    (hw : Widths s) (h : EngineStepsTo s p t) : Widths t := by
  have hlen := s.inLen.isLt
  obtain ⟨hpre, -⟩ := preambleLen_le s
  obtain ⟨-, -, -, hcap⟩ := hl
  cases h with
  | marker1NotFound | headerRange | secHdr | marker2NotFound | streamEnd | groupsEnd | overflow => exact { hw with }
  | marker1Found a ha hpl => exact { hw with m1 := (by omega : a < 2 ^ 32) }
  | marker2Found a ha hpl =>
    have hsize := s.dp.size.isLt
    exact { hw with
      sb := (by omega : a + 6 < 2 ^ 32)
      sl := (by omega : min s.dp.size.toNat (s.inLen.toNat - (a + 6)) < 2 ^ 32)
      sp := Nat.two_pow_pos _
      nch := Nat.two_pow_pos _
      fwlen := Nat.two_pow_pos _ }
  | truncated cs | record cs => exact { hw with cs := cs.isLt }
  | payload =>
    obtain ⟨hin, -⟩ := payloadInv_beginChunk hp
    simp only [State.beginChunk_dp, State.beginChunk_inLen] at hin
    exact { hw with
      pb := (by omega : s.dp.sb + s.dp.sp + 4 + min 2 s.dp.cs < 2 ^ 32)
      n := (by omega : s.dp.cs - 2 < 2 ^ 32) }
  | initCtx ctx ht hc =>
    exact { hw with
      ip := (by omega : ctx.length < 2 ^ 32)
      olen := (by omega : ctx.length < 2 ^ 17) }
  | mask m ho hi =>
    have hn := hw.n
    exact { hw with
      ip := (by omega : s.dp.ip + 1 < 2 ^ 32)
      bi := (by decide : 7 < 2 ^ 4) }
  | matchFault c l e i hc hi he =>
    have hn := hw.n
    exact { hw with
      ip := (by omega : s.dp.ip + 1 < 2 ^ 32)
      pre := hw.olen
      e := fun e' h' => (hp.1.lookup_le (he.trans h')).trans_lt hw.olen }
  | octet q cur bit exh e k b out hi he hk ho hb =>
    obtain ⟨hchunk, -, -, hroom⟩ := hp
    simp only [Config.obufSize] at hroom
    have hn := hw.n
    have hwk := hw.k
    refine { hw with ip := ?_, bi := hb.trans_lt hw.bi, pre := hw.olen, e := fun e' h' => ?_, k := ?_, olen := ?_ }
    · show (if exh then s.dp.ip else s.dp.ip + 1) < 2 ^ 32
      split
      · exact hw.ip
      · have := hi.resolve_left ‹_›
        omega
    · rcases he with rfl | he
      · exact hw.e e' h'
      · exact (hchunk.lookup_le (he.trans h')).trans_lt hw.olen
    · show k < 2 ^ 8
      omega
    · show out.length < 2 ^ 17
      omega
  | chunkCommandEnd =>
    have hbytes := chunkBytes_length (s := s)
    exact { hw with fwlen := (by omega : s.chunkBytes.length < 2 ^ 32) }
  | append hm hf =>
    obtain ⟨⟨-, hin, -, hnch, -⟩, hcs⟩ := (hp.1.2.resolve_left hm).1
    exact { hw with
      sp := (by omega : s.dp.sp + 4 + s.dp.cs < 2 ^ 32)
      nch := (by omega : s.dp.nch + 1 < 2 ^ 32)
      fwlen := (by omega : s.dp.fwlen + min s.olen 0x10000 < 2 ^ 32) }

/-! ## The invariant -/

theorem HostStepsTo.keeps_inv {s t : State} (hs : Inv s) (h : HostStepsTo s t) : Inv t where
  params := h.params_eq ▸ hs.params
  status := h.keeps_statusInv hs.status
  memory := h.keeps_memoryInv hs.memory
  widths := (widthInv_iff t).2 (h.keeps_widths ((widthInv_iff s).1 hs.widths))
  engine := h.keeps_engineInv hs.engine

theorem EngineStepsTo.keeps_inv {s t : State} {p : Point} (hs : Inv s) (hp : s.phase = .busy p)
    (h : EngineStepsTo s p t) : Inv t := by
  obtain ⟨hin, hpoint, hres⟩ := (engineInv_of_busy hp).1 hs.engine
  exact {
    params := h.params_eq ▸ hs.params
    status := h.keeps_statusInv hs.status hp
    memory := h.keeps_memoryInv hs.params hs.memory
    widths := (widthInv_iff t).2 (h.keeps_widths hs.params hpoint ((widthInv_iff s).1 hs.widths))
    engine := h.keeps_engineInv hs.params hin hpoint hres }

/-- Settles O48: each part of the invariant is kept by every turn of the host and of the engine, the widths and the
engine's part by what holds at the point the engine stands at. -/
theorem stepKeepsTheInvariant : Obligations.StepKeepsTheInvariant := by
  intro s t hs h
  exact step_keeps (fun _ _ hu => ⟨hu.params, hu.status, hu.memory, hu.widths, hu.engine⟩)
    (fun _ _ hu hh => hh.keeps_inv hu) (fun _ _ _ hu hp he => he.keeps_inv hu hp) hs h

end Sys2Proof.Machine

namespace Sys2Proof.Machine

/-! ## The steps that stop (10_state.md R41; 20_memory.md R57; 70_reset_and_hazards.md R256)

What each turn of the host answers, by the turn at the head of the queue, and when that is no next state. The engine
never stops: every element has a meaning, and a point without an element has a move. -/

/-- The answer is a fault or a refusal. -/
def Stops (o : Answer) : Prop := ∀ t, o ≠ .next t

@[simp] theorem stops_next (t : State) : Stops (.next t) ↔ False := iff_false_intro fun h => h t rfl
@[simp] theorem stops_fault (r : Fault) : Stops (.fault r) ↔ True := iff_true_intro fun _ h => by cases h
@[simp] theorem stops_refused (r : Refusal) : Stops (.refused r) ↔ True := iff_true_intro fun _ h => by cases h

/-! ### The engine's turns -/

/-- Every element has a meaning at every state (30_encoding.md R83). -/
theorem exec_answers (i : Instr) (s : State) : ∃ t, exec i s = .next t := by
  cases i with
  | matchLen l =>
    rcases execMatchLen_cases (s := s) l with ⟨-, h⟩ | ⟨_, -, -, -, h⟩ | ⟨_, -, -, h⟩
    · exact ⟨_, h⟩
    · exact ⟨_, h⟩
    · exact ⟨_, h⟩
  | decompressUpdate | decodeStream | decodeChunk | badMode3 | srst | modeWrite | marker | secHdr | chunkHdr | skip
  | initCtx | mask | lit | pad => exact ⟨_, rfl⟩

/-- The engine decodes no element only where it has a move: at the end of a stream, of the group loop, of a chunk. -/
theorem point_of_fetch_none {s : State} {p : Point} (h : s.fetch p = none) :
    p = .chunkHdr ∨ p = .mask ∨ p = .chunkEnd := by
  cases p with
  | marker1 | marker2 => cases h
  | secHdr => rw [fetch_secHdr] at h; cases h
  | skip => rw [fetch_skip] at h; cases h
  | initCtx => rw [fetch_initCtx] at h; cases h
  | token =>
    rcases Nat.lt_or_ge s.dp.ip s.dp.n with hi | hi
    · rw [fetch_token_octet s hi] at h; cases h
    · rw [fetch_token_none s hi] at h; cases h
  | chunkHdr => exact .inl rfl
  | mask => exact .inr (.inl rfl)
  | chunkEnd => exact .inr (.inr rfl)

theorem engineStep_answers (s : State) : ∃ t, s.engineStep = .next t := by
  cases hb : s.phase.isBusy with
  | false => exact ⟨s, engineStep_of_not_busy hb⟩
  | true =>
    obtain ⟨p, hp⟩ := (Phase.isBusy_iff _).1 hb
    rw [engineStep_of_busy hp]
    cases hf : s.fetch p with
    | some i => exact exec_answers i s
    | none => rcases point_of_fetch_none hf with rfl | rfl | rfl <;> exact ⟨_, rfl⟩

theorem not_stops_exec (i : Instr) (s : State) : ¬ Stops (exec i s) := by
  obtain ⟨t, h⟩ := exec_answers i s
  simp [h]

theorem not_stops_engineStep (s : State) : ¬ Stops s.engineStep := by
  obtain ⟨t, h⟩ := engineStep_answers s
  simp [h]

/-! ### The host's turns -/

/-- An aligned word of the register file (20_memory.md R57). -/
theorem isRegisterAccess_iff {width off : Nat} :
    isRegisterAccess width off = true ↔ width = 4 ∧ off % 4 = 0 ∧ off ≤ 0xFC := by
  simp [isRegisterAccess, and_assoc]

section Turns

variable {s : State} {rest : List HostOp}

theorem step_of_regWrite {width off : Nat} {v : Word} (hq : s.queue = .regWrite width off v :: rest) :
    step s =
      if isRegisterAccess width off then
        if off = 0 then exec (decodeCtrl v) { s with queue := rest }
        else .next (State.writeRegister { s with queue := rest } off v)
      else .refused (.registerAccess width off) := by
  simp only [step, State.nextAction, hq, State.regWriteTurn]
  split_ifs <;> rfl

theorem step_of_hostRegRead {width off : Nat} (hq : s.queue = .regRead width off :: rest) :
    step s = hostRegRead width off { s with queue := rest } := by
  simp only [step, State.nextAction, hq]

theorem step_of_inWrite {a : Nat} {b : Byte} (hq : s.queue = .inWrite a b :: rest) :
    step s = hostInWrite a b { s with queue := rest } := by
  simp only [step, State.nextAction, hq]

theorem step_of_outRead {a : Nat} (hq : s.queue = .outRead a :: rest) :
    step s = hostOutRead a { s with queue := rest } := by
  simp only [step, State.nextAction, hq]

theorem step_of_hardReset (hq : s.queue = .hardReset :: rest) :
    step s = .next (State.resetEngine { s with queue := rest }) := by
  simp only [step, State.nextAction, hq]

theorem stops_regWrite_iff {width off : Nat} {v : Word} (hq : s.queue = .regWrite width off v :: rest) :
    Stops (step s) ↔ ¬ (width = 4 ∧ off % 4 = 0 ∧ off ≤ 0xFC) := by
  rw [step_of_regWrite hq, ← isRegisterAccess_iff]
  split_ifs with hr h0
  · simp [hr, not_stops_exec]
  · simp [hr]
  · simp [hr]

theorem stops_regRead_iff {width off : Nat} (hq : s.queue = .regRead width off :: rest) :
    Stops (step s) ↔ ¬ (width = 4 ∧ off % 4 = 0 ∧ off ≤ 0xFC) := by
  rw [step_of_hostRegRead hq, hostRegRead, ← isRegisterAccess_iff]
  split_ifs with hr <;> simp [hr]

theorem stops_inWrite_iff {a : Nat} {b : Byte} (hq : s.queue = .inWrite a b :: rest) :
    Stops (step s) ↔ s.phase.isBusy = true ∨ s.params.inCap ≤ a := by
  rw [step_of_inWrite hq, hostInWrite]
  split_ifs with hb ha
  · simp [hb]
  · simp [ha]
  · simp [hb, ha]

theorem stops_outRead_iff {a : Nat} (hq : s.queue = .outRead a :: rest) :
    Stops (step s) ↔ s.params.outCap ≤ a := by
  rw [step_of_outRead hq, hostOutRead]
  split_ifs with ha <;> simp [ha]

/-- A poll reads STATUS or leaves its turn to the engine. -/
theorem not_stops_of_poll (hq : s.queue = .pollDone :: rest) : ¬ Stops (step s) := by
  cases hd : s.phase.isDone with
  | true => simp [step_of_poll_done hq hd]
  | false => exact step_of_poll hq hd ▸ not_stops_engineStep s

end Turns

/-- Settles O9: one lemma per turn of the host says when it stops, and the engine's turns never do. -/
theorem onlyHostAccessesStop : Obligations.OnlyHostAccessesStop := by
  intro s
  show Stops (step s) ↔ _
  cases hq : s.queue with
  | nil => simp [step_of_nil hq, not_stops_engineStep]
  | cons op rest =>
    cases op with
    | regWrite width off v => simp [stops_regWrite_iff hq]
    | regRead width off => simp [stops_regRead_iff hq]
    | inWrite a b => simp [stops_inWrite_iff hq]
    | outRead a => simp [stops_outRead_iff hq]
    | pollDone => simp [not_stops_of_poll hq]
    | engineTurn => simp [step_of_engineTurn hq, not_stops_engineStep]
    | hardReset => simp [step_of_hardReset hq]

/-- Settles O42: neither access is one of the register file. -/
theorem nonWordRegisterAccessIsRefused : Obligations.NonWordRegisterAccessIsRefused := by
  intro s rest width off v hn
  have hr : ¬ isRegisterAccess width off = true := mt isRegisterAccess_iff.1 hn
  exact ⟨fun hq => by rw [step_of_regWrite hq, if_neg hr],
    fun hq => by rw [step_of_hostRegRead hq, hostRegRead, if_neg hr]⟩

/-! ## The memories through a step (20_memory.md R50, R52) -/

/-- Settles O50: every turn of the host and of the engine keeps the memories' form, and the build with it. -/
theorem stepKeepsTheMemoryForm : Obligations.StepKeepsTheMemoryForm := by
  intro s t hl hs h
  have key : t.params.Legal ∧ MemoryInv t :=
    step_keeps (P := fun u => u.params.Legal ∧ MemoryInv u) (fun _ _ hu => hu)
      (fun _ _ hu hh => ⟨hh.params_eq ▸ hu.1, hh.keeps_memoryInv hu.2⟩)
      (fun _ _ _ hu _ he => ⟨he.params_eq ▸ hu.1, he.keeps_memoryInv hu.1 hu.2⟩) ⟨hl, hs⟩ h
  exact key.2

theorem readOut_congr {s t : State} (h : t.outMem = s.outMem) (a : Nat) : t.readOut a = s.readOut a := by
  rw [State.readOut, State.readOut, h]

/-- A byte that a run of writes changes is one of the run. -/
theorem readOut_ne_of_putRun {s t : State} {base a : Nat} {vs : List Byte}
    (ho : t.outMem = Sparse.putRun s.outMem base vs) (h : t.readOut a ≠ s.readOut a) :
    base ≤ a ∧ a < base + vs.length := by
  by_contra hn
  exact h (by rw [State.readOut, State.readOut, ho, Sparse.get_putRun, if_neg hn])

/-- In a stream command OUT and FWLEN change only where a chunk is appended and where the section begins. -/
theorem EngineStepsTo.out_cases {s t : State} {p : Point} (hm : s.dp.modeL ≠ 2#2) (hp : p ≠ .marker2)
    (h : EngineStepsTo s p t) :
    (t.outMem = s.outMem ∧ t.dp.fwlen = s.dp.fwlen) ∨
    (t.outMem = Sparse.putRun s.outMem s.dp.fwlen s.chunkBytes ∧
      t.dp.fwlen = s.dp.fwlen + s.chunkBytes.length ∧ t.dp.fwlen ≤ s.params.outCap) := by
  cases h with
  | append _ hf => exact .inr ⟨rfl, by rw [chunkBytes_length], hf⟩
  | chunkCommandEnd h2 => exact absurd h2 hm
  | marker2NotFound | marker2Found => exact absurd rfl hp
  | marker1NotFound | headerRange | marker1Found | secHdr | streamEnd | truncated | record | payload | initCtx | mask
  | groupsEnd | matchFault | octet | overflow => exact .inl ⟨rfl, rfl⟩

/-- Settles O51: OUT is as it was, or the chunk has been written from the old FWLEN to the new. -/
theorem outIsWrittenOnceInIncreasingOrder : Obligations.OutIsWrittenOnceInIncreasingOrder := by
  intro s t p hq hp hm hp2 h
  have he : EngineStepsTo s p t := engineStepsTo_of_engineStep hp (step_of_nil hq ▸ h)
  rcases he.out_cases hm hp2 with ⟨ho, hf⟩ | ⟨ho, hf, hcap⟩
  · exact ⟨hf.ge, fun a ha => absurd (readOut_congr ho a) ha⟩
  · refine ⟨hf ▸ Nat.le_add_right _ _, fun a ha => ?_⟩
    obtain ⟨hlo, hhi⟩ := readOut_ne_of_putRun ho ha
    rw [← hf] at hhi
    exact ⟨hlo, hhi, hhi.trans_le hcap⟩

/-! ## Byte order (20_memory.md R53, R54) -/

/-- Settles O4: each field is the `le32` of its four bytes. -/
theorem fieldsAreLittleEndian : Obligations.FieldsAreLittleEndian := by
  intro s a
  exact ⟨⟨_, rfl, le32_toNat ..⟩, ⟨_, _, rfl, le32_toNat .., le32_toNat ..⟩⟩

theorem contextOf_append_four (out : List Byte) (x0 x1 x2 x3 : Byte) :
    contextOf (out ++ [x0, x1, x2, x3]) = be32 x0 x1 x2 x3 := by
  simp [contextOf, obufAt]

/-- The bytes of a big-endian word, the first highest. -/
theorem extractLsb'_be32 (x0 x1 x2 x3 : Byte) :
    (be32 x0 x1 x2 x3).extractLsb' 24 8 = x0 ∧ (be32 x0 x1 x2 x3).extractLsb' 16 8 = x1 ∧
    (be32 x0 x1 x2 x3).extractLsb' 8 8 = x2 ∧ (be32 x0 x1 x2 x3).extractLsb' 0 8 = x3 := by
  have h0 := x0.isLt
  have h1 := x1.isLt
  have h2 := x2.isLt
  have h3 := x3.isLt
  simp only [← BitVec.toNat_inj, BitVec.extractLsb'_toNat, be32_toNat, Nat.shiftRight_eq_div_pow]
  omega

/-- Settles O36: the context of such an output is the `be32` of its last four bytes. -/
theorem contextIsLastFourBytesBigEndian : Obligations.ContextIsLastFourBytesBigEndian := by
  intro out x0 x1 x2 x3
  rw [contextOf_append_four]
  obtain ⟨h0, h1, h2, h3⟩ := extractLsb'_be32 x0 x1 x2 x3
  exact ⟨h0, h1, h2, h3, be32_toNat x0 x1 x2 x3⟩

/-! ## The element at the cursor (20_memory.md R61) -/

theorem step_of_fetch {s : State} {p : Point} {i : Instr} (hq : s.queue = []) (hp : s.phase = .busy p)
    (hf : s.fetch p = some i) : step s = exec i s := by
  rw [step_of_busy hq hp, hf]

/-- Settles O6: at each point the element the bytes decode to is the one the engine fetches. -/
theorem engineStepRunsElementAtCursor : Obligations.EngineStepRunsElementAtCursor := by
  intro s i rest hq
  have hi {d : Decoded} (hd : d = .element i rest) : d.instr? = some i := congrArg Decoded.instr? hd
  refine ⟨fun hp => step_of_fetch hq hp rfl, fun hp => step_of_fetch hq hp rfl,
    fun hp hd => step_of_fetch hq hp (hi hd), fun hp h4 hd => step_of_fetch hq hp ?_,
    fun hp hd => step_of_fetch hq hp (hi hd), fun hp hd => step_of_fetch hq hp (hi hd),
    fun hp ho hip hd => step_of_fetch hq hp ?_, fun hp hip hd => step_of_fetch hq hp ?_,
    fun hp hip hd => step_of_fetch hq hp ?_⟩
  · exact (if_neg (Nat.not_lt.2 h4)).trans (hi hd)
  · exact (if_pos ⟨ho, hip⟩).trans (hi hd)
  · rw [State.fetch, if_pos hip]
    exact hi hd
  · rw [State.fetch, if_neg (Nat.not_lt.2 hip)]
    exact hi hd

end Sys2Proof.Machine

namespace Sys2Proof

/-! ## The CTRL word (30_encoding.md R82) -/

/-- Bits 31:4 are ignored. -/
theorem decodeCtrl_congr {v w : Word} (h : v.extractLsb' 0 4 = w.extractLsb' 0 4) : decodeCtrl v = decodeCtrl w := by
  have hbit : ∀ i < 4, v.getLsbD i = w.getLsbD i := fun i hi => by
    simpa [hi] using congrArg (·.getLsbD i) h
  have hmode : v.extractLsb' 2 2 = w.extractLsb' 2 2 :=
    BitVec.eq_of_getLsbD_eq fun i hi => by
      simp only [BitVec.getLsbD_extractLsb', hbit (2 + i) (by omega)]
  simp only [decodeCtrl, hbit 0 (by decide), hbit 1 (by decide), hbit 2 (by decide), hbit 3 (by decide), hmode]

theorem decodeCtrl_of_srst {w : Word} (hs : w.getLsbD 1 = true) : decodeCtrl w = .srst := if_pos hs

/-- With SRST = 0 and START = 1 the word decodes as the one with its MODE and every ignored bit 0. -/
theorem decodeCtrl_of_start {w : Word} (hs : w.getLsbD 1 = false) (hg : w.getLsbD 0 = true) :
    decodeCtrl w = decodeCtrl (0#28 ++ (w.extractLsb' 2 2 ++ 1#2)) := by
  have hlow : w.extractLsb' 0 2 = 1#2 :=
    BitVec.eq_of_getLsbD_eq fun i hi => by
      interval_cases i
      · exact (BitVec.getLsbD_extractLsb' ..).trans hg
      · exact (BitVec.getLsbD_extractLsb' ..).trans hs
  apply decodeCtrl_congr
  calc w.extractLsb' 0 4 = w.extractLsb' 2 2 ++ w.extractLsb' 0 2 :=
        (BitVec.extractLsb'_append_extractLsb'_eq_extractLsb' (len₁ := 2) (len₂ := 2) rfl).symm
    _ = w.extractLsb' 2 2 ++ 1#2 := by rw [hlow]
    _ = (0#28 ++ (w.extractLsb' 2 2 ++ 1#2)).extractLsb' 0 4 := BitVec.extractLsb'_append_eq_right.symm

theorem decodeCtrl_of_modeWrite {w : Word} (hs : w.getLsbD 1 = false) (hg : w.getLsbD 0 = false) :
    decodeCtrl w = .modeWrite (w.extractLsb' 2 2) := by
  simp only [decodeCtrl, hs, hg, Bool.false_eq_true, if_false]

/-- Settles O3: a START word decodes as its MODE's representative, which the model evaluates. -/
theorem ctrlWordFirstMatchingRowWins : Obligations.CtrlWordFirstMatchingRowWins := by
  intro w
  refine ⟨decodeCtrl_of_srst, fun hs hg hm => ?_, fun hs hg hm => ?_, fun hs hg hm => ?_, fun hs hg hm => ?_,
    decodeCtrl_of_modeWrite, fun v => decodeCtrl_congr⟩ <;>
    · rw [decodeCtrl_of_start hs hg, hm]
      rfl

/-- The word of a command decodes to it. -/
theorem decodeCtrl_of_encodeCtrl {i : Instr} {w : Word} (h : encodeCtrl i = some w) : decodeCtrl w = i := by
  cases i with
  | modeWrite m =>
    cases h
    have hm : ((0#28 ++ m) ++ 0#2).extractLsb' 2 2 = m :=
      (BitVec.extractLsb'_append_eq_of_le le_rfl).trans BitVec.extractLsb'_append_eq_right
    exact (decodeCtrl_of_modeWrite BitVec.getLsbD_append BitVec.getLsbD_append).trans (congrArg _ hm)
  | decompressUpdate | decodeStream | decodeChunk | badMode3 | srst => cases h; rfl
  | marker | secHdr | chunkHdr | skip | initCtx | mask | lit | matchLen | pad => cases h

/-! ## The token of a step with an octet (30_encoding.md R78) -/

theorem decodeToken_append (b : BitVec 1) (o : Byte) :
    decodeToken (b ++ o) = if b.getLsbD 0 then .matchLen o else .lit o := by
  have hbit : (b ++ o).getLsbD 8 = b.getLsbD 0 := BitVec.getLsbD_append
  have hoctet : (b ++ o).extractLsb' 0 8 = o := BitVec.extractLsb'_append_eq_right
  rw [decodeToken, hbit, hoctet]

/-- A token is its mask bit above its octet. -/
theorem token_cases (t : BitVec 9) : ∃ o : Byte, t = 0#1 ++ o ∨ t = 1#1 ++ o := by
  have ht : t.extractLsb' 8 1 ++ t.extractLsb' 0 8 = t :=
    (BitVec.extractLsb'_append_extractLsb'_eq_extractLsb' rfl).trans BitVec.extractLsb'_eq_self
  refine ⟨t.extractLsb' 0 8, ?_⟩
  rcases BitVec.eq_zero_or_eq_one (t.extractLsb' 8 1) with hb | hb <;> rw [hb] at ht
  · exact .inl ht.symm
  · exact .inr ht.symm

theorem decodeToken_of_encodeToken {i : Instr} {t : BitVec 9} (h : encodeToken i = some t) : decodeToken t = i := by
  cases i with
  | lit o | matchLen o => cases h; exact decodeToken_append _ o
  | decompressUpdate | decodeStream | decodeChunk | badMode3 | srst | modeWrite | marker | secHdr | chunkHdr | skip
  | initCtx | mask | pad => cases h

/-- Settles O2: a token is its mask bit above its octet, and each mask bit has its own element. -/
theorem tokenAndElementDetermineEachOther : Obligations.TokenAndElementDetermineEachOther := by
  refine ⟨fun t => ?_, fun _ _ => decodeToken_of_encodeToken,
    fun o => ⟨decodeToken_append 0#1 o, decodeToken_append 1#1 o⟩⟩
  obtain ⟨o, rfl | rfl⟩ := token_cases t
  · rw [decodeToken_append]; rfl
  · rw [decodeToken_append]; rfl

/-! ## The bytes of an element (30_encoding.md R70 to R77) -/

theorem decode_command_leBytes (w : Word) (rest : List Byte) :
    decode .command (leBytes w ++ rest) = .element (decodeCtrl w) rest :=
  congrArg (fun v => Decoded.element (decodeCtrl v) rest) (le32_extract w)

theorem decode_chunkHdr_leBytes (w : Word) (rest : List Byte) :
    decode .chunkHdr (leBytes w ++ rest) = .element (.chunkHdr w) rest :=
  congrArg (fun v => Decoded.element (.chunkHdr v) rest) (le32_extract w)

theorem decode_secHdr_leBytes (size crc : Word) (rest : List Byte) :
    decode .secHdr (leBytes size ++ leBytes crc ++ rest) = .element (.secHdr size crc) rest :=
  congrArg₂ (fun v w => Decoded.element (.secHdr v w) rest) (le32_extract size) (le32_extract crc)

theorem decode_marker_append (rest : List Byte) : decode .marker (Config.marker ++ rest) = .element .marker rest := rfl

theorem decode_skip_append {bs : List Byte} (hl : bs.length ≤ 2) (rest : List Byte) :
    decode (.skip bs.length) (bs ++ rest) = .element (.skip bs) rest := by
  simp [decode, Nat.not_lt.2 hl]

theorem decode_initCtx_append {bs : List Byte} (hl : bs.length ≤ 4) (rest : List Byte) :
    decode (.initCtx bs.length) (bs ++ rest) = .element (.initCtx bs) rest := by
  simp [decode, Nat.not_lt.2 hl]

/-- A command is encoded as its CTRL word, least significant byte first (log 17). -/
theorem encode_of_encodeCtrl {i : Instr} {w : Word} (h : encodeCtrl i = some w) :
    levelOf i = .command ∧ encode i = leBytes w := by
  cases i with
  | decompressUpdate | decodeStream | decodeChunk | badMode3 | srst | modeWrite => cases h; exact ⟨rfl, rfl⟩
  | marker | secHdr | chunkHdr | skip | initCtx | mask | lit | matchLen | pad => cases h

theorem decode_encode_command {i : Instr} {w : Word} (h : encodeCtrl i = some w) (rest : List Byte) :
    decode (levelOf i) (encode i ++ rest) = .element i rest := by
  obtain ⟨hlevel, hbytes⟩ := encode_of_encodeCtrl h
  rw [hlevel, hbytes, decode_command_leBytes, decodeCtrl_of_encodeCtrl h]

/-- Every element that has bytes is decoded from them, and what follows is left. -/
theorem decode_encode_append {i : Instr} (hw : WellFormed i) (hp : i ≠ .pad) (rest : List Byte) :
    decode (levelOf i) (encode i ++ rest) = .element i rest := by
  cases i with
  | decompressUpdate | decodeStream | decodeChunk | badMode3 | srst | modeWrite =>
    exact decode_encode_command rfl rest
  | marker => exact decode_marker_append rest
  | secHdr size crc => exact decode_secHdr_leBytes size crc rest
  | chunkHdr chunkSize => exact decode_chunkHdr_leBytes chunkSize rest
  | skip reserved => exact decode_skip_append (of_decide_eq_true hw) rest
  | initCtx ctx => exact decode_initCtx_append (of_decide_eq_true hw) rest
  | mask | lit | matchLen => rfl
  | pad => exact absurd rfl hp

/-- Settles O1: a pad is the absence of bytes; every other element is decoded from its own, also where nothing
follows. -/
theorem decodeOfEncodeGivesElementBack : Obligations.DecodeOfEncodeGivesElementBack := by
  intro i hw
  refine ⟨?_, decode_encode_append hw⟩
  by_cases hp : i = .pad
  · subst hp
    rfl
  · simpa only [List.append_nil] using decode_encode_append hw hp []

/-- Settles O5: the model evaluates each word. -/
theorem opcodeTableWordsDecode : Obligations.OpcodeTableWordsDecode :=
  ⟨rfl, rfl, rfl, rfl, rfl, rfl, rfl, rfl, rfl⟩

namespace Machine

/-! ## What the engine keeps (20_memory.md R50) -/

/-- No turn of the engine writes the parameters, MODE, IN_LEN, IN or the host's side. -/
theorem EngineStepsTo.keeps_input {s t : State} {p : Point} (h : EngineStepsTo s p t) :
    t.params = s.params ∧ t.mode = s.mode ∧ t.inLen = s.inLen ∧ t.inMem = s.inMem ∧
    t.queue = s.queue ∧ t.bus = s.bus ∧ t.draws = s.draws := by
  cases h <;> exact ⟨rfl, rfl, rfl, rfl, rfl, rfl, rfl⟩

theorem readIn_congr {s t : State} (h : t.inMem = s.inMem) (a : Nat) : t.readIn a = s.readIn a := by
  rw [State.readIn, State.readIn, h]

/-- Settles O8: an engine that is BUSY moves and keeps its input, one that is not BUSY holds its state. -/
theorem engineStepAlwaysAnswersAndKeepsInput : Obligations.EngineStepAlwaysAnswersAndKeepsInput := by
  intro s hq
  cases hb : s.phase.isBusy with
  | false => exact ⟨s, step_of_idle hq hb, hq, rfl, rfl, rfl, rfl, rfl, fun _ => rfl⟩
  | true =>
    obtain ⟨p, hp⟩ := (Phase.isBusy_iff _).1 hb
    obtain ⟨t, ht⟩ := engineStep_answers s
    obtain ⟨hparams, hmode, hlen, hin, hqueue, hbus, hdraws⟩ := (engineStepsTo_of_engineStep hp ht).keeps_input
    exact ⟨t, (step_of_nil hq).trans ht, hqueue.trans hq, hparams, hmode, hlen, hbus, hdraws, readIn_congr hin⟩

end Machine

end Sys2Proof

namespace Sys2Proof.Machine

/-! ## The hash of a context (40_hash_index.md R100, R101) -/

theorem toNat_hashOf (c : Word) : (hashOf c).toNat = ((c.toNat >>> 15) ^^^ c.toNat) % 2 ^ 16 := by
  rw [hashOf, Config.hashShift, BitVec.toNat_setWidth, BitVec.toNat_xor, BitVec.toNat_ushiftRight]

theorem getLsbD_hashOf (c : Word) {i : Nat} (hi : i < 16) :
    (hashOf c).getLsbD i = (c.getLsbD i ^^ c.getLsbD (i + 15)) := by
  rw [hashOf, Config.hashShift, BitVec.getLsbD_setWidth, BitVec.getLsbD_xor, BitVec.getLsbD_ushiftRight,
    decide_eq_true hi, Bool.true_and, Bool.xor_comm, Nat.add_comm]

/-- The bit form R101 gives: no shifter, only two fields of the context. -/
theorem hashOf_eq_extractLsb' (c : Word) : hashOf c = c.extractLsb' 0 16 ^^^ c.extractLsb' 15 16 := by
  refine BitVec.eq_of_getLsbD_eq fun i hi => ?_
  simp only [getLsbD_hashOf c hi, BitVec.getLsbD_xor, BitVec.getLsbD_extractLsb', hi, decide_true, Bool.true_and,
    Nat.zero_add, Nat.add_comm 15]

theorem hashOf_xor (c d : Word) : hashOf (c ^^^ d) = hashOf c ^^^ hashOf d := by
  simp only [hashOf_eq_extractLsb', BitVec.extractLsb'_xor]
  ac_rfl

/-- Bit 31 is in neither field the hash reads: alone it hashes to 0. -/
theorem hashOf_bit31 : hashOf 0x80000000#32 = 0#16 := rfl

theorem hashOf_xor_bit31 (c : Word) : hashOf (c ^^^ 0x80000000#32) = hashOf c := by
  rw [hashOf_xor, hashOf_bit31, BitVec.xor_zero]

/-- Settles O35: the number of a context is `be32_toNat`, and the other forms are those of `hashOf` on any word. -/
theorem hashXorsTheShiftedContext : Obligations.HashXorsTheShiftedContext := by
  refine ⟨fun x0 x1 x2 x3 => ?_, rfl, fun c _ hi => getLsbD_hashOf c hi, hashOf_eq_extractLsb', hashOf_xor_bit31,
    rfl, hashOf_bit31, rfl, rfl⟩
  rw [toNat_hashOf, be32_toNat]

end Sys2Proof.Machine

namespace Sys2Proof.Machine

/-! ## A step of a group (41_chunk_decoder.md R126 to R136)

Every step of a group that does not fault is one state, `stepWith`: the prologue, what the step appends and what it
leaves in E and K, the epilogue. A match that faults is another, `matchFaulted`. What a step writes and what it leaves
is said once of each. -/

/-- The state after a step that fetched `cur` with the bit `bit`, or padded, and left the output `out`. -/
def State.stepWith (s : State) (cur : Byte) (bit exh : Bool) (e : Option Nat) (k : Nat) (out : List Byte) : State :=
  State.endStep
    { s.beginStep cur bit exh with obuf := out, dp := { (s.beginStep cur bit exh).dp with e := e, k := k } }

section StepWith

variable (s : State) (cur : Byte) (bit exh : Bool) (e : Option Nat) (k : Nat) (out : List Byte)

@[simp] theorem stepWith_obuf : (s.stepWith cur bit exh e k out).obuf = out := by simp [State.stepWith]

/-- The epilogue leaves everything but BI in the datapath. -/
theorem stepWith_dp :
    ∃ b, (s.stepWith cur bit exh e k out).dp = { (s.beginStep cur bit exh).dp with e := e, k := k, bi := b } :=
  endStep_dp_bi

@[simp] theorem stepWith_e : (s.stepWith cur bit exh e k out).dp.e = e := by
  obtain ⟨b, h⟩ := stepWith_dp s cur bit exh e k out
  rw [h]

@[simp] theorem stepWith_k : (s.stepWith cur bit exh e k out).dp.k = k := by
  obtain ⟨b, h⟩ := stepWith_dp s cur bit exh e k out
  rw [h]

theorem stepRegisters_stepWith : StepRegisters s (s.stepWith cur bit exh e k out) cur bit exh := by
  obtain ⟨b, h⟩ := stepWith_dp s cur bit exh e k out
  constructor <;> rw [h] <;> rfl

theorem sameOutsideChunk_stepWith : SameOutsideChunk s (s.stepWith cur bit exh e k out) := by
  obtain ⟨b, h⟩ := stepWith_dp s cur bit exh e k out
  constructor <;> rw [h] <;> rfl

theorem stepWith_inMem : (s.stepWith cur bit exh e k out).inMem = s.inMem := by simp [State.stepWith]

theorem stepWith_outMem : (s.stepWith cur bit exh e k out).outMem = s.outMem := by simp [State.stepWith]

theorem sameHostSide_stepWith : SameHostSide s (s.stepWith cur bit exh e k out) := by
  constructor
  case readIn => exact readIn_congr (stepWith_inMem s cur bit exh e k out)
  case readOut => exact readOut_congr (stepWith_outMem s cur bit exh e k out)
  all_goals simp [State.stepWith]

theorem sameFlags_stepWith : SameFlags s (s.stepWith cur bit exh e k out) := by
  constructor <;> simp [State.stepWith]

theorem insertedAt_stepWith : InsertedAt s (s.stepWith cur bit exh e k out) := fun h => htLookup_endStep h

/-- The point a step leads to. -/
theorem stepWith_phase :
    (s.stepWith cur bit exh e k out).phase =
      if exh = true ∧ s.params.padPolicy = .padOnce then .busy .chunkEnd
      else if s.dp.bi = 0 then .busy .mask
      else .busy .token :=
  State.endStep_phase _

/-- The mask bit a step leads to. -/
theorem stepWith_bi :
    (s.stepWith cur bit exh e k out).dp.bi =
      if (exh = true ∧ s.params.padPolicy = .padOnce) ∨ s.dp.bi = 0 then s.dp.bi else s.dp.bi - 1 := by
  rw [State.stepWith, State.endStep_dp]
  exact apply_ite Datapath.bi _ _ _

/-- The group goes on after every step but the first pad under PAD_ONCE (41_chunk_decoder.md R125, R135). -/
theorem groupGoesOn_stepWith {exh : Bool} (hx : ¬ (exh = true ∧ s.params.padPolicy = .padOnce)) :
    GroupGoesOn s (s.stepWith cur bit exh e k out) := by
  constructor
  · intro h0
    rw [stepWith_phase, stepWith_bi, if_neg hx, if_pos h0, if_pos (.inr h0)]
    exact ⟨rfl, h0⟩
  · intro h0
    rw [stepWith_phase, stepWith_bi, if_neg hx, if_neg h0, if_neg (not_or.2 ⟨hx, h0⟩)]
    exact ⟨rfl, rfl⟩

theorem groupGoesOn_octet : GroupGoesOn s (s.stepWith cur bit false e k out) :=
  groupGoesOn_stepWith s cur bit e k out nofun

end StepWith

/-! ### What each step appends -/

section Steps

variable {s : State}

theorem exec_lit (o : Byte) :
    exec (.lit o) s = .next (s.stepWith o false false s.dp.e s.dp.k (s.obuf ++ [o])) := rfl

theorem exec_pad :
    exec .pad s =
      .next (s.stepWith Config.padByte false true s.dp.e s.dp.k (s.obuf ++ [Config.padByte])) := rfl

/-- The state after a match that faults with the code `c` on the entry `e`. -/
def State.matchFaulted (s : State) (l : Byte) (c : Code) (e : Option Nat) : State :=
  State.raiseFault
    { s.beginStep l true false with dp := { (s.beginStep l true false).dp with e := e } } c
    (some ⟨s.olen, hashOf (contextOf s.obuf), l, s.dp.pb + s.dp.ip⟩)

/-- Why a match of length `l` faults, and the entry it has read (41_chunk_decoder.md R132, R133). -/
inductive MatchFaults (s : State) (l : Byte) : Code → Option Nat → Prop
  | unknownContext (he : s.htLookup (hashOf (contextOf s.obuf)) = none) : MatchFaults s l .unknownContext none
  | selfReference (e : Nat) (he : s.htLookup (hashOf (contextOf s.obuf)) = some e) (hl : 1 ≤ l.toNat)
    (hp : s.olen ≤ e) : MatchFaults s l .selfReference (some e)

theorem exec_matchLen_of_faults {l : Byte} {c : Code} {e : Option Nat} (h : MatchFaults s l c e) :
    exec (.matchLen l) s = .next (s.matchFaulted l c e) := by
  cases h with
  | unknownContext he =>
    rcases execMatchLen_cases (s := s) l with ⟨-, h'⟩ | ⟨e', he', -⟩ | ⟨e', he', -⟩
    · exact h'
    · simp [he] at he'
    · simp [he] at he'
  | selfReference e he hl hp =>
    rcases execMatchLen_cases (s := s) l with ⟨he', -⟩ | ⟨e', he', -, -, h'⟩ | ⟨e', he', hn, -⟩ <;>
      rw [he] at he' <;> cases he'
    · exact h'
    · omega

/-- A match copies with an entry below pre_len, or with any entry where its length is 0. -/
theorem exec_matchLen_of_entry {l : Byte} {e : Nat} (he : s.htLookup (hashOf (contextOf s.obuf)) = some e)
    (hn : e < s.olen ∨ l.toNat = 0) :
    exec (.matchLen l) s =
      .next (s.stepWith l true false (some e) l.toNat (copyLoop s.obuf e 0 l.toNat)) := by
  show execMatchLen l s = _
  rcases execMatchLen_cases (s := s) l with ⟨he', -⟩ | ⟨e', he', hl', hp', -⟩ | ⟨e', he', -, h'⟩ <;>
    rw [he] at he' <;> cases he'
  · omega
  · exact h'

/-- A match faults, or copies from an entry. -/
theorem matchFaults_or_entry (s : State) (l : Byte) :
    (∃ c e, MatchFaults s l c e) ∨
    ∃ e, s.htLookup (hashOf (contextOf s.obuf)) = some e ∧ (e < s.olen ∨ l.toNat = 0) := by
  cases he : s.htLookup (hashOf (contextOf s.obuf)) with
  | none => exact .inl ⟨_, _, .unknownContext he⟩
  | some e =>
    by_cases hn : e < s.olen ∨ l.toNat = 0
    · exact .inr ⟨e, rfl, hn⟩
    · exact .inl ⟨_, _, .selfReference e he (by omega) (by omega)⟩

theorem MatchFaults.code {l : Byte} {c : Code} {e : Option Nat} (h : MatchFaults s l c e) :
    c = .unknownContext ∨ c = .selfReference := by
  cases h with
  | unknownContext => exact .inl rfl
  | selfReference => exact .inr rfl

/-- Whether a match faults depends on the table and the output alone. -/
theorem MatchFaults.congr {t : State} {l : Byte} {c : Code} {e : Option Nat} (h : MatchFaults s l c e)
    (hht : ∀ g, t.htLookup g = s.htLookup g) (hobuf : t.obuf = s.obuf) : MatchFaults t l c e := by
  have holen : t.olen = s.olen := congrArg List.length hobuf
  cases h with
  | unknownContext he => exact .unknownContext (by rw [hht, hobuf, he])
  | selfReference e he hl hp => exact .selfReference e (by rw [hht, hobuf, he]) hl (holen ▸ hp)

end Steps

end Sys2Proof.Machine

namespace Sys2Proof.Machine

/-! ## Every command ends (41_chunk_decoder.md R142; 42_chunk_stream.md R169; 43_container_locator.md R189)

At each point a bound on the steps left: nine steps for each byte of payload and of stream that is left, and what the
end of the chunk, of the stream and the locator take. Every turn of the engine lowers it. -/

/-- Steps left once the chunk being decoded has ended: those of the records behind it. -/
def State.stepsAfterChunk (s : State) : Nat :=
  if s.dp.modeL = 2#2 then 0 else 9 * (s.dp.sl - (s.dp.sp + 4 + s.dp.cs)) + 1

/-- A bound on the steps left at a point. -/
def State.stepsLeftAt (s : State) : Point → Nat
  | .marker1 => 9 * s.inLen.toNat + 4
  | .secHdr => 9 * s.inLen.toNat + 3
  | .marker2 => 9 * s.inLen.toNat + 2
  | .chunkHdr => 9 * (s.dp.sl - s.dp.sp) + 1
  | .skip => s.stepsAfterChunk + 9 * (s.dp.cs - 2) + 4
  | .initCtx => s.stepsAfterChunk + 9 * s.dp.n + 3
  | .mask => s.stepsAfterChunk + 9 * (s.dp.n - s.dp.ip) + 2
  | .token => s.stepsAfterChunk + 9 * (s.dp.n - s.dp.ip) + s.dp.bi + 3
  | .chunkEnd => s.stepsAfterChunk + 1

/-- A turn of the engine ends the command, or goes on to a point that is nearer its end. -/
theorem EngineStepsTo.done_or_nearer {s t : State} {p : Point} (h : EngineStepsTo s p t) :
    t.phase = .done ∨ ∃ q, t.phase = .busy q ∧ t.stepsLeftAt q < s.stepsLeftAt p := by
  cases h with
  | marker1NotFound | headerRange | marker2NotFound | streamEnd | truncated | matchFault | chunkCommandEnd
  | overflow => exact .inl rfl
  | marker1Found => exact .inr ⟨.secHdr, rfl, Nat.lt_succ_self _⟩
  | secHdr => exact .inr ⟨.marker2, rfl, Nat.lt_succ_self _⟩
  | marker2Found a =>
    refine .inr ⟨.chunkHdr, rfl, ?_⟩
    show 9 * (min s.dp.size.toNat (s.inLen.toNat - (a + 6)) - 0) + 1 < 9 * s.inLen.toNat + 2
    omega
  | record cs h4 hcs =>
    refine .inr ⟨.skip, rfl, ?_⟩
    show (if s.dp.modeL = 2#2 then 0 else 9 * (s.dp.sl - (s.dp.sp + 4 + cs.toNat)) + 1) + 9 * (cs.toNat - 2) + 4 <
      9 * (s.dp.sl - s.dp.sp) + 1
    split <;> omega
  | payload => exact .inr ⟨.initCtx, rfl, Nat.lt_succ_self _⟩
  | initCtx ctx =>
    refine .inr ⟨.mask, rfl, ?_⟩
    show s.stepsAfterChunk + 9 * (s.dp.n - ctx.length) + 2 < s.stepsAfterChunk + 9 * s.dp.n + 3
    omega
  | mask m ho hi =>
    refine .inr ⟨.token, rfl, ?_⟩
    show s.stepsAfterChunk + 9 * (s.dp.n - (s.dp.ip + 1)) + 7 + 3 < s.stepsAfterChunk + 9 * (s.dp.n - s.dp.ip) + 2
    omega
  | groupsEnd =>
    refine .inr ⟨.chunkEnd, rfl, ?_⟩
    show s.stepsAfterChunk + 1 < s.stepsAfterChunk + 9 * (s.dp.n - s.dp.ip) + 2
    omega
  | octet q cur bit exh e k b out hi he hk ho hb hq =>
    refine .inr ⟨q, rfl, ?_⟩
    have hip : s.dp.ip ≤ if exh then s.dp.ip else s.dp.ip + 1 := by split <;> omega
    rcases hq with rfl | rfl | ⟨rfl, hlt⟩
    · show s.stepsAfterChunk + 1 < s.stepsAfterChunk + 9 * (s.dp.n - s.dp.ip) + s.dp.bi + 3
      omega
    · show s.stepsAfterChunk + 9 * (s.dp.n - if exh then s.dp.ip else s.dp.ip + 1) + 2 <
        s.stepsAfterChunk + 9 * (s.dp.n - s.dp.ip) + s.dp.bi + 3
      omega
    · show s.stepsAfterChunk + 9 * (s.dp.n - if exh then s.dp.ip else s.dp.ip + 1) + b + 3 <
        s.stepsAfterChunk + 9 * (s.dp.n - s.dp.ip) + s.dp.bi + 3
      omega
  | append hm =>
    refine .inr ⟨.chunkHdr, rfl, ?_⟩
    show 9 * (s.dp.sl - (s.dp.sp + 4 + s.dp.cs)) + 1 < s.stepsAfterChunk + 1
    rw [State.stepsAfterChunk, if_neg hm]
    omega

theorem runSteps_succ {s t : State} {k : Nat} (h : step s = .next t) : runSteps (k + 1) s = runSteps k t := by
  rw [runSteps, h]

/-- The engine left to itself ends its command within the steps left. -/
theorem runSteps_done {m : Nat} {s : State} {p : Point} (hq : s.queue = []) (hp : s.phase = .busy p)
    (hm : s.stepsLeftAt p ≤ m) : ∃ k t, k ≤ m ∧ runSteps k s = .next t ∧ t.phase = .done := by
  induction m generalizing s p with
  | zero => cases p <;> simp [State.stepsLeftAt] at hm
  | succ m ih =>
    obtain ⟨u, hu⟩ := engineStep_answers s
    have hstep : step s = .next u := (step_of_nil hq).trans hu
    have he := engineStepsTo_of_engineStep hp hu
    obtain ⟨-, -, -, -, hqueue, -, -⟩ := he.keeps_input
    rcases he.done_or_nearer with hd | ⟨q, hpu, hlt⟩
    · exact ⟨1, u, by omega, runSteps_succ hstep, hd⟩
    · obtain ⟨k, t, hk, hrun, hdone⟩ := ih (hqueue.trans hq) hpu (by omega)
      exact ⟨k + 1, t, by omega, (runSteps_succ hstep).trans hrun, hdone⟩

/-- Where the payload of a running chunk meets the invariant, it and the records behind it lie in IN. -/
theorem stepsAfterChunk_le {s : State} (h : PayloadInv s) :
    s.stepsAfterChunk + 9 * s.dp.n ≤ 9 * s.inLen.toNat + 1 := by
  obtain ⟨hin, hm | ⟨⟨⟨-, hsl, -⟩, hcs⟩, -, hn⟩⟩ := h
  · rw [State.stepsAfterChunk, if_pos hm]
    omega
  · rw [State.stepsAfterChunk]
    split <;> omega

theorem stepsLeftAt_le {s : State} {p : Point} (h : PointInv s p) : s.stepsLeftAt p ≤ 9 * s.inLen.toNat + 11 := by
  cases p with
  | marker1 | secHdr | marker2 => exact Nat.add_le_add_left (by decide) _
  | chunkHdr =>
    obtain ⟨-, hsl, -⟩ := h
    show 9 * (s.dp.sl - s.dp.sp) + 1 ≤ _
    omega
  | skip =>
    have hle := stepsAfterChunk_le (payloadInv_beginChunk h)
    simp only [State.beginChunk_inLen] at hle
    show s.stepsAfterChunk + 9 * (s.dp.cs - 2) + 4 ≤ _
    exact (Nat.add_le_add_right hle 4).trans (by omega)
  | initCtx =>
    have hle := stepsAfterChunk_le h
    show s.stepsAfterChunk + 9 * s.dp.n + 3 ≤ _
    omega
  | mask =>
    obtain ⟨⟨hpay, -⟩, -⟩ := h
    have hle := stepsAfterChunk_le hpay
    show s.stepsAfterChunk + 9 * (s.dp.n - s.dp.ip) + 2 ≤ _
    omega
  | token =>
    obtain ⟨⟨hpay, -⟩, -, hbi, -⟩ := h
    have hle := stepsAfterChunk_le hpay
    show s.stepsAfterChunk + 9 * (s.dp.n - s.dp.ip) + s.dp.bi + 3 ≤ _
    omega
  | chunkEnd =>
    have hle := stepsAfterChunk_le h.1
    show s.stepsAfterChunk + 1 ≤ _
    omega

/-- Settles O53: every turn of the engine lowers the bound on the steps left, which the invariant keeps below
9 * IN_LEN + 11. -/
theorem runningCommandEndsWithinBound : Obligations.RunningCommandEndsWithinBound := by
  intro s hs hq hb
  obtain ⟨p, hp⟩ := (Phase.isBusy_iff _).1 hb
  obtain ⟨-, hpoint, -⟩ := (engineInv_of_busy hp).1 hs.engine
  exact runSteps_done hq hp (stepsLeftAt_le hpoint)

end Sys2Proof.Machine

namespace Sys2Proof.Machine

/-! ## Two machines in the same run (41_chunk_decoder.md R144; 44_commands.md R210; 70_reset_and_hazards.md R251, R253)

They fetch the same element, because it is read from the bytes of IN below IN_LEN and from live registers; and an
element, or a move, does the same to both in what is live. -/

variable {s t : State}

theorem SameRun.live_busy {p : Point} (h : SameRun s t) (hp : s.phase = .busy p) :
    t.dp.modeL = s.dp.modeL ∧ SameLive s t p := by
  have hl := h.live
  rw [hp] at hl
  exact hl

/-! ### The same element -/

/-- The payload's place is the same, and inside IN. -/
theorem SameInput.readIn_payload (h : SameInput s t) (hinv : PayloadInv s) (hp : SamePayload s t) {i : Nat}
    (hi : i < s.dp.n) : t.readIn (t.dp.pb + i) = s.readIn (s.dp.pb + i) := by
  obtain ⟨hin, -⟩ := hinv
  obtain ⟨hpb, -⟩ := hp
  rw [hpb]
  exact h.readIn _ (by omega)

theorem SameRun.fetch_eq {p : Point} (h : SameRun s t) (hp : s.phase = .busy p) (hinv : PointInv s p) :
    t.fetch p = s.fetch p := by
  obtain ⟨-, hlive⟩ := h.live_busy hp
  have hread := h.input.readIn
  cases p with
  | marker1 | marker2 | chunkEnd => rfl
  | secHdr =>
    obtain ⟨-, h8, hm1⟩ := hinv
    obtain ⟨-, hlen⟩ := preambleLen_le s
    have hm : t.dp.m1 = s.dp.m1 := hlive
    simp only [State.fetch, hm, Config.hdrBack]
    rw [inBytes_congr _ _ fun a _ ha => hread a (by omega)]
  | chunkHdr =>
    obtain ⟨-, hsl, hsp, -⟩ := hinv
    obtain ⟨hsb, hsl', hsp', -⟩ := hlive
    rw [fetch_chunkHdr, fetch_chunkHdr, hsl', hsp']
    split_ifs with h4
    · rfl
    · rw [State.chunkSizeAt, State.chunkSizeAt, hsb, hsp', hread (s.dp.sb + s.dp.sp) (by omega),
        hread (s.dp.sb + s.dp.sp + 1) (by omega), hread (s.dp.sb + s.dp.sp + 2) (by omega),
        hread (s.dp.sb + s.dp.sp + 3) (by omega)]
  | skip =>
    obtain ⟨⟨-, hsl, -⟩, hcs⟩ := hinv
    obtain ⟨⟨hsb, -, hsp, -⟩, hcs'⟩ := hlive
    rw [fetch_skip, fetch_skip, hsb, hsp, hcs', inBytes_congr _ _ fun a _ ha => hread a (by omega)]
  | initCtx =>
    obtain ⟨hin, -⟩ := hinv
    obtain ⟨hpb, hn, -⟩ := hlive
    rw [fetch_initCtx, fetch_initCtx, hpb, hn, inBytes_congr _ _ fun a _ ha => hread a (by omega)]
  | mask =>
    obtain ⟨⟨hpay, -⟩, -⟩ := hinv
    obtain ⟨hpay', hip, hobuf, -⟩ := hlive
    have ⟨_, hn, _⟩ := hpay'
    rw [fetch_mask, fetch_mask, hip, hn, State.olen, State.olen, hobuf]
    split_ifs with hi
    · rw [h.input.readIn_payload hpay hpay' hi.2]
    · rfl
  | token =>
    obtain ⟨⟨hpay, -⟩, -⟩ := hinv
    obtain ⟨⟨hpay', hip, -⟩, hmask, hbi⟩ := hlive
    have ⟨_, hn, _⟩ := hpay'
    have hbit : t.maskBit = s.maskBit := by rw [State.maskBit, State.maskBit, hmask, hbi]
    rcases Nat.lt_or_ge s.dp.ip s.dp.n with hi | hi
    · rw [fetch_token_octet s hi, fetch_token_octet t (by omega), hip, h.input.readIn_payload hpay hpay' hi, hbit]
    · rw [fetch_token_none s hi, fetch_token_none t (by omega)]

/-! ### The same effect -/

/-- Both go on to the same point, with the same results and what that point needs. -/
theorem SameRun.goesOn {s' t' : State} {q : Point} (h : SameRun s t) (hin : SameInput s' t')
    (hs : s'.phase = .busy q) (ht : t'.phase = .busy q) (hfs : SameFlags s s') (hft : SameFlags t t')
    (hr : t'.results = s'.results) (hl : t'.dp.modeL = s'.dp.modeL ∧ SameLive s' t' q) : SameRun s' t' where
  input := hin
  phase := ht.trans hs.symm
  success := by rw [hft.success, hfs.success, h.success]
  fault := by rw [hft.fault, hfs.fault, h.fault]
  code := by rw [hft.code, hfs.code, h.code]
  results := hr
  live := by rw [hs]; exact hl

theorem sameRun_finish (hin : SameInput s t) (hr : t.results = s.results)
    (hout : ∀ a, a < s.results.outLen.toNat → t.readOut a = s.readOut a) (c : Code) :
    SameRun (s.finish c) (t.finish c) :=
  ⟨⟨hin.params, hin.inLen, hin.readIn⟩, rfl, rfl, rfl, rfl, hr, hout⟩

/-- A fault of a decoder or framer in the same place records the same. -/
theorem sameRun_raiseFault {c : Code} (hc : c ≠ .badCommand) (i : Option MatchInfo) (hin : SameInput s t)
    (hr : t.results = s.results) (hm : t.dp.modeL = s.dp.modeL) (hip : t.dp.ip = s.dp.ip)
    (hstream : s.dp.modeL ≠ 2#2 → SameStream s t) :
    SameRun (s.raiseFault c i) (t.raiseFault c i) := by
  have hres : t.faultResults c i = s.faultResults c i := by
    unfold State.faultResults
    by_cases h2 : s.dp.modeL = 2#2
    · simp only [hr, hm, hip, h2, decide_true, Bool.or_true, if_true]
    · obtain ⟨-, -, hsp, hnch, hfw, -⟩ := hstream h2
      simp only [hr, hm, hip, hsp, hnch, hfw]
  refine ⟨⟨hin.params, hin.inLen, hin.readIn⟩, rfl, rfl, rfl, rfl, hres, fun a ha => ?_⟩
  rw [State.raiseFault_results, faultResults_outLen s hc i] at ha
  split_ifs at ha with h2
  · exact absurd ha (Nat.not_lt_zero a)
  · obtain ⟨-, -, -, -, -, hout⟩ := hstream h2
    exact hout a (ha.trans_le (Nat.mod_le _ _))

theorem SameRun.firstMarker (h : SameRun s t) (hm : t.dp.modeL = s.dp.modeL)
    (hz : s.results = Results.zero) : SameRun s.firstMarker t.firstMarker := by
  obtain ⟨hq, hl, hread⟩ := h.input
  have hout : ∀ a, a < s.results.outLen.toNat → t.readOut a = s.readOut a := by
    rw [hz]
    exact fun a ha => absurd ha (Nat.not_lt_zero a)
  unfold State.firstMarker
  rw [findMarker_congr 0 hl hread]
  cases s.findMarker 0 with
  | none => exact sameRun_finish h.input h.results hout _
  | some a =>
    dsimp only
    split_ifs
    · exact sameRun_finish h.input h.results hout _
    · exact h.goesOn (q := .secHdr) ⟨hq, hl, hread⟩ rfl rfl ⟨rfl, rfl, rfl⟩ ⟨rfl, rfl, rfl⟩ h.results ⟨hm, rfl⟩

theorem SameRun.secondMarker (h : SameRun s t) (hm : t.dp.modeL = s.dp.modeL) (hl : SameLive s t .marker2)
    (hz : s.results = Results.zero) : SameRun s.secondMarker t.secondMarker := by
  obtain ⟨hq, hlen, hread⟩ := h.input
  obtain ⟨hm1, hsize, hcrc⟩ := hl
  have hout : ∀ a, a < s.results.outLen.toNat → t.readOut a = s.readOut a := by
    rw [hz]
    exact fun a ha => absurd ha (Nat.not_lt_zero a)
  unfold State.secondMarker
  rw [hm1, findMarker_congr _ hlen hread]
  cases s.findMarker (s.dp.m1 + Config.search2Skip) with
  | none => exact sameRun_finish h.input h.results hout _
  | some a =>
    refine h.goesOn (q := .chunkHdr) ⟨hq, hlen, hread⟩ rfl rfl ⟨rfl, rfl, rfl⟩ ⟨rfl, rfl, rfl⟩ ?_
      ⟨hm, rfl, ?_, rfl, rfl, rfl, fun a ha => absurd ha (Nat.not_lt_zero a)⟩
    · simp only [State.beginSection, State.beginStream_results, h.results, hsize, hcrc]
    · simp only [State.beginSection, State.beginStream_dp, hsize, hlen]

/-- Both streams end with the same outcome. -/
theorem endStream_eq (hsp : t.dp.sp = s.dp.sp) (hd : t.declaredSize = s.declaredSize) (b : Bool) :
    ∃ c, s.endStream b = s.streamResults.finish c ∧ t.endStream b = t.streamResults.finish c := by
  unfold State.endStream
  rw [hsp, hd]
  split_ifs
  · exact ⟨_, rfl, by rw [State.streamResults, hsp]⟩
  · exact ⟨_, rfl, by rw [State.streamResults, hsp]⟩
  · exact ⟨_, rfl, by rw [State.streamResults, hsp]⟩

theorem sameRun_endStream (hin : SameInput s t) (hr : t.results = s.results) (hm : t.dp.modeL = s.dp.modeL)
    (hs : SameStream s t) (b : Bool) : SameRun (s.endStream b) (t.endStream b) := by
  obtain ⟨-, -, hsp, hnch, hfw, hout⟩ := hs
  have hd : t.declaredSize = s.declaredSize := by
    rw [State.declaredSize, State.declaredSize, hm, hr, hin.inLen]
  obtain ⟨c, hes, het⟩ := endStream_eq hsp hd b
  rw [hes, het]
  refine sameRun_finish (s := s.streamResults) (t := t.streamResults) ⟨hin.params, hin.inLen, hin.readIn⟩ ?_
    (fun a ha => hout a (ha.trans_le ?_)) c
  · simp only [State.streamResults, hr, hsp, hnch, hfw]
  · exact Nat.mod_le _ _

theorem SameRun.chunkHdr (h : SameRun s t) (hm : t.dp.modeL = s.dp.modeL) (hs : SameStream s t) (cs : Word) :
    ∃ s' t', exec (.chunkHdr cs) s = .next s' ∧ exec (.chunkHdr cs) t = .next t' ∧ SameRun s' t' := by
  refine ⟨_, _, rfl, rfl, ?_⟩
  obtain ⟨hq, hlen, hread⟩ := h.input
  have ⟨_, hsl, hsp, _⟩ := hs
  have hremain : t.dp.sl - t.dp.sp = s.dp.sl - s.dp.sp := by rw [hsl, hsp]
  rw [hremain]
  split_ifs
  · exact sameRun_endStream (s := { s with dp := { s.dp with cs := cs.toNat } })
      (t := { t with dp := { t.dp with cs := cs.toNat } }) ⟨hq, hlen, hread⟩ h.results hm hs true
  · exact h.goesOn (q := .skip) ⟨hq, hlen, hread⟩ rfl rfl ⟨rfl, rfl, rfl⟩ ⟨rfl, rfl, rfl⟩ h.results ⟨hm, hs, rfl⟩

theorem SameRun.skip (h : SameRun s t) (hm : t.dp.modeL = s.dp.modeL) (hl : SameLive s t .skip) (bs : List Byte) :
    ∃ s' t', exec (.skip bs) s = .next s' ∧ exec (.skip bs) t = .next t' ∧ SameRun s' t' := by
  obtain ⟨hq, hlen, hread⟩ := h.input
  have ⟨⟨hsb, _, hsp, _⟩, hcs⟩ := hl
  refine ⟨_, _, rfl, rfl, h.goesOn (q := .initCtx) ⟨hq, hlen, hread⟩ rfl rfl ⟨rfl, rfl, rfl⟩ ⟨rfl, rfl, rfl⟩
    h.results ⟨hm, ?_, ?_, fun _ => ⟨hl.1, hcs⟩⟩⟩
  · simp only [State.beginChunk_dp, hsb, hsp, hcs]
  · simp only [State.beginChunk_dp, hcs]

theorem SameRun.initCtx (h : SameRun s t) (hm : t.dp.modeL = s.dp.modeL) (hp : SamePayload s t) (ctx : List Byte) :
    ∃ s' t', exec (.initCtx ctx) s = .next s' ∧ exec (.initCtx ctx) t = .next t' ∧ SameRun s' t' := by
  obtain ⟨hq, hlen, hread⟩ := h.input
  refine ⟨_, _, rfl, rfl, ?_⟩
  split_ifs <;>
    exact h.goesOn (q := .mask) ⟨hq, hlen, hread⟩ rfl rfl ⟨rfl, rfl, rfl⟩ ⟨rfl, rfl, rfl⟩ h.results
      ⟨hm, hp, rfl, rfl, fun _ => rfl⟩

theorem SameRun.mask (h : SameRun s t) (hm : t.dp.modeL = s.dp.modeL) (hc : SameChunk s t) (m : Byte) :
    ∃ s' t', exec (.mask m) s = .next s' ∧ exec (.mask m) t = .next t' ∧ SameRun s' t' := by
  obtain ⟨hq, hlen, hread⟩ := h.input
  obtain ⟨hp, hip, hobuf, hht⟩ := hc
  exact ⟨_, _, rfl, rfl, h.goesOn (q := .token) ⟨hq, hlen, hread⟩ rfl rfl ⟨rfl, rfl, rfl⟩ ⟨rfl, rfl, rfl⟩ h.results
    ⟨hm, ⟨hp, congrArg (· + 1) hip, hobuf, hht⟩, rfl, rfl⟩⟩

/-- What lies outside the chunk keeps the payload's place. -/
theorem SamePayload.congr {s' t' : State} (h : SamePayload s t) (hs : SameOutsideChunk s s')
    (ht : SameOutsideChunk t t') (hos : ∀ a, s'.readOut a = s.readOut a) (hot : ∀ a, t'.readOut a = t.readOut a) :
    SamePayload s' t' := by
  obtain ⟨hpb, hn, hstream⟩ := h
  refine ⟨by rw [ht.pb, hs.pb, hpb], by rw [ht.n, hs.n, hn], fun hm => ?_⟩
  obtain ⟨⟨hsb, hsl, hsp, hnch, hfw, hout⟩, hcs⟩ := hstream (hs.modeL ▸ hm)
  refine ⟨⟨by rw [ht.sb, hs.sb, hsb], by rw [ht.sl, hs.sl, hsl], by rw [ht.sp, hs.sp, hsp],
    by rw [ht.nch, hs.nch, hnch], by rw [ht.fwlen, hs.fwlen, hfw], fun a ha => ?_⟩, by rw [ht.cs, hs.cs, hcs]⟩
  rw [hot, hos]
  exact hout a (hs.fwlen ▸ ha)

/-- A step that appends the same leads to the same decoder, whatever stands in E and K. -/
theorem SameChunk.stepWith (h : SameChunk s t) (cur : Byte) (bit exh : Bool) (e e' : Option Nat) (k k' : Nat)
    (out : List Byte) : SameChunk (s.stepWith cur bit exh e k out) (t.stepWith cur bit exh e' k' out) := by
  obtain ⟨hp, hip, hobuf, hht⟩ := h
  have hpay := hp.congr (sameOutsideChunk_stepWith s cur bit exh e k out)
    (sameOutsideChunk_stepWith t cur bit exh e' k' out) (sameHostSide_stepWith s cur bit exh e k out).readOut
    (sameHostSide_stepWith t cur bit exh e' k' out).readOut
  refine ⟨hpay, ?_, by simp, fun g => ?_⟩
  · rw [(stepRegisters_stepWith ..).ip, (stepRegisters_stepWith ..).ip, hip]
  · rw [insertedAt_stepWith t cur bit exh e' k' out g, insertedAt_stepWith s cur bit exh e k out g, hobuf, hht,
      State.olen, State.olen, hobuf]

theorem SameInput.congr {s' t' : State} (h : SameInput s t) (hs : SameHostSide s s') (ht : SameHostSide t t') :
    SameInput s' t' := by
  refine ⟨by rw [hs.params, ht.params, h.params], by rw [hs.inLen, ht.inLen, h.inLen], fun a ha => ?_⟩
  rw [hs.readIn, ht.readIn]
  exact h.readIn a (hs.inLen ▸ ha)

/-- A step that appends the same does the same. -/
theorem SameRun.stepWith (h : SameRun s t) (hm : t.dp.modeL = s.dp.modeL) (hl : SameLive s t .token) (cur : Byte)
    (bit exh : Bool) (e e' : Option Nat) (k k' : Nat) (out : List Byte) :
    SameRun (s.stepWith cur bit exh e k out) (t.stepWith cur bit exh e' k' out) := by
  obtain ⟨hc, hmask, hbi⟩ := hl
  have hs := sameHostSide_stepWith s cur bit exh e k out
  have ht := sameHostSide_stepWith t cur bit exh e' k' out
  have hphase : (t.stepWith cur bit exh e' k' out).phase = (s.stepWith cur bit exh e k out).phase := by
    rw [stepWith_phase, stepWith_phase, h.input.params, hbi]
  have hmode : (t.stepWith cur bit exh e' k' out).dp.modeL = (s.stepWith cur bit exh e k out).dp.modeL := by
    rw [(sameOutsideChunk_stepWith ..).modeL, (sameOutsideChunk_stepWith ..).modeL, hm]
  have hmask' : (t.stepWith cur bit exh e' k' out).dp.mask = (s.stepWith cur bit exh e k out).dp.mask := by
    rw [(stepRegisters_stepWith ..).mask, (stepRegisters_stepWith ..).mask, hmask]
  have hbi' : (t.stepWith cur bit exh e' k' out).dp.bi = (s.stepWith cur bit exh e k out).dp.bi := by
    rw [stepWith_bi, stepWith_bi, h.input.params, hbi]
  have hc' := hc.stepWith cur bit exh e e' k k' out
  have hgo {q : Point} (hq : (s.stepWith cur bit exh e k out).phase = .busy q)
      (hlive : SameLive (s.stepWith cur bit exh e k out) (t.stepWith cur bit exh e' k' out) q) :=
    h.goesOn (h.input.congr hs ht) hq (hphase.trans hq) (sameFlags_stepWith s cur bit exh e k out)
      (sameFlags_stepWith t cur bit exh e' k' out) (by rw [hs.results, ht.results, h.results]) ⟨hmode, hlive⟩
  have hpoint := stepWith_phase s cur bit exh e k out
  split_ifs at hpoint
  · exact hgo hpoint hc'
  · exact hgo hpoint hc'
  · exact hgo hpoint ⟨hc', hmask', hbi'⟩

theorem SameRun.matchLen (h : SameRun s t) (hm : t.dp.modeL = s.dp.modeL) (hl : SameLive s t .token) (l : Byte) :
    ∃ s' t', exec (.matchLen l) s = .next s' ∧ exec (.matchLen l) t = .next t' ∧ SameRun s' t' := by
  obtain ⟨hq, hlen, hread⟩ := h.input
  have ⟨⟨⟨hpb, _, hstream⟩, hip, hobuf, hht⟩, _⟩ := hl
  have holen : t.olen = s.olen := by rw [State.olen, State.olen, hobuf]
  have hfound : t.htLookup (hashOf (contextOf t.obuf)) = s.htLookup (hashOf (contextOf s.obuf)) := by
    rw [hobuf, hht]
  have hfault {c : Code} {e : Option Nat} (hc : c ≠ .badCommand) :
      SameRun (s.matchFaulted l c e) (t.matchFaulted l c e) := by
    rw [State.matchFaulted, State.matchFaulted, holen, hobuf, hpb, hip]
    exact sameRun_raiseFault hc _ ⟨hq, hlen, hread⟩ h.results hm (congrArg (· + 1) hip) fun hm2 => (hstream hm2).1
  rcases matchFaults_or_entry s l with ⟨c, e, hf⟩ | ⟨e, he, hn⟩
  · refine ⟨_, _, exec_matchLen_of_faults hf, exec_matchLen_of_faults (hf.congr hht hobuf), hfault ?_⟩
    rcases hf.code with rfl | rfl <;> decide
  · rw [exec_matchLen_of_entry he hn, exec_matchLen_of_entry (hfound.trans he) (holen ▸ hn), hobuf]
    exact ⟨_, _, rfl, rfl, h.stepWith hm hl ..⟩

/-- Where two machines write the same run, they agree up to its end if they agreed before it. -/
theorem readOut_putRun_congr {s' t' : State} {base a : Nat} {vs : List Byte}
    (hs : s'.outMem = Sparse.putRun s.outMem base vs) (ht : t'.outMem = Sparse.putRun t.outMem base vs)
    (ha : a < base + vs.length) (hout : a < base → t.readOut a = s.readOut a) : t'.readOut a = s'.readOut a := by
  rw [State.readOut, State.readOut, hs, ht, Sparse.get_putRun, Sparse.get_putRun]
  split_ifs with hw
  · rfl
  · exact hout (by omega)

theorem SameRun.endChunk (h : SameRun s t) (hm : t.dp.modeL = s.dp.modeL) (hc : SameChunk s t) :
    SameRun s.endChunk t.endChunk := by
  obtain ⟨hq, hlen, hread⟩ := h.input
  obtain ⟨⟨-, -, hstream⟩, hip, hobuf, -⟩ := hc
  have hbytes : t.chunkBytes = s.chunkBytes := by rw [State.chunkBytes, State.chunkBytes, hobuf]
  unfold State.endChunk
  rw [hm]
  split_ifs with h2
  · refine ⟨⟨hq, hlen, hread⟩, rfl, rfl, rfl, rfl, ?_, fun a ha => ?_⟩
    · simp only [State.endChunkCmd, State.finish_results, h.results, hbytes, hip]
    · have ha : a < 0 + s.chunkBytes.length := by
        rw [Nat.zero_add]
        exact ha.trans_le (Nat.mod_le _ _)
      exact readOut_putRun_congr (s := s) (t := t) rfl (congrArg (Sparse.putRun t.outMem 0) hbytes) ha
        fun h0 => absurd h0 (Nat.not_lt_zero a)
  · obtain ⟨hs, hcs⟩ := hstream h2
    have ⟨hsb, hsl, hsp, hnch, hfw, hout⟩ := hs
    have hover : (t.params.outCap < t.dp.fwlen + t.chunkBytes.length) =
        (s.params.outCap < s.dp.fwlen + s.chunkBytes.length) := by rw [hq, hfw, hbytes]
    unfold State.appendChunk
    simp only [hover]
    split_ifs
    · exact sameRun_raiseFault (by decide) none h.input h.results hm hip fun _ => hs
    · refine h.goesOn (q := .chunkHdr) ⟨hq, hlen, hread⟩ rfl rfl ⟨rfl, rfl, rfl⟩ ⟨rfl, rfl, rfl⟩ h.results
        ⟨hm, hsb, hsl, ?_, congrArg (· + 1) hnch, ?_, fun a ha => ?_⟩
      · simp only [hsp, hcs]
      · simp only [hfw, hbytes]
      · exact readOut_putRun_congr (s := s) (t := t) rfl (by rw [hfw, hbytes]) ha (hout a)

/-! ### The same step -/

/-- The element fetched at the point both stand at does the same to both. -/
theorem SameRun.of_exec {p : Point} {i : Instr} (h : SameRun s t) (hp : s.phase = .busy p)
    (hinv : PointInv s p) (hres : BusyResults s p) (hf : s.fetch p = some i) :
    ∃ s' t', exec i s = .next s' ∧ exec i t = .next t' ∧ SameRun s' t' := by
  obtain ⟨hm, hl⟩ := h.live_busy hp
  obtain ⟨hq, hlen, hread⟩ := h.input
  cases p with
  | marker1 =>
    cases hf
    refine ⟨_, _, rfl, rfl, ?_⟩
    simp only [h.phase, hp]
    exact h.firstMarker hm ((busyResults_locator (.inl rfl)).1 hres)
  | marker2 =>
    cases hf
    refine ⟨_, _, rfl, rfl, ?_⟩
    simp only [h.phase, hp]
    exact h.secondMarker hm hl ((busyResults_locator (.inr (.inr rfl))).1 hres)
  | secHdr =>
    rw [fetch_secHdr] at hf
    cases hf
    exact ⟨_, _, rfl, rfl, h.goesOn (q := .marker2) ⟨hq, hlen, hread⟩ rfl rfl ⟨rfl, rfl, rfl⟩ ⟨rfl, rfl, rfl⟩
      h.results ⟨hm, hl, rfl, rfl⟩⟩
  | chunkHdr =>
    rw [fetch_chunkHdr] at hf
    split_ifs at hf
    cases hf
    exact h.chunkHdr hm hl _
  | skip =>
    rw [fetch_skip] at hf
    cases hf
    exact h.skip hm hl _
  | initCtx =>
    rw [fetch_initCtx] at hf
    cases hf
    exact h.initCtx hm hl _
  | mask =>
    rw [fetch_mask] at hf
    split_ifs at hf
    cases hf
    exact h.mask hm hl _
  | token =>
    have ⟨⟨_, _, hobuf, _⟩, _⟩ := hl
    rcases Nat.lt_or_ge s.dp.ip s.dp.n with hi | hi
    · rw [fetch_token_octet s hi] at hf
      split_ifs at hf <;> cases hf
      · exact h.matchLen hm hl _
      · rw [exec_lit, exec_lit, hobuf]
        exact ⟨_, _, rfl, rfl, h.stepWith hm hl ..⟩
    · rw [fetch_token_none s hi] at hf
      cases hf
      rw [exec_pad, exec_pad, hobuf]
      exact ⟨_, _, rfl, rfl, h.stepWith hm hl ..⟩
  | chunkEnd => cases hf

/-- So does the move of the engine where no element is fetched. -/
theorem SameRun.of_engineMove {p : Point} (h : SameRun s t) (hp : s.phase = .busy p) (hf : s.fetch p = none) :
    ∃ s' t', engineMove s p = .next s' ∧ engineMove t p = .next t' ∧ SameRun s' t' := by
  obtain ⟨hm, hl⟩ := h.live_busy hp
  obtain ⟨hq, hlen, hread⟩ := h.input
  rcases point_of_fetch_none hf with rfl | rfl | rfl
  · exact ⟨_, _, rfl, rfl, sameRun_endStream h.input h.results hm hl false⟩
  · exact ⟨_, _, rfl, rfl, h.goesOn (q := .chunkEnd) ⟨hq, hlen, hread⟩ rfl rfl ⟨rfl, rfl, rfl⟩ ⟨rfl, rfl, rfl⟩
      h.results ⟨hm, hl⟩⟩
  · exact ⟨_, _, rfl, rfl, h.endChunk hm hl⟩

/-- Settles O54: outside BUSY both hold their state; BUSY, both fetch the same element or none, and do the same. -/
theorem stepKeepsSameRun : Obligations.StepKeepsSameRun := by
  intro s t s' hs _ hqs hqt h hstep
  cases hb : s.phase.isBusy with
  | false =>
    rw [step_of_idle hqs hb] at hstep
    cases hstep
    exact ⟨t, step_of_idle hqt (h.phase ▸ hb), h⟩
  | true =>
    obtain ⟨p, hp⟩ := (Phase.isBusy_iff _).1 hb
    obtain ⟨-, hinv, hres⟩ := (engineInv_of_busy hp).1 hs.engine
    have hsame : ∃ u v, step s = .next u ∧ step t = .next v ∧ SameRun u v := by
      rw [step_of_busy hqs hp, step_of_busy hqt (h.phase.trans hp), h.fetch_eq hp hinv]
      cases hf : s.fetch p with
      | some i => exact h.of_exec hp hinv hres hf
      | none => exact h.of_engineMove hp hf
    obtain ⟨u, v, hu, hv, huv⟩ := hsame
    rw [hu] at hstep
    cases hstep
    exact ⟨v, hv, huv⟩

end Sys2Proof.Machine

namespace Sys2Proof.Machine

/-! ## The elements of a chunk (41_chunk_decoder.md R121 to R141) -/

theorem exec_initCtx (ctx : List Byte) (s : State) :
    exec (.initCtx ctx) s = .next { s with
      phase := .busy .mask
      obuf := ctx
      ht := if ctx.length < 4 then [] else [((hashOf (contextOf ctx)).toNat, ctx.length)]
      dp := { s.dp with ip := ctx.length } } := by
  show Host.Outcome.next (if ctx.length < 4 then _ else _) = .next _
  split_ifs <;> rfl

/-- Settles O25: HT is cleared before the one insert, so every other hash has no entry. -/
theorem initialContextIsOutputAndHashed : Obligations.InitialContextIsOutputAndHashed := by
  intro s ctx _ hl
  refine ⟨_, exec_initCtx ctx s, rfl, rfl, rfl, fun h4 h => ?_, ?_,
    ⟨rfl, rfl, rfl, rfl, rfl, rfl, rfl, fun _ => rfl, fun _ => rfl⟩, rfl, rfl, rfl⟩
  · simp only [State.htLookup, if_pos h4, Sparse.get_nil]
  · rintro x0 x1 x2 x3 rfl h
    rw [← contextOf_append_four [] x0 x1 x2 x3]
    exact htLookup_htInsert State.reset _ h 4

/-- Settles O26: the engine fetches a mask byte exactly where the loop test passes. -/
theorem groupLoopTakesMaskOrEnds : Obligations.GroupLoopTakesMaskOrEnds := by
  refine ⟨fun s m _ => ⟨_, rfl, rfl, rfl, ⟨rfl, rfl, rfl, rfl, rfl, rfl, rfl, fun _ => rfl, fun _ => rfl⟩,
    ⟨rfl, rfl, rfl⟩, rfl, fun _ => rfl⟩, fun s hq hp => ⟨fun ht => ?_, fun ht => ?_⟩⟩
  · exact step_of_fetch hq hp (by rw [fetch_mask, if_pos ht])
  · rw [step_of_busy hq hp, fetch_mask, if_neg ht]
    rfl

/-! ### A step of a group -/

section

variable {s t : State}

theorem stepRegisters_matchFaulted (s : State) (l : Byte) (c : Code) (e : Option Nat) :
    StepRegisters s (s.matchFaulted l c e) l true false := ⟨rfl, rfl, rfl, rfl, rfl, rfl, rfl⟩

/-- A step of a group reads its octet, or pads, and appends by `stepWith` or faults by `matchFaulted`. -/
inductive GroupStep (s : State) : State → Prop
  | appends (cur : Byte) (bit exh : Bool) (e : Option Nat) (k : Nat) (out : List Byte)
    (hoctet : s.dp.ip < s.dp.n → cur = s.readIn (s.dp.pb + s.dp.ip) ∧ bit = s.maskBit ∧ exh = false)
    (hpad : s.dp.n ≤ s.dp.ip → cur = Config.padByte ∧ bit = false ∧ exh = true) :
    GroupStep s (s.stepWith cur bit exh e k out)
  | faults (c : Code) (e : Option Nat) (hi : s.dp.ip < s.dp.n) (hb : s.maskBit = true) :
    GroupStep s (s.matchFaulted (s.readIn (s.dp.pb + s.dp.ip)) c e)

theorem groupStep_of_step (hq : s.queue = []) (hp : s.phase = .busy .token) (h : step s = .next t) :
    GroupStep s t := by
  rcases Nat.lt_or_ge s.dp.ip s.dp.n with hi | hi
  · rw [step_of_fetch hq hp (fetch_token_octet s hi)] at h
    cases hb : s.maskBit with
    | false =>
      rw [hb] at h
      cases h
      exact .appends _ false false _ _ _ (fun _ => ⟨rfl, hb.symm, rfl⟩) (fun hn => absurd hi (Nat.not_lt.2 hn))
    | true =>
      simp only [hb, if_true] at h
      rcases matchFaults_or_entry s (s.readIn (s.dp.pb + s.dp.ip)) with ⟨c, e, hf⟩ | ⟨e, he, hn⟩
      · rw [exec_matchLen_of_faults hf] at h
        cases h
        exact .faults c e hi hb
      · rw [exec_matchLen_of_entry he hn] at h
        cases h
        exact .appends _ true false _ _ _ (fun _ => ⟨rfl, hb.symm, rfl⟩) (fun hn => absurd hi (Nat.not_lt.2 hn))
  · rw [step_of_fetch hq hp (fetch_token_none s hi)] at h
    cases h
    exact .appends _ false true _ _ _ (fun h => absurd h (Nat.not_lt.2 hi)) (fun _ => ⟨rfl, rfl, rfl⟩)

end

/-- Settles O27: both kinds of step leave the registers of the octet they read, or of the pad. -/
theorem stepFetchesOctetOrPads : Obligations.StepFetchesOctetOrPads := by
  intro s t hq hp h
  cases groupStep_of_step hq hp h with
  | appends cur bit exh e k out hoctet hpad =>
    obtain ⟨hcur, hbit, hexh, hip, -⟩ := stepRegisters_stepWith s cur bit exh e k out
    rw [hcur, hbit, hexh, hip]
    refine ⟨fun hi => ?_, fun hi => ?_⟩
    · obtain ⟨rfl, rfl, rfl⟩ := hoctet hi
      exact ⟨rfl, rfl, rfl, rfl⟩
    · obtain ⟨rfl, rfl, rfl⟩ := hpad hi
      exact ⟨rfl, rfl, rfl, rfl⟩
  | faults c e hi hb => exact ⟨fun _ => ⟨rfl, rfl, hb.symm, rfl⟩, fun hn => absurd hi (Nat.not_lt.2 hn)⟩

/-- Settles O28: a step that appends inserts in its epilogue, a step that faults has none. -/
theorem stepInsertsOldLengthAtOldHash : Obligations.StepInsertsOldLengthAtOldHash := by
  intro s t hq hp h
  cases groupStep_of_step hq hp h with
  | appends cur bit exh e k out =>
    obtain ⟨-, -, -, -, hpre, hhash, -⟩ := stepRegisters_stepWith s cur bit exh e k out
    refine ⟨hpre, hhash, fun _ => insertedAt_stepWith s cur bit exh e k out, fun hd => ?_⟩
    rw [stepWith_phase] at hd
    split_ifs at hd
  | faults => exact ⟨rfl, rfl, fun hd => absurd rfl hd, fun _ => ⟨rfl, fun _ => rfl⟩⟩

/-- Settles O29: a literal is `stepWith` with the octet appended. -/
theorem literalAppendsItsOctet : Obligations.LiteralAppendsItsOctet := by
  intro s o _
  exact ⟨_, exec_lit o, stepWith_obuf .., insertedAt_stepWith _ _ _ _ _ _ _, stepRegisters_stepWith ..,
    groupGoesOn_octet .., stepWith_e .., stepWith_k .., sameHostSide_stepWith ..,
    sameFlags_stepWith .., sameOutsideChunk_stepWith ..⟩

/-- Settles O30: a pad is `stepWith` with 0xFF appended and no octet; the policy decides where it leads. -/
theorem padAppendsFFByPolicy : Obligations.PadAppendsFFByPolicy := by
  intro s _
  refine ⟨_, exec_pad, stepWith_obuf .., insertedAt_stepWith _ _ _ _ _ _ _, stepRegisters_stepWith ..,
    fun hg => ?_, fun ho => ?_, stepWith_e .., stepWith_k .., sameHostSide_stepWith ..,
    sameFlags_stepWith .., sameOutsideChunk_stepWith ..⟩
  · exact groupGoesOn_stepWith _ _ _ _ _ _ (by simp [hg])
  · rw [stepWith_phase, stepWith_bi, if_pos ⟨rfl, ho⟩, if_pos (.inl ⟨rfl, ho⟩)]
    exact ⟨rfl, rfl⟩

/-! ### A match -/

/-- Settles O31: a match with an entry is `stepWith` with the copy as its output, whose bytes are those it reads. -/
theorem matchCopiesFromItsEntry : Obligations.MatchCopiesFromItsEntry := by
  intro s l e _ he hn
  refine ⟨_, exec_matchLen_of_entry he hn, ?_, fun i hi => ?_, fun k hk => ?_, insertedAt_stepWith _ _ _ _ _ _ _,
    stepRegisters_stepWith .., groupGoesOn_octet .., stepWith_e .., stepWith_k ..,
    sameHostSide_stepWith .., sameFlags_stepWith .., sameOutsideChunk_stepWith ..⟩
  · rw [stepWith_obuf, copyLoop_length, State.olen]
  · rw [stepWith_obuf, copyLoop_getElem?_old _ _ _ _ _ hi]
  · rw [stepWith_obuf]
    exact copyLoop_getElem?_new e l.toNat s.obuf 0 k (show e < s.olen by omega) hk

/-- FAULT_INFO has L in bits 23:16 above the hash (10_state.md R30). -/
theorem faultInfo_eq (l : Byte) (h : BitVec 16) : (0#8 ++ l) ++ h = BitVec.ofNat 32 (l.toNat * 2 ^ 16 + h.toNat) := by
  have hl := l.isLt
  have hh := h.isLt
  apply BitVec.eq_of_toNat_eq
  rw [BitVec.toNat_append, BitVec.toNat_append, BitVec.toNat_ofNat, Nat.shiftLeft_eq,
    Nat.mul_comm _ (2 ^ 16), ← Nat.two_pow_add_eq_or_of_lt hh]
  simp only [BitVec.toNat_ofNat, Nat.zero_mod, Nat.zero_shiftLeft, Nat.zero_or]
  omega

/-- The result registers a match fault leaves: where it happened, and, but in DECODE_CHUNK, the records before it
(60_exceptions.md R232). -/
theorem matchFaulted_results (s : State) (l : Byte) {c : Code} (hc : c ≠ .badCommand) (e : Option Nat) :
    (s.matchFaulted l c e).results =
      { s.results with
        outLen := if s.dp.modeL = 2#2 then 0#32 else BitVec.ofNat 32 s.dp.fwlen
        consumed := if s.dp.modeL = 2#2 then BitVec.ofNat 32 (s.dp.ip + 1) else BitVec.ofNat 32 s.dp.sp
        chunks := if s.dp.modeL = 2#2 then 0#32 else BitVec.ofNat 32 s.dp.nch
        faultChunk := if s.dp.modeL = 2#2 then 0#32 else BitVec.ofNat 32 s.dp.nch
        faultPos := BitVec.ofNat 32 s.olen
        faultInfo := BitVec.ofNat 32 (l.toNat * 2 ^ 16 + (hashOf (contextOf s.obuf)).toNat)
        faultIpos := BitVec.ofNat 32 (s.dp.pb + s.dp.ip) } := by
  rw [← faultInfo_eq]
  simp [State.matchFaulted, State.faultResults, hc]

/-- Settles O32: either cause is a `MatchFaults`, whose state is `matchFaulted`. -/
theorem matchFaultsBeforeCopying : Obligations.MatchFaultsBeforeCopying := by
  intro s l c _ hcause
  obtain ⟨e, hf⟩ : ∃ e, MatchFaults s l c e := by
    rcases hcause with ⟨he, rfl⟩ | ⟨e, he, hp, hl, rfl⟩
    · exact ⟨_, .unknownContext he⟩
    · exact ⟨_, .selfReference e he hl hp⟩
  have hc : c ≠ .badCommand := by rcases hf.code with rfl | rfl <;> decide
  refine ⟨_, exec_matchLen_of_faults hf, rfl, rfl, rfl, rfl, ⟨rfl, fun _ => rfl⟩, stepRegisters_matchFaulted ..,
    ⟨rfl, rfl, rfl, rfl, rfl, rfl, rfl, rfl, rfl, rfl, rfl, rfl⟩, ?_⟩
  rw [matchFaulted_results s l hc]
  refine ⟨rfl, rfl, rfl, fun hm => ?_, fun hm => ?_, rfl, rfl, rfl, rfl, rfl, rfl, rfl, fun _ => rfl, fun _ => rfl⟩
  · exact ⟨if_pos hm, if_pos hm, if_pos hm, if_pos hm⟩
  · exact ⟨if_neg hm, if_neg hm, if_neg hm, if_neg hm⟩

/-- Settles O33: a match of length 0 inserts pre_len under the hash of an output it leaves, so the next match finds that
entry, which is not below pre_len. -/
theorem matchAfterZeroLengthMatchSelfReferences : Obligations.MatchAfterZeroLengthMatchSelfReferences := by
  intro s l e _ hbi he hl
  have hcopy : exec (.matchLen 0#8) s = .next (s.stepWith 0#8 true false (some e) 0 s.obuf) :=
    exec_matchLen_of_entry he (.inr rfl)
  generalize ht : s.stepWith 0#8 true false (some e) 0 s.obuf = t at hcopy
  have hobuf : t.obuf = s.obuf := ht ▸ stepWith_obuf ..
  have hphase : t.phase = .busy .token := by
    obtain ⟨-, hgo⟩ := groupGoesOn_octet s 0#8 true (some e) 0 s.obuf
    exact ht ▸ (hgo hbi).1
  have hfound : t.htLookup (hashOf (contextOf t.obuf)) = some s.olen := by
    have hins : InsertedAt s t := ht ▸ insertedAt_stepWith _ _ _ _ _ _ _
    rw [hobuf, hins, if_pos rfl]
  have holen : t.olen = s.olen := congrArg List.length hobuf
  have hf : MatchFaults t l .selfReference (some s.olen) := .selfReference _ hfound hl holen.le
  refine ⟨t, _, hcopy, hobuf, hphase, exec_matchLen_of_faults hf, rfl, rfl, rfl, ?_, hobuf⟩
  rw [matchFaulted_results t l (by decide), holen]

/-! ### The overlapping copy (41_chunk_decoder.md R141) -/

/-- The k-th byte a copy appends is the byte of the old output it began with, over and over. -/
theorem copyLoop_getElem?_mod {out : List Byte} {e n k : Nat} (he : e < out.length) (hk : k < n) :
    (copyLoop out e 0 n)[out.length + k]? = out[e + k % (out.length - e)]? := by
  have hold {i : Nat} (hi : i < out.length) := copyLoop_getElem?_old out e 0 n i hi
  induction k using Nat.strong_induction_on with
  | _ k ih =>
    rw [copyLoop_getElem?_new e n out 0 k he hk, Nat.add_zero]
    rcases Nat.lt_or_ge k (out.length - e) with hlt | hge
    · rw [Nat.mod_eq_of_lt hlt, hold (by omega)]
    · have hpos : e + k = out.length + (k - (out.length - e)) := by omega
      rw [hpos, ih _ (by omega) (by omega), Nat.mod_eq_sub_mod hge]

/-- Settles O34: the appended bytes are `copyLoop_getElem?_mod`, and the bytes from the entry on are what the copy
reads. -/
theorem matchCopyRepeatsItsSource : Obligations.MatchCopyRepeatsItsSource := by
  intro s l e _ he hlt
  refine ⟨_, exec_matchLen_of_entry he (.inl hlt), ?_, fun k hk => ?_⟩
  · rw [stepWith_obuf, copyLoop_length, State.olen]
  · rw [stepWith_obuf]
    have hsrc : e + k % (s.olen - e) < s.olen := by
      have := Nat.mod_lt k (show 0 < s.olen - e by omega)
      omega
    have hold := copyLoop_getElem?_old s.obuf e 0 l.toNat _ hsrc
    have hnew : (copyLoop s.obuf e 0 l.toNat)[s.olen + k]? = s.obuf[e + k % (s.olen - e)]? :=
      copyLoop_getElem?_mod hlt hk
    have hread := copyLoop_getElem?_new e l.toNat s.obuf 0 k hlt hk
    rw [hold]
    exact ⟨hread.symm.trans hnew, hnew, rfl⟩

end Sys2Proof.Machine

namespace Sys2Proof.Machine

/-! ## The decoder computes the reference (41_chunk_decoder.md R120)

A machine at a point of a chunk stands for the variables of `Ref`: the cursor, the output and the table. One step of a
group is one `Ref.chunkStep`, so a group is one `Ref.chunkGroup`, the groups are `Ref.chunkLoop`, and what the decode
leaves outside the chunk is as it was. -/

/-- What the reference carries from step to step, read off the machine. -/
def State.chunkVars (s : State) : Ref.ChunkVars := ⟨s.dp.ip, s.obuf, s.htLookup⟩

/-- What a decode leaves as it was: everything but the chunk's own registers and memories. -/
structure InChunk (s t : State) : Prop where
  host : SameHostSide s t
  flags : SameFlags s t
  outside : SameOutsideChunk s t

section InChunk

variable {s t u : State}

theorem SameHostSide.trans (h : SameHostSide s t) (h' : SameHostSide t u) : SameHostSide s u where
  params := h'.params.trans h.params
  mode := h'.mode.trans h.mode
  inLen := h'.inLen.trans h.inLen
  results := h'.results.trans h.results
  queue := h'.queue.trans h.queue
  bus := h'.bus.trans h.bus
  draws := h'.draws.trans h.draws
  readIn a := (h'.readIn a).trans (h.readIn a)
  readOut a := (h'.readOut a).trans (h.readOut a)

theorem SameFlags.trans (h : SameFlags s t) (h' : SameFlags t u) : SameFlags s u :=
  ⟨h'.success.trans h.success, h'.fault.trans h.fault, h'.code.trans h.code⟩

theorem SameOutsideChunk.trans (h : SameOutsideChunk s t) (h' : SameOutsideChunk t u) : SameOutsideChunk s u where
  modeL := h'.modeL.trans h.modeL
  sb := h'.sb.trans h.sb
  sl := h'.sl.trans h.sl
  sp := h'.sp.trans h.sp
  nch := h'.nch.trans h.nch
  cs := h'.cs.trans h.cs
  pb := h'.pb.trans h.pb
  n := h'.n.trans h.n
  fwlen := h'.fwlen.trans h.fwlen
  m1 := h'.m1.trans h.m1
  size := h'.size.trans h.size
  crc := h'.crc.trans h.crc

theorem InChunk.refl (s : State) : InChunk s s :=
  ⟨⟨rfl, rfl, rfl, rfl, rfl, rfl, rfl, fun _ => rfl, fun _ => rfl⟩, ⟨rfl, rfl, rfl⟩,
    ⟨rfl, rfl, rfl, rfl, rfl, rfl, rfl, rfl, rfl, rfl, rfl, rfl⟩⟩

theorem InChunk.trans (h : InChunk s t) (h' : InChunk t u) : InChunk s u :=
  ⟨h.host.trans h'.host, h.flags.trans h'.flags, h.outside.trans h'.outside⟩

/-- A change of the point, of OBUF, of HT and of the decoder's own registers. -/
theorem inChunk_of_eq (hhost : t = { s with phase := t.phase, dp := t.dp, obuf := t.obuf, ht := t.ht })
    (hout : SameOutsideChunk s t) : InChunk s t := by
  rw [hhost] at hout ⊢
  exact ⟨⟨rfl, rfl, rfl, rfl, rfl, rfl, rfl, fun _ => rfl, fun _ => rfl⟩, ⟨rfl, rfl, rfl⟩, hout⟩

theorem inChunk_stepWith (s : State) (cur : Byte) (bit exh : Bool) (e : Option Nat) (k : Nat) (out : List Byte) :
    InChunk s (s.stepWith cur bit exh e k out) :=
  ⟨sameHostSide_stepWith .., sameFlags_stepWith .., sameOutsideChunk_stepWith ..⟩

end InChunk

/-- The bytes being decoded: IN[PB .. PB + N). -/
def State.payload (s : State) : List Byte := s.inBytes s.dp.pb s.dp.n

theorem payload_getElem? (s : State) (i : Nat) :
    s.payload[i]? = if i < s.dp.n then some (s.readIn (s.dp.pb + i)) else none := inBytes_getElem? ..

theorem InChunk.payload_eq {s t : State} (h : InChunk s t) : t.payload = s.payload := by
  rw [State.payload, State.payload, h.outside.pb, h.outside.n]
  exact inBytes_congr _ _ fun a _ _ => h.host.readIn a

/-! ### Runs -/

/-- Some number of steps leads from one state to the other. -/
def RunsTo (s t : State) : Prop := ∃ k, runSteps k s = .next t

theorem RunsTo.refl (s : State) : RunsTo s s := ⟨0, rfl⟩

theorem RunsTo.head {s t u : State} (h : step s = .next t) (hr : RunsTo t u) : RunsTo s u := by
  obtain ⟨k, hk⟩ := hr
  exact ⟨k + 1, (runSteps_succ h).trans hk⟩

theorem runSteps_add {j : Nat} {s t : State} (k : Nat) (h : runSteps j s = .next t) :
    runSteps (j + k) s = runSteps k t := by
  induction j generalizing s with
  | zero =>
    cases h
    rw [Nat.zero_add]
  | succ j ih =>
    rw [runSteps] at h
    split at h
    · next u hu => rw [Nat.succ_add, runSteps_succ hu, ih h]
    · cases h
    · cases h

theorem RunsTo.trans {s t u : State} (h : RunsTo s t) (hr : RunsTo t u) : RunsTo s u := by
  obtain ⟨j, hj⟩ := h
  obtain ⟨k, hk⟩ := hr
  exact ⟨j + k, (runSteps_add k hj).trans hk⟩

/-! ### Where a decode leads -/

/-- The decode runs on to the point `p`, where it stands for `v`. -/
def State.Reaches (s : State) (p : Point) (v : Ref.ChunkVars) : Prop :=
  ∃ u, RunsTo s u ∧ u.phase = .busy p ∧ InChunk s u ∧ u.chunkVars = v

/-- The decode runs into the fault of a match, at the place the reference gives. -/
def State.RunsIntoFault (s : State) (f : Ref.MatchFault) : Prop :=
  ∃ u l c e, MatchFaults u l c e ∧ f = ⟨c, u.olen, hashOf (contextOf u.obuf), l, u.dp.ip⟩ ∧ InChunk s u ∧
    RunsTo s (u.matchFaulted l c e)

theorem State.Reaches.of_runsTo {s t : State} {p : Point} {v : Ref.ChunkVars} (h : t.Reaches p v) (hr : RunsTo s t)
    (hc : InChunk s t) : s.Reaches p v := by
  obtain ⟨u, hru, hpu, hcu, hdu⟩ := h
  exact ⟨u, hr.trans hru, hpu, hc.trans hcu, hdu⟩

theorem State.RunsIntoFault.of_runsTo {s t : State} {f : Ref.MatchFault} (h : t.RunsIntoFault f) (hr : RunsTo s t)
    (hc : InChunk s t) : s.RunsIntoFault f := by
  obtain ⟨u, l, c, e, hf, hfe, hcu, hru⟩ := h
  exact ⟨u, l, c, e, hf, hfe, hc.trans hcu, hr.trans hru⟩

/-- A step of a group goes on with it, ends the decode, or faults, as the reference's step does. -/
def State.StepsAs (s : State) : Ref.Progress → Prop
  | .goOn w => ∃ u, step s = .next u ∧ InChunk s u ∧ u.chunkVars = w ∧ u.dp.mask = s.dp.mask ∧ GroupGoesOn s u
  | .stop w => ∃ u, step s = .next u ∧ InChunk s u ∧ u.chunkVars = w ∧ u.phase = .busy .chunkEnd
  | .fault f => s.RunsIntoFault f

/-- Several steps lead to the point `p` where the reference goes on, to the end of the chunk where it stops, or
fault. -/
def State.RunsAs (s : State) (p : Point) : Ref.Progress → Prop
  | .goOn w => s.Reaches p w
  | .stop w => s.Reaches .chunkEnd w
  | .fault f => s.RunsIntoFault f

/-- The decode of a chunk ends with its bytes and its cursor, or faults. -/
def State.ChunkEndsAs (s : State) : Ref.ChunkResult → Prop
  | .bytes out ip =>
    ∃ u, RunsTo s u ∧ u.phase = .busy .chunkEnd ∧ InChunk s u ∧ u.chunkBytes = out ∧ u.dp.ip = ip
  | .fault f => s.RunsIntoFault f

/-! ### One step -/

/-- The copy of a match appends the bytes the reference does (R130, R141). -/
theorem copyLoop_eq_append_matchBytes {out : List Byte} {e n : Nat} (hn : e < out.length ∨ n = 0) :
    copyLoop out e 0 n = out ++ Ref.matchBytes out e n := by
  refine List.ext_getElem? fun i => ?_
  rcases Nat.lt_or_ge i out.length with hi | hi
  · rw [copyLoop_getElem?_old _ _ _ _ _ hi, List.getElem?_append_left hi]
  · obtain ⟨k, rfl⟩ := Nat.exists_eq_add_of_le hi
    rw [List.getElem?_append_right hi, Nat.add_sub_cancel_left]
    rcases Nat.lt_or_ge k n with hk | hk
    · have he : e < out.length := by omega
      have hmod := Nat.mod_lt k (show 0 < out.length - e by omega)
      have hsrc : e + k % (out.length - e) < out.length := by omega
      rw [copyLoop_getElem?_mod he hk]
      simp [Ref.matchBytes, obufAt, hk, hsrc]
    · rw [List.getElem?_eq_none (by rw [copyLoop_length]; omega),
        List.getElem?_eq_none (by simp [Ref.matchBytes, hk])]

/-- A step that appends leads to the reference's new variables. -/
theorem stepWith_chunkVars (s : State) (cur : Byte) (bit exh : Bool) (e : Option Nat) (k : Nat) (out : List Byte) :
    (s.stepWith cur bit exh e k out).chunkVars =
      ⟨if exh then s.dp.ip else s.dp.ip + 1, out,
        Ref.insertAt s.htLookup (hashOf (contextOf s.obuf)) s.obuf.length⟩ := by
  obtain ⟨-, -, -, hip, -⟩ := stepRegisters_stepWith s cur bit exh e k out
  have htable : (s.stepWith cur bit exh e k out).htLookup =
      Ref.insertAt s.htLookup (hashOf (contextOf s.obuf)) s.obuf.length :=
    funext (insertedAt_stepWith s cur bit exh e k out)
  rw [State.chunkVars, hip, stepWith_obuf, htable]

/-- A step with an octet that does not fault goes on. -/
theorem stepsAs_octet {s : State} {cur : Byte} {bit : Bool} {e : Option Nat} {k : Nat} {out : List Byte}
    (h : step s = .next (s.stepWith cur bit false e k out)) :
    s.StepsAs
      (.goOn ⟨s.dp.ip + 1, out, Ref.insertAt s.htLookup (hashOf (contextOf s.obuf)) s.obuf.length⟩) :=
  ⟨_, h, inChunk_stepWith .., stepWith_chunkVars .., (stepRegisters_stepWith ..).mask, groupGoesOn_octet ..⟩

theorem stepsAs_fault {s : State} {l : Byte} {c : Code} {e : Option Nat} (hf : MatchFaults s l c e)
    (h : step s = .next (s.matchFaulted l c e)) :
    s.StepsAs (.fault ⟨c, s.olen, hashOf (contextOf s.obuf), l, s.dp.ip⟩) :=
  ⟨s, l, c, e, hf, rfl, .refl s, .head h (.refl _)⟩

theorem stepsAs_chunkStep {s : State} (hq : s.queue = []) (hp : s.phase = .busy .token) :
    s.StepsAs (Ref.chunkStep s.params.padPolicy s.payload s.dp.mask s.dp.bi s.chunkVars) := by
  have hstep {i : Instr} (hf : s.fetch .token = some i) : step s = exec i s := step_of_fetch hq hp hf
  have hoctet := payload_getElem? s s.dp.ip
  rw [State.chunkVars, Ref.chunkStep.eq_def]
  rcases Nat.lt_or_ge s.dp.ip s.dp.n with hi | hi
  · have hfetch := hstep (fetch_token_octet s hi)
    rw [if_pos hi] at hoctet
    rw [hoctet]
    dsimp only
    cases hb : s.dp.mask.getLsbD s.dp.bi with
    | false =>
      rw [State.maskBit, hb] at hfetch
      exact stepsAs_octet hfetch
    | true =>
      rw [State.maskBit, hb] at hfetch
      rw [if_pos rfl]
      cases he : s.htLookup (hashOf (contextOf s.obuf)) with
      | none =>
        have hf : MatchFaults s (s.readIn (s.dp.pb + s.dp.ip)) _ _ := .unknownContext he
        exact stepsAs_fault hf (hfetch.trans (exec_matchLen_of_faults hf))
      | some e =>
        dsimp only
        split_ifs with hc
        · have hf : MatchFaults s _ _ _ := .selfReference e he hc.1 hc.2
          exact stepsAs_fault hf (hfetch.trans (exec_matchLen_of_faults hf))
        · have hn : e < s.obuf.length ∨ (s.readIn (s.dp.pb + s.dp.ip)).toNat = 0 := by omega
          rw [← copyLoop_eq_append_matchBytes hn]
          exact stepsAs_octet (hfetch.trans (exec_matchLen_of_entry he hn))
  · have hfetch := hstep (fetch_token_none s hi)
    rw [if_neg (Nat.not_lt.2 hi)] at hoctet
    rw [hoctet]
    dsimp only
    cases hpol : s.params.padPolicy with
    | padGroup =>
      exact ⟨_, hfetch, inChunk_stepWith .., stepWith_chunkVars .., (stepRegisters_stepWith ..).mask,
        groupGoesOn_stepWith _ _ _ _ _ _ (by simp [hpol])⟩
    | padOnce =>
      exact ⟨_, hfetch, inChunk_stepWith .., stepWith_chunkVars .., (stepWith_phase ..).trans (if_pos ⟨rfl, hpol⟩)⟩

/-! ### A group, the groups, the chunk -/

theorem State.RunsAs.of_runsTo {s t : State} {p : Point} {r : Ref.Progress} (h : t.RunsAs p r) (hr : RunsTo s t)
    (hc : InChunk s t) : s.RunsAs p r := by
  cases r with
  | goOn w => exact State.Reaches.of_runsTo h hr hc
  | stop w => exact State.Reaches.of_runsTo h hr hc
  | fault f => exact State.RunsIntoFault.of_runsTo h hr hc

/-- Before the last `n` steps of a group. -/
def State.StepsOfGroupLeft (s : State) : Nat → Prop
  | 0 => s.phase = .busy .mask
  | n + 1 => s.phase = .busy .token ∧ s.dp.bi = n

theorem GroupGoesOn.stepsLeft {s u : State} (h : GroupGoesOn s u) : u.StepsOfGroupLeft s.dp.bi := by
  obtain ⟨hend, hnext⟩ := h
  cases hb : s.dp.bi with
  | zero => exact (hend hb).1
  | succ n =>
    obtain ⟨hp, hu⟩ := hnext (by omega)
    exact ⟨hp, by omega⟩

/-- A group leads back to the loop test, unless it ends the decode or faults. -/
theorem runsAs_chunkGroup {n : Nat} {s : State} (hq : s.queue = []) (hn : s.StepsOfGroupLeft n) :
    s.RunsAs .mask (Ref.chunkGroup s.params.padPolicy s.payload s.dp.mask n s.chunkVars) := by
  induction n generalizing s with
  | zero => exact ⟨s, .refl s, hn, .refl s, rfl⟩
  | succ n ih =>
    obtain ⟨hp, hbi⟩ := hn
    have hs := stepsAs_chunkStep hq hp
    rw [hbi] at hs
    unfold Ref.chunkGroup
    cases hstep : Ref.chunkStep s.params.padPolicy s.payload s.dp.mask n s.chunkVars with
    | goOn w =>
      rw [hstep] at hs
      obtain ⟨u, hu, hc, rfl, hmask, hgo⟩ := hs
      have hrest := ih (hc.host.queue.trans hq) (hbi ▸ hgo.stepsLeft)
      rw [hc.host.params, hc.payload_eq, hmask] at hrest
      exact hrest.of_runsTo (.head hu (.refl u)) hc
    | stop w =>
      rw [hstep] at hs
      obtain ⟨u, hu, hc, hv, hpu⟩ := hs
      exact ⟨u, .head hu (.refl u), hpu, hc, hv⟩
    | fault f =>
      rw [hstep] at hs
      exact hs

/-- Where the loop test fails the decode ends (R123). -/
theorem reaches_chunkEnd {s : State} (hq : s.queue = []) (hp : s.phase = .busy .mask)
    (ht : ¬ (s.olen < 0x10000 ∧ s.dp.ip < s.dp.n)) : s.Reaches .chunkEnd s.chunkVars := by
  have hstep : step s = .next (s.goto .chunkEnd) := by
    rw [step_of_busy hq hp, fetch_mask, if_neg ht]
    rfl
  exact ⟨_, .head hstep (.refl _), rfl, inChunk_of_eq rfl ⟨rfl, rfl, rfl, rfl, rfl, rfl, rfl, rfl, rfl, rfl, rfl, rfl⟩,
    rfl⟩

/-- A step that goes on does not move the cursor back. -/
theorem chunkStep_ip_le {pol : PadPolicy} {payload : List Byte} {m : Byte} {bi : Nat} {v w : Ref.ChunkVars}
    (h : Ref.chunkStep pol payload m bi v = .goOn w) : v.ip ≤ w.ip := by
  simp only [Ref.chunkStep] at h
  split at h
  · split at h <;> cases h
    exact le_rfl
  · split at h
    · split at h
      · cases h
      · split at h <;> cases h
        exact Nat.le_succ _
    · cases h
      exact Nat.le_succ _

theorem chunkGroup_ip_le {pol : PadPolicy} {payload : List Byte} {m : Byte} {n : Nat} {v w : Ref.ChunkVars}
    (h : Ref.chunkGroup pol payload m n v = .goOn w) : v.ip ≤ w.ip := by
  induction n generalizing v with
  | zero =>
    cases h
    exact le_rfl
  | succ n ih =>
    rw [Ref.chunkGroup] at h
    split at h
    · next u hu => exact (chunkStep_ip_le hu).trans (ih h)
    · next hn => exact absurd h (hn w)

/-- The state after the mask byte at the cursor has been taken (R124). -/
def State.maskTaken (s : State) : State :=
  { s with
    phase := .busy .token
    dp := { s.dp with mask := s.readIn (s.dp.pb + s.dp.ip), ip := s.dp.ip + 1, bi := 7 } }

theorem step_maskTaken {s : State} (hq : s.queue = []) (hp : s.phase = .busy .mask)
    (ht : s.olen < 0x10000 ∧ s.dp.ip < s.dp.n) : step s = .next s.maskTaken := by
  rw [step_of_fetch hq hp (by rw [fetch_mask, if_pos ht])]
  rfl

theorem inChunk_maskTaken (s : State) : InChunk s s.maskTaken :=
  inChunk_of_eq rfl ⟨rfl, rfl, rfl, rfl, rfl, rfl, rfl, rfl, rfl, rfl, rfl, rfl⟩

/-- A group, from the loop test that passes. -/
theorem runsAs_group {s : State} (hq : s.queue = []) (hp : s.phase = .busy .mask)
    (ht : s.olen < 0x10000 ∧ s.dp.ip < s.dp.n) :
    s.RunsAs .mask (Ref.chunkGroup s.params.padPolicy s.payload (s.readIn (s.dp.pb + s.dp.ip)) 8
      { s.chunkVars with ip := s.chunkVars.ip + 1 }) := by
  have hc := inChunk_maskTaken s
  have h := runsAs_chunkGroup (s := s.maskTaken) (n := 8) hq ⟨rfl, rfl⟩
  rw [hc.payload_eq] at h
  exact h.of_runsTo (.head (step_maskTaken hq hp ht) (.refl _)) hc

/-- The group loop: each group takes a byte, so the bytes left are fuel enough. -/
theorem runsAs_chunkLoop {fuel : Nat} {s : State} (hq : s.queue = []) (hp : s.phase = .busy .mask)
    (hfuel : s.dp.n ≤ s.dp.ip + fuel) :
    s.RunsAs .chunkEnd (Ref.chunkLoop s.params.padPolicy s.payload fuel s.chunkVars) := by
  induction fuel generalizing s with
  | zero => exact reaches_chunkEnd hq hp (by omega)
  | succ fuel ih =>
    have hbyte := payload_getElem? s s.dp.ip
    rw [Ref.chunkLoop.eq_def]
    dsimp only
    split_ifs with ho
    case neg => exact reaches_chunkEnd hq hp fun ht => ho ht.1
    rcases Nat.lt_or_ge s.dp.ip s.dp.n with hi | hi
    case inr =>
      have hnone : s.payload[s.chunkVars.ip]? = none := hbyte.trans (if_neg (Nat.not_lt.2 hi))
      rw [hnone]
      exact reaches_chunkEnd hq hp fun ht => Nat.not_lt.2 hi ht.2
    have hsome : s.payload[s.chunkVars.ip]? = some (s.readIn (s.dp.pb + s.dp.ip)) := hbyte.trans (if_pos hi)
    have hgroup := runsAs_group hq hp ⟨ho, hi⟩
    rw [hsome]
    dsimp only [Config.groupBits]
    cases hr : Ref.chunkGroup s.params.padPolicy s.payload (s.readIn (s.dp.pb + s.dp.ip)) 8
        { s.chunkVars with ip := s.chunkVars.ip + 1 } with
    | goOn w =>
      rw [hr] at hgroup
      obtain ⟨u, hru, hpu, hcu, rfl⟩ := hgroup
      have hip : s.dp.ip + 1 ≤ u.dp.ip := chunkGroup_ip_le hr
      have hrest := ih (hcu.host.queue.trans hq) hpu (by rw [hcu.outside.n]; omega)
      rw [hcu.host.params, hcu.payload_eq] at hrest
      exact hrest.of_runsTo hru hcu
    | stop w =>
      rw [hr] at hgroup
      exact hgroup
    | fault f =>
      rw [hr] at hgroup
      exact hgroup

/-- The initial context is the first bytes of the payload (R121). -/
theorem take_payload (s : State) : s.payload.take 4 = s.inBytes s.dp.pb (min 4 s.dp.n) := by
  refine List.ext_getElem? fun i => ?_
  rw [List.getElem?_take, payload_getElem?, inBytes_getElem?]
  by_cases hi : i < min 4 s.dp.n
  · rw [if_pos hi, if_pos (by omega), if_pos (by omega)]
  · rw [if_neg hi]
    split_ifs
    · omega
    · rfl
    · rfl

/-- The state after the initial context (R121, R122). -/
def State.contextTaken (s : State) : State :=
  { s with
    phase := .busy .mask
    obuf := s.payload.take 4
    ht := if (s.payload.take 4).length < 4 then []
      else [((hashOf (contextOf (s.payload.take 4))).toNat, (s.payload.take 4).length)]
    dp := { s.dp with ip := (s.payload.take 4).length } }

theorem step_contextTaken {s : State} (hq : s.queue = []) (hp : s.phase = .busy .initCtx) :
    step s = .next s.contextTaken := by
  rw [step_of_fetch hq hp (fetch_initCtx s), ← take_payload]
  exact exec_initCtx _ s

theorem inChunk_contextTaken (s : State) : InChunk s s.contextTaken :=
  inChunk_of_eq rfl ⟨rfl, rfl, rfl, rfl, rfl, rfl, rfl, rfl, rfl, rfl, rfl, rfl⟩

theorem payload_length (s : State) : s.payload.length = s.dp.n := inBytes_length ..

theorem contextTaken_chunkVars (s : State) :
    s.contextTaken.chunkVars =
      ⟨(s.payload.take 4).length, s.payload.take 4,
        if s.payload.length < 4 then fun _ => none
        else Ref.insertAt (fun _ => none) (hashOf (contextOf (s.payload.take 4))) 4⟩ := by
  have hlen := List.length_take (l := s.payload) (i := 4)
  refine congrArg (Ref.ChunkVars.mk _ _) (funext fun g => ?_)
  by_cases h4 : s.payload.length < 4
  · simp only [State.htLookup, State.contextTaken, if_pos h4, if_pos (show (s.payload.take 4).length < 4 by omega),
      Sparse.get_nil]
  · simp only [State.htLookup, State.contextTaken, if_neg h4, if_neg (show ¬ (s.payload.take 4).length < 4 by omega)]
    rw [show (s.payload.take 4).length = 4 by omega]
    exact htLookup_htInsert State.reset _ g 4

/-- The decode of a chunk, from its initial context on. -/
theorem chunkEndsAs_decodeChunk {s : State} (hq : s.queue = []) (hp : s.phase = .busy .initCtx) :
    s.ChunkEndsAs (Ref.decodeChunk s.params.padPolicy s.payload) := by
  have hc := inChunk_contextTaken s
  have hloop : s.RunsAs .chunkEnd
      (Ref.chunkLoop s.params.padPolicy s.payload s.payload.length s.contextTaken.chunkVars) := by
    have h := runsAs_chunkLoop (s := s.contextTaken) (fuel := s.payload.length) hq rfl
      (by rw [payload_length]; exact Nat.le_add_left _ _)
    rw [hc.payload_eq] at h
    exact h.of_runsTo (.head (step_contextTaken hq hp) (.refl _)) hc
  rw [contextTaken_chunkVars] at hloop
  unfold Ref.decodeChunk
  dsimp only
  cases hr : Ref.chunkLoop s.params.padPolicy s.payload s.payload.length _ with
  | goOn v =>
    rw [hr] at hloop
    obtain ⟨u, hru, hpu, hcu, rfl⟩ := hloop
    exact ⟨u, hru, hpu, hcu, rfl, rfl⟩
  | stop v =>
    rw [hr] at hloop
    obtain ⟨u, hru, hpu, hcu, rfl⟩ := hloop
    exact ⟨u, hru, hpu, hcu, rfl, rfl⟩
  | fault f =>
    rw [hr] at hloop
    exact hloop

/-! ### DECODE_CHUNK -/

/-- DECODE_CHUNK begins to decode IN[0 .. IN_LEN) (44_commands.md R205). -/
theorem exec_decodeChunk {s : State} (hb : s.phase.isBusy = false) (hl : s.inLen.toNat ≤ s.params.inCap) :
    exec .decodeChunk s = .next ((s.clearForStart 2#2 .initCtx).beginChunk 0 s.inLen.toNat) := by
  show Host.Outcome.next (s.start 2#2 .initCtx fun t => t.beginChunk 0 s.inLen.toNat) = _
  rcases start_cases (s := s) 2#2 .initCtx (fun t => t.beginChunk 0 s.inLen.toNat) with ⟨hb', -⟩ | ⟨-, hm, -⟩ |
    ⟨-, -, -, h⟩
  · rw [hb] at hb'
    cases hb'
  · rcases hm with hm | hm
    · cases hm
    · omega
  · rw [h]

/-- DECODE_CHUNK writes its bytes from 0 on and succeeds. -/
theorem chunkCommandEnds_endChunkCmd {u : State} (hr : u.results = Results.zero) :
    ChunkCommandEnds u.endChunkCmd (.bytes u.chunkBytes u.dp.ip) := by
  refine ⟨rfl, rfl, rfl, ?_, fun i hi => ?_⟩
  · rw [← hr]
    rfl
  · have hw : Sparse.get u.endChunkCmd.outMem i = u.chunkBytes[i]? := by
      show Sparse.get (Sparse.putRun u.outMem 0 u.chunkBytes) i = _
      rw [Sparse.get_putRun, if_pos ⟨Nat.zero_le i, by omega⟩, Nat.sub_zero]
    rw [State.readOut, hw, List.getElem?_eq_getElem hi]
    rfl

/-- A match fault of DECODE_CHUNK is recorded with its payload index as its IN address. -/
theorem chunkCommandEnds_matchFaulted {u : State} {l : Byte} {c : Code} {e : Option Nat} (hf : MatchFaults u l c e)
    (hr : u.results = Results.zero) (hm : u.dp.modeL = 2#2) (hpb : u.dp.pb = 0) :
    ChunkCommandEnds (u.matchFaulted l c e) (.fault ⟨c, u.olen, hashOf (contextOf u.obuf), l, u.dp.ip⟩) := by
  have hc : c ≠ .badCommand := by rcases hf.code with rfl | rfl <;> decide
  refine ⟨rfl, rfl, rfl, ?_⟩
  rw [matchFaulted_results u l hc]
  simp only [hr, hm, hpb, if_true, Nat.zero_add]
  rfl

/-- Settles O56: from the accepted command the run is the reference's decode, and then the end of the command or the
fault entry. -/
theorem decodeChunkComputesTheReference : Obligations.DecodeChunkComputesTheReference := by
  intro s hs hq hb hl
  generalize hs0 : (s.clearForStart 2#2 .initCtx).beginChunk 0 s.inLen.toNat = s0
  have hexec : exec .decodeChunk s = .next s0 := hs0 ▸ exec_decodeChunk hb hl
  have hpayload : s0.payload = s.inBytes 0 s.inLen.toNat := by
    subst hs0
    exact inBytes_congr _ _ fun _ _ _ => rfl
  have hparams : s0.params = s.params := hs0 ▸ rfl
  have hmode : s0.dp.modeL = 2#2 := hs0 ▸ rfl
  have hpb : s0.dp.pb = 0 := hs0 ▸ rfl
  have hres : s0.results = Results.zero := hs0 ▸ rfl
  have hq0 : s0.queue = [] := hs0 ▸ hq
  have hend := chunkEndsAs_decodeChunk (s := s0) hq0 (hs0 ▸ rfl)
  rw [hpayload, hparams] at hend
  cases hr : Ref.decodeChunk s.params.padPolicy (s.inBytes 0 s.inLen.toNat) with
  | bytes out ip =>
    rw [hr] at hend
    obtain ⟨u, hru, hpu, hcu, rfl, rfl⟩ := hend
    have hstep : step u = .next u.endChunkCmd := by
      rw [step_of_busy (hcu.host.queue.trans hq0) hpu]
      exact congrArg Host.Outcome.next (if_pos (hcu.outside.modeL.trans hmode))
    obtain ⟨k, hk⟩ := hru.trans (.head hstep (.refl _))
    exact ⟨s0, k, _, hexec, hk, rfl, chunkCommandEnds_endChunkCmd (hcu.host.results.trans hres)⟩
  | fault f =>
    rw [hr] at hend
    obtain ⟨u, l, c, e, hf, rfl, hcu, k, hk⟩ := hend
    exact ⟨s0, k, _, hexec, hk, rfl, chunkCommandEnds_matchFaulted hf (hcu.host.results.trans hres)
      (hcu.outside.modeL.trans hmode) (hcu.outside.pb.trans hpb)⟩

end Sys2Proof.Machine

namespace Sys2Proof.Machine

/-! ## The framer (42_chunk_stream.md R160 to R168)

What each move of the framer does, said once, and the statements about the moves. -/

/-! ### The header and the skip bytes of a record -/

/-- The state after the header of a complete record (R162). -/
def State.recordTaken (s : State) (cs : Word) : State :=
  { s with phase := .busy .skip, dp := { s.dp with cs := cs.toNat } }

/-- A record whose declared bytes all remain is taken (R162). -/
theorem exec_chunkHdr_of_le {s : State} {cs : Word} (h : cs.toNat ≤ s.dp.sl - s.dp.sp - 4) :
    exec (.chunkHdr cs) s = .next (s.recordTaken cs) := congrArg Host.Outcome.next (if_neg (Nat.not_lt.2 h))

/-- A record some of whose declared bytes are missing ends the stream (R162). -/
theorem exec_chunkHdr_of_lt {s : State} {cs : Word} (h : s.dp.sl - s.dp.sp - 4 < cs.toNat) :
    exec (.chunkHdr cs) s = .next (State.endStream { s with dp := { s.dp with cs := cs.toNat } } true) :=
  congrArg Host.Outcome.next (if_pos h)

/-- The state after the skip bytes of a record: the payload is what is left of its body (R163, R164). -/
def State.payloadBegun (s : State) : State :=
  s.beginChunk (s.dp.sb + s.dp.sp + 4 + min 2 s.dp.cs) (s.dp.cs - 2)

theorem exec_skip (bs : List Byte) (s : State) : exec (.skip bs) s = .next s.payloadBegun := rfl

/-- Settles O20: the meaning of SKIP has no use for the bytes, and the payload begins after them. -/
theorem skipBytesAreDroppedUnread : Obligations.SkipBytesAreDroppedUnread := by
  refine ⟨fun _ _ _ => rfl, fun s bs _ => ⟨_, exec_skip bs s, rfl, fun h2 => ?_, fun h2 => ?_, rfl,
    ⟨rfl, rfl, rfl, rfl, rfl, rfl, rfl, fun _ => rfl, fun _ => rfl⟩, ⟨rfl, rfl, rfl⟩, rfl, fun _ => rfl⟩⟩
  · simp only [State.payloadBegun, State.beginChunk_dp]
    omega
  · simp only [State.payloadBegun, State.beginChunk_dp]
    omega

/-! ### The end of a stream -/

/-- STATUS after a command is a matter of its code alone. -/
theorem statusWord_finish (s : State) (c : Code) : (s.finish c).statusWord = (State.reset.finish c).statusWord := rfl

theorem statusWord_raiseFault (s : State) (c : Code) (i : Option MatchInfo) :
    (s.raiseFault c i).statusWord = (State.reset.raiseFault c none).statusWord := rfl

/-- The code a stream ends with (44_commands.md R203). -/
def State.streamCode (s : State) (truncated : Bool) : Code :=
  if s.dp.sp = s.declaredSize then .ok else if truncated then .truncatedChunk else .incompleteConsumption

theorem endStream_eq_finish (s : State) (b : Bool) : s.endStream b = s.streamResults.finish (s.streamCode b) := by
  unfold State.streamCode
  rcases endStream_cases (s := s) b with ⟨hd, h⟩ | ⟨hd, rfl, h⟩ | ⟨hd, rfl, h⟩
  · rw [if_pos hd, h]
  · rw [if_neg hd, h, if_pos rfl]
  · rw [if_neg hd, h, if_neg Bool.false_ne_true]

/-- A stream succeeds where it has consumed its declared size, and nowhere else. -/
theorem streamCode_eq_ok_iff {s : State} {b : Bool} : s.streamCode b = .ok ↔ s.dp.sp = s.declaredSize := by
  unfold State.streamCode
  split_ifs with hd
  · exact iff_of_true rfl hd
  · exact iff_of_false nofun hd
  · exact iff_of_false nofun hd

/-- Settles O19: the comparison of the header decides, and a truncated record ends the stream by `endStream`. -/
theorem chunkHeaderTakesOrTruncates : Obligations.ChunkHeaderTakesOrTruncates := by
  intro s cs _
  rcases Nat.lt_or_ge (s.dp.sl - s.dp.sp - 4) cs.toNat with hlt | hle
  · rw [exec_chunkHdr_of_lt hlt, endStream_eq_finish]
    refine ⟨_, rfl, ⟨rfl, fun _ => rfl⟩, rfl, rfl, rfl, rfl, rfl, rfl, rfl, fun _ => rfl, fun _ => rfl,
      fun hle => absurd hlt (Nat.not_lt.2 hle), fun _ => ⟨rfl, rfl, rfl, fun hd => ?_⟩⟩
    have hcode : State.streamCode { s with dp := { s.dp with cs := cs.toNat } } true = .truncatedChunk := if_neg hd
    rw [hcode]
    exact ⟨rfl, rfl, statusWord_finish ..⟩
  · rw [exec_chunkHdr_of_le hle]
    exact ⟨_, rfl, ⟨rfl, fun _ => rfl⟩, rfl, rfl, rfl, rfl, rfl, rfl, rfl, fun _ => rfl, fun _ => rfl,
      fun _ => ⟨rfl, rfl, rfl, rfl, rfl⟩, fun hlt => absurd hlt (Nat.not_lt.2 hle)⟩

/-- Where fewer than four bytes are left the stream ends (R161). -/
theorem step_endStream {s : State} (hq : s.queue = []) (hp : s.phase = .busy .chunkHdr) (h4 : s.dp.sl - s.dp.sp < 4) :
    step s = .next (s.endStream false) := by
  rw [step_of_busy hq hp, fetch_chunkHdr, if_pos h4]
  rfl

/-- A count that fits 32 bits is the value of a register exactly where the register holds it. -/
theorem eq_toNat_iff_ofNat_eq {n : Nat} (hn : n < 2 ^ 32) (w : Word) : n = w.toNat ↔ BitVec.ofNat 32 n = w := by
  rw [← BitVec.toNat_inj, BitVec.toNat_ofNat, Nat.mod_eq_of_lt hn]

/-- Settles O21: the stream ends by `endStream`, whose code is OK where SP is the declared size of the mode. -/
theorem streamEndSucceedsIffAllConsumed : Obligations.StreamEndSucceedsIffAllConsumed := by
  intro s hq hp h4
  refine ⟨_, step_endStream hq hp h4, ?_⟩
  rw [endStream_eq_finish]
  have hsuccess : decide (s.streamCode false = .ok) = true ↔ s.dp.sp = s.declaredSize :=
    decide_eq_true_iff.trans streamCode_eq_ok_iff
  refine ⟨rfl, rfl, rfl, fun hsp hm => ?_, fun hsp hm => ?_, fun hok => ?_, fun hn => ?_, rfl, ⟨rfl, fun _ => rfl⟩,
    fun _ => rfl⟩
  · refine hsuccess.trans ?_
    rw [State.declaredSize, if_pos hm]
    exact eq_toNat_iff_ofNat_eq hsp _
  · refine hsuccess.trans ?_
    rw [State.declaredSize, if_neg (by rw [hm]; decide)]
    exact eq_toNat_iff_ofNat_eq hsp _
  · rw [of_decide_eq_true hok, statusWord_finish]
    rfl
  · have hd : s.dp.sp ≠ s.declaredSize := mt streamCode_eq_ok_iff.2 (of_decide_eq_false hn)
    have hcode : s.streamCode false = .incompleteConsumption := if_neg hd
    rw [hcode, statusWord_finish]
    rfl

/-! ### The end of a chunk -/

theorem step_endChunk {s : State} (hq : s.queue = []) (hp : s.phase = .busy .chunkEnd) :
    step s = .next s.endChunk := step_of_busy hq hp

/-- The state after the framer has appended its chunk (R165, R166). -/
def State.chunkAppended (s : State) : State :=
  { s with
    phase := .busy .chunkHdr
    outMem := Sparse.putRun s.outMem s.dp.fwlen s.chunkBytes
    dp := { s.dp with
      fwlen := s.dp.fwlen + min s.olen 0x10000
      nch := s.dp.nch + 1
      sp := s.dp.sp + 4 + s.dp.cs } }

theorem endChunk_of_fits {s : State} (hm : s.dp.modeL ≠ 2#2)
    (hf : s.dp.fwlen + min s.olen 0x10000 ≤ s.params.outCap) : s.endChunk = s.chunkAppended := by
  rcases endChunk_cases (s := s) with ⟨hm', -⟩ | ⟨-, hf', -⟩ | ⟨-, -, h⟩
  · exact absurd hm' hm
  · exact absurd hf' (Nat.not_lt.2 hf)
  · exact h

theorem endChunk_of_overflow {s : State} (hm : s.dp.modeL ≠ 2#2)
    (ho : s.params.outCap < s.dp.fwlen + min s.olen 0x10000) :
    s.endChunk = s.raiseFault .outputOverflow none := by
  rcases endChunk_cases (s := s) with ⟨hm', -⟩ | ⟨-, -, h⟩ | ⟨-, hf, -⟩
  · exact absurd hm' hm
  · exact h
  · exact absurd ho (Nat.not_lt.2 hf)

/-- The bytes of the chunk stand in OUT from the old FWLEN on. -/
theorem readOut_chunkAppended_chunk {s : State} {i : Nat} (hi : i < s.chunkBytes.length) :
    some (s.chunkAppended.readOut (s.dp.fwlen + i)) = s.chunkBytes[i]? := by
  have hw : Sparse.get s.chunkAppended.outMem (s.dp.fwlen + i) = s.chunkBytes[i]? := by
    show Sparse.get (Sparse.putRun s.outMem s.dp.fwlen s.chunkBytes) (s.dp.fwlen + i) = _
    rw [Sparse.get_putRun, if_pos ⟨Nat.le_add_right _ _, Nat.add_lt_add_left hi _⟩, Nat.add_sub_cancel_left]
  rw [State.readOut, hw, List.getElem?_eq_getElem hi]
  rfl

/-- Every other byte of OUT is left. -/
theorem readOut_chunkAppended_other {s : State} {a : Nat}
    (ha : a < s.dp.fwlen ∨ s.dp.fwlen + s.chunkBytes.length ≤ a) : s.chunkAppended.readOut a = s.readOut a := by
  by_contra hne
  have hrun := readOut_ne_of_putRun (s := s) (t := s.chunkAppended) rfl hne
  omega

/-- Settles O22: the step is `chunkAppended`, whose one write is the chunk. -/
theorem chunkIsAppendedToOut : Obligations.ChunkIsAppendedToOut := by
  intro s hq hp hm hf
  refine ⟨_, step_endChunk hq hp, ?_⟩
  rw [endChunk_of_fits hm hf]
  refine ⟨rfl, fun i hi => ?_, fun a ha => ?_, rfl, rfl, rfl, rfl, rfl, rfl, rfl, rfl, ⟨rfl, rfl, rfl⟩,
    ⟨rfl, fun _ => rfl⟩, fun _ => rfl⟩
  · rw [readOut_chunkAppended_chunk (chunkBytes_length.symm ▸ hi)]
    exact List.getElem?_take_of_lt (by simp only [Config.chunkCap]; omega)
  · exact readOut_chunkAppended_other (chunkBytes_length.symm ▸ ha)

/-- The result registers an overflow leaves: those of the records before the chunk (60_exceptions.md R232). -/
theorem faultResults_overflow {s : State} (hm : s.dp.modeL ≠ 2#2) :
    s.faultResults .outputOverflow none =
      { s.results with
        outLen := BitVec.ofNat 32 s.dp.fwlen
        consumed := BitVec.ofNat 32 s.dp.sp
        chunks := BitVec.ofNat 32 s.dp.nch } := by
  simp [State.faultResults, hm]

/-- Settles O23: the step is the fault entry, which writes no memory. -/
theorem chunkBeyondOutCapOverflows : Obligations.ChunkBeyondOutCapOverflows := by
  intro s hq hp hm ho
  refine ⟨_, step_endChunk hq hp, ?_⟩
  rw [endChunk_of_overflow hm ho]
  exact ⟨rfl, rfl, rfl, rfl, statusWord_raiseFault .., faultResults_overflow hm, rfl, ⟨rfl, fun _ => rfl⟩,
    fun _ => rfl, fun _ => rfl⟩

end Sys2Proof.Machine

namespace Sys2Proof.Machine

/-! ## The framer computes the reference (42_chunk_stream.md R160)

A machine at the top of the framer's loop that has appended the firmware `fw` stands for the reference's loop at SP and
NCH with `fw`. One record is a header, its skip bytes, the decode of its payload, and the end of its chunk. The lemmas
are of any stream in IN, so they serve a section as well. -/

/-! ### The stream -/

theorem drop_inBytes (s : State) (a n k : Nat) : (s.inBytes a n).drop k = s.inBytes (a + k) (n - k) := by
  refine List.ext_getElem? fun i => ?_
  rw [List.getElem?_drop, inBytes_getElem?, inBytes_getElem?, Nat.add_assoc]
  exact if_congr (by omega) rfl rfl

theorem take_inBytes (s : State) (a : Nat) {n k : Nat} (h : k ≤ n) : (s.inBytes a n).take k = s.inBytes a k := by
  refine List.ext_getElem? fun i => ?_
  rw [List.getElem?_take, inBytes_getElem?, inBytes_getElem?]
  split_ifs
  · rfl
  · omega
  · rfl

/-- The bytes being framed: IN[SB .. SB + SL). -/
def State.stream (s : State) : List Byte := s.inBytes s.dp.sb s.dp.sl

theorem drop_stream (s : State) : s.stream.drop s.dp.sp = s.inBytes (s.dp.sb + s.dp.sp) (s.dp.sl - s.dp.sp) :=
  drop_inBytes ..

/-- A record's size field and the bytes of the stream behind it. -/
theorem drop_stream_of_le {s : State} (h4 : 4 ≤ s.dp.sl - s.dp.sp) :
    s.stream.drop s.dp.sp =
      s.readIn (s.dp.sb + s.dp.sp) :: s.readIn (s.dp.sb + s.dp.sp + 1) :: s.readIn (s.dp.sb + s.dp.sp + 2) ::
        s.readIn (s.dp.sb + s.dp.sp + 3) :: s.inBytes (s.dp.sb + s.dp.sp + 4) (s.dp.sl - s.dp.sp - 4) := by
  obtain ⟨m, hm⟩ := Nat.exists_eq_add_of_le' h4
  rw [drop_stream, hm]
  rfl

/-! ### The reference's loop on one record -/

section StreamLoop

variable {pol : PadPolicy} {cap fuel sp nch ip : Nat} {stream fw body out : List Byte} {b0 b1 b2 b3 : Byte}

theorem streamLoop_of_short (h : (stream.drop sp).length < 4) :
    Ref.streamLoop pol cap stream (fuel + 1) sp nch fw = .ended sp nch fw false := by
  rw [Ref.streamLoop]
  split
  · next hd =>
    simp only [hd, List.length_cons] at h
    omega
  · rfl

theorem streamLoop_of_truncated (hd : stream.drop sp = b0 :: b1 :: b2 :: b3 :: body)
    (hcs : body.length < (le32 b0 b1 b2 b3).toNat) :
    Ref.streamLoop pol cap stream (fuel + 1) sp nch fw = .ended sp nch fw true := by
  rw [Ref.streamLoop, hd]
  exact if_pos hcs

variable (hd : stream.drop sp = b0 :: b1 :: b2 :: b3 :: body) (hcs : (le32 b0 b1 b2 b3).toNat ≤ body.length)

include hd hcs

theorem streamLoop_of_fault {f : Ref.MatchFault}
    (hr : Ref.decodeChunk pol ((body.take (le32 b0 b1 b2 b3).toNat).drop 2) = .fault f) :
    Ref.streamLoop pol cap stream (fuel + 1) sp nch fw =
      .matchFault sp nch fw (sp + 4 + min 2 (le32 b0 b1 b2 b3).toNat) f := by
  simp only [Ref.streamLoop, hd, if_neg (Nat.not_lt.2 hcs), hr]

theorem streamLoop_of_overflow
    (hr : Ref.decodeChunk pol ((body.take (le32 b0 b1 b2 b3).toNat).drop 2) = .bytes out ip)
    (ho : cap < fw.length + out.length) :
    Ref.streamLoop pol cap stream (fuel + 1) sp nch fw = .overflow sp nch fw := by
  simp only [Ref.streamLoop, hd, if_neg (Nat.not_lt.2 hcs), hr, if_pos ho]

theorem streamLoop_of_fits
    (hr : Ref.decodeChunk pol ((body.take (le32 b0 b1 b2 b3).toNat).drop 2) = .bytes out ip)
    (hf : fw.length + out.length ≤ cap) :
    Ref.streamLoop pol cap stream (fuel + 1) sp nch fw =
      Ref.streamLoop pol cap stream fuel (sp + 4 + (le32 b0 b1 b2 b3).toNat) (nch + 1) (fw ++ out) := by
  simp only [Ref.streamLoop, hd, if_neg (Nat.not_lt.2 hcs), hr, if_neg (Nat.not_lt.2 hf)]

end StreamLoop

/-! ### What stays from record to record -/

/-- What a stream command leaves from one record to the next: its input, its stream and the result registers. -/
structure InStream (s t : State) : Prop where
  params : t.params = s.params
  inLen : t.inLen = s.inLen
  readIn : ∀ a, t.readIn a = s.readIn a
  results : t.results = s.results
  modeL : t.dp.modeL = s.dp.modeL
  sb : t.dp.sb = s.dp.sb
  sl : t.dp.sl = s.dp.sl

section InStream

variable {s t u : State}

theorem InStream.trans (h : InStream s t) (h' : InStream t u) : InStream s u where
  params := h'.params.trans h.params
  inLen := h'.inLen.trans h.inLen
  readIn a := (h'.readIn a).trans (h.readIn a)
  results := h'.results.trans h.results
  modeL := h'.modeL.trans h.modeL
  sb := h'.sb.trans h.sb
  sl := h'.sl.trans h.sl

theorem InChunk.inStream (h : InChunk s t) : InStream s t :=
  ⟨h.host.params, h.host.inLen, h.host.readIn, h.host.results, h.outside.modeL, h.outside.sb, h.outside.sl⟩

theorem InStream.stream_eq (h : InStream s t) : t.stream = s.stream := by
  rw [State.stream, State.stream, h.sb, h.sl]
  exact inBytes_congr _ _ fun a _ _ => h.readIn a

theorem InStream.declaredSize_eq (h : InStream s t) : t.declaredSize = s.declaredSize := by
  rw [State.declaredSize, State.declaredSize, h.modeL, h.results, h.inLen]

end InStream

/-! ### How a stream ends -/

/-- A stream command left to itself has appended the records `fw` to OUT. -/
structure State.HasFirmware (s : State) (fw : List Byte) : Prop where
  queue : s.queue = []
  modeL : s.dp.modeL ≠ 2#2
  fwlen : s.dp.fwlen = fw.length
  out : OutHolds s fw

/-- The run ends the command as the reference says of the stream at SB and its declared size. -/
def State.StreamEndsAs (s : State) (r : Ref.StreamResult) : Prop :=
  ∃ t, RunsTo s t ∧ t.phase = .done ∧ StreamCommandEnds t s.dp.sb s.declaredSize s.results r

theorem State.StreamEndsAs.of_runsTo {s t : State} {r : Ref.StreamResult} (h : t.StreamEndsAs r) (hr : RunsTo s t)
    (hi : InStream s t) : s.StreamEndsAs r := by
  obtain ⟨u, hru, hd, he⟩ := h
  rw [hi.sb, hi.declaredSize_eq, hi.results] at he
  exact ⟨u, hr.trans hru, hd, he⟩

section HasFirmware

variable {s u : State} {fw : List Byte}

theorem State.HasFirmware.inChunk (h : s.HasFirmware fw) (hc : InChunk s u) : u.HasFirmware fw where
  queue := hc.host.queue.trans h.queue
  modeL := hc.outside.modeL.symm ▸ h.modeL
  fwlen := hc.outside.fwlen.trans h.fwlen
  out i hi := by
    rw [hc.host.readOut]
    exact h.out i hi

/-- A stream that ends leaves its counts and its outcome, whatever size its last header declared (R161, R162;
44_commands.md R203). -/
theorem State.HasFirmware.ended (h : s.HasFirmware fw) {cs : Nat} {b : Bool}
    (hstep : step s = .next (State.endStream { s with dp := { s.dp with cs := cs } } b)) :
    s.StreamEndsAs (.ended s.dp.sp s.dp.nch fw b) := by
  rw [endStream_eq_finish] at hstep
  refine ⟨_, .head hstep (.refl _), rfl, decide_eq_decide.2 streamCode_eq_ok_iff, rfl, rfl, ?_, h.out⟩
  rw [← h.fwlen]
  rfl

/-- A match that faults is recorded with its record and its IN address (60_exceptions.md R232). -/
theorem State.HasFirmware.runsIntoFault (h : s.HasFirmware fw) {f : Ref.MatchFault} {pb : Nat}
    (hpb : s.dp.pb = s.dp.sb + pb) (hf : s.RunsIntoFault f) :
    s.StreamEndsAs (.matchFault s.dp.sp s.dp.nch fw pb f) := by
  obtain ⟨u, l, c, e, hf, rfl, hc, hr⟩ := hf
  have hcode : c ≠ .badCommand := by rcases hf.code with rfl | rfl <;> decide
  have hu := h.inChunk hc
  refine ⟨_, hr, rfl, rfl, rfl, rfl, ?_⟩
  rw [matchFaulted_results u l hcode]
  simp only [if_neg hu.modeL, hu.fwlen, hc.outside.sp, hc.outside.nch, hc.outside.pb, hpb, hc.host.results]

/-- A chunk that does not fit is recorded with the records before it (R165). -/
theorem State.HasFirmware.overflow (h : s.HasFirmware fw) (hp : s.phase = .busy .chunkEnd)
    (ho : s.params.outCap < fw.length + s.chunkBytes.length) : s.StreamEndsAs (.overflow s.dp.sp s.dp.nch fw) := by
  rw [← h.fwlen, chunkBytes_length] at ho
  have hstep := step_endChunk h.queue hp
  rw [endChunk_of_overflow h.modeL ho] at hstep
  refine ⟨_, .head hstep (.refl _), rfl, rfl, rfl, rfl, ?_⟩
  rw [← h.fwlen]
  exact faultResults_overflow h.modeL

theorem State.HasFirmware.step_chunkAppended (h : s.HasFirmware fw) (hp : s.phase = .busy .chunkEnd)
    (hf : fw.length + s.chunkBytes.length ≤ s.params.outCap) : step s = .next s.chunkAppended := by
  rw [← h.fwlen, chunkBytes_length] at hf
  rw [step_endChunk h.queue hp, endChunk_of_fits h.modeL hf]

/-- A chunk that fits is appended to the firmware (R165). -/
theorem State.HasFirmware.chunkAppended (h : s.HasFirmware fw) : s.chunkAppended.HasFirmware (fw ++ s.chunkBytes) where
  queue := h.queue
  modeL := h.modeL
  fwlen := by
    rw [List.length_append, ← h.fwlen, chunkBytes_length]
    rfl
  out i hi := by
    rcases Nat.lt_or_ge i fw.length with hlt | hge
    · rw [readOut_chunkAppended_other (.inl (h.fwlen ▸ hlt)), List.getElem?_append_left hlt]
      exact h.out i hlt
    · obtain ⟨j, rfl⟩ := Nat.exists_eq_add_of_le hge
      rw [List.length_append] at hi
      rw [List.getElem?_append_right hge, Nat.add_sub_cancel_left, ← h.fwlen]
      exact readOut_chunkAppended_chunk (by omega)

end HasFirmware

theorem inStream_chunkAppended (s : State) : InStream s s.chunkAppended :=
  ⟨rfl, rfl, fun _ => rfl, rfl, rfl, rfl, rfl⟩

/-! ### The records -/

theorem inStream_payloadBegun (s : State) (cs : Word) : InStream s (s.recordTaken cs).payloadBegun :=
  ⟨rfl, rfl, fun _ => rfl, rfl, rfl, rfl, rfl⟩

theorem State.HasFirmware.payloadBegun {s : State} {fw : List Byte} (h : s.HasFirmware fw) (cs : Word) :
    (s.recordTaken cs).payloadBegun.HasFirmware fw := ⟨h.queue, h.modeL, h.fwlen, h.out⟩

/-- The payload is the record's body after its skip bytes (R163, R164). -/
theorem payloadBegun_payload {s : State} {cs : Word} {n : Nat} (hcs : cs.toNat ≤ n) :
    (s.recordTaken cs).payloadBegun.payload =
      ((s.inBytes (s.dp.sb + s.dp.sp + 4) n).take cs.toNat).drop 2 := by
  have hpayload : (s.recordTaken cs).payloadBegun.payload =
      s.inBytes (s.dp.sb + s.dp.sp + 4 + min 2 cs.toNat) (cs.toNat - 2) := inBytes_congr _ _ fun _ _ _ => rfl
  rw [hpayload, take_inBytes _ _ hcs, drop_inBytes]
  rcases Nat.lt_or_ge cs.toNat 2 with h2 | h2
  · rw [Nat.sub_eq_zero_of_le h2.le]
    rfl
  · rw [Nat.min_eq_left h2]

theorem step_chunkHdr {s : State} (hq : s.queue = []) (hp : s.phase = .busy .chunkHdr)
    (h4 : 4 ≤ s.dp.sl - s.dp.sp) : step s = exec (.chunkHdr s.chunkSizeAt) s :=
  step_of_fetch hq hp (by rw [fetch_chunkHdr, if_neg (Nat.not_lt.2 h4)])

theorem step_skip {s : State} (hq : s.queue = []) (hp : s.phase = .busy .skip) : step s = .next s.payloadBegun :=
  (step_of_fetch hq hp (fetch_skip s)).trans (exec_skip ..)

/-- A complete record leads to the end of its chunk, with nothing of the stream changed, or faults. -/
def State.RecordRunsAs (s : State) (fw : List Byte) : Ref.ChunkResult → Prop
  | .bytes out _ =>
    ∃ u, RunsTo s u ∧ u.phase = .busy .chunkEnd ∧ InStream s u ∧ u.HasFirmware fw ∧ u.chunkBytes = out ∧
      u.dp.sp = s.dp.sp ∧ u.dp.nch = s.dp.nch ∧ u.dp.cs = s.chunkSizeAt.toNat
  | .fault f => s.StreamEndsAs (.matchFault s.dp.sp s.dp.nch fw (s.dp.sp + 4 + min 2 s.chunkSizeAt.toNat) f)

section Record

variable {s : State} {fw : List Byte} (h : s.HasFirmware fw) (hp : s.phase = .busy .chunkHdr)

include h hp

theorem recordRunsAs_decodeChunk (h4 : 4 ≤ s.dp.sl - s.dp.sp)
    (hcs : s.chunkSizeAt.toNat ≤ s.dp.sl - s.dp.sp - 4) :
    s.RecordRunsAs fw (Ref.decodeChunk s.params.padPolicy
      (((s.inBytes (s.dp.sb + s.dp.sp + 4) (s.dp.sl - s.dp.sp - 4)).take s.chunkSizeAt.toNat).drop 2)) := by
  have hrun : RunsTo s (s.recordTaken s.chunkSizeAt).payloadBegun :=
    .head ((step_chunkHdr h.queue hp h4).trans (exec_chunkHdr_of_le hcs))
      (.head (step_skip h.queue rfl) (.refl _))
  have hin := inStream_payloadBegun s s.chunkSizeAt
  have hfw := h.payloadBegun s.chunkSizeAt
  have hend := chunkEndsAs_decodeChunk hfw.queue rfl
  rw [payloadBegun_payload hcs, hin.params] at hend
  cases hr : Ref.decodeChunk s.params.padPolicy
      (((s.inBytes (s.dp.sb + s.dp.sp + 4) (s.dp.sl - s.dp.sp - 4)).take s.chunkSizeAt.toNat).drop 2) with
  | bytes out ip =>
    rw [hr] at hend
    obtain ⟨u, hru, hpu, hcu, hout, -⟩ := hend
    exact ⟨u, hrun.trans hru, hpu, hin.trans hcu.inStream, hfw.inChunk hcu, hout, hcu.outside.sp, hcu.outside.nch,
      hcu.outside.cs⟩
  | fault f =>
    rw [hr] at hend
    have hpb : (s.recordTaken s.chunkSizeAt).payloadBegun.dp.pb =
        s.dp.sb + (s.dp.sp + 4 + min 2 s.chunkSizeAt.toNat) := by
      rw [← Nat.add_assoc, ← Nat.add_assoc]
      rfl
    exact (hfw.runsIntoFault hpb hend).of_runsTo hrun hin

/-- The framer's loop: each record takes four bytes or more, so more than the bytes left are fuel enough. -/
theorem streamEndsAs_streamLoop {fuel : Nat} (hfuel : s.dp.sl < s.dp.sp + fuel) :
    s.StreamEndsAs
      (Ref.streamLoop s.params.padPolicy s.params.outCap s.stream fuel s.dp.sp s.dp.nch fw) := by
  induction fuel generalizing s fw with
  | zero => exact h.ended (step_endStream h.queue hp (by omega))
  | succ fuel ih =>
    rcases Nat.lt_or_ge (s.dp.sl - s.dp.sp) 4 with h4 | h4
    · rw [streamLoop_of_short (by rwa [drop_stream, inBytes_length])]
      exact h.ended (step_endStream h.queue hp h4)
    have hd := drop_stream_of_le h4
    have hbody := inBytes_length s (s.dp.sb + s.dp.sp + 4) (s.dp.sl - s.dp.sp - 4)
    rcases Nat.lt_or_ge (s.dp.sl - s.dp.sp - 4) s.chunkSizeAt.toNat with hcs | hcs
    · rw [streamLoop_of_truncated hd (hbody.symm ▸ hcs)]
      exact h.ended ((step_chunkHdr h.queue hp h4).trans (exec_chunkHdr_of_lt hcs))
    have hrec := recordRunsAs_decodeChunk h hp h4 hcs
    rw [← hbody] at hcs
    cases hr : Ref.decodeChunk s.params.padPolicy
        (((s.inBytes (s.dp.sb + s.dp.sp + 4) (s.dp.sl - s.dp.sp - 4)).take s.chunkSizeAt.toNat).drop 2) with
    | fault f =>
      rw [hr] at hrec
      rw [streamLoop_of_fault hd hcs hr]
      exact hrec
    | bytes out ip =>
      rw [hr] at hrec
      obtain ⟨u, hru, hpu, hin, hu, rfl, hsp, hnch, hucs⟩ := hrec
      rcases Nat.lt_or_ge s.params.outCap (fw.length + u.chunkBytes.length) with ho | hf
      · rw [streamLoop_of_overflow hd hcs hr ho, ← hsp, ← hnch]
        exact (hu.overflow hpu (hin.params.symm ▸ ho)).of_runsTo hru hin
      · rw [streamLoop_of_fits hd hcs hr hf]
        have hin' := hin.trans (inStream_chunkAppended u)
        have hsp' : u.chunkAppended.dp.sp = s.dp.sp + 4 + s.chunkSizeAt.toNat := hsp ▸ hucs ▸ rfl
        have hnch' : u.chunkAppended.dp.nch = s.dp.nch + 1 := hnch ▸ rfl
        have hrest := ih hu.chunkAppended rfl (by rw [hin'.sl, hsp']; omega)
        rw [hin'.params, hin'.stream_eq, hsp', hnch'] at hrest
        exact hrest.of_runsTo (hru.trans (.head (hu.step_chunkAppended hpu (hin.params.symm ▸ hf)) (.refl _))) hin'

end Record

/-- DecodeStream over the stream at SB, from its first record on. -/
theorem streamEndsAs_decodeStream {s : State} (hq : s.queue = []) (hp : s.phase = .busy .chunkHdr)
    (hm : s.dp.modeL ≠ 2#2) (hsp : s.dp.sp = 0) (hnch : s.dp.nch = 0) (hfw : s.dp.fwlen = 0) :
    s.StreamEndsAs (Ref.decodeStream s.params.padPolicy s.params.outCap s.stream) := by
  have hs : s.HasFirmware [] := ⟨hq, hm, hfw, nofun⟩
  have hlen : s.stream.length = s.dp.sl := inBytes_length ..
  have h := streamEndsAs_streamLoop hs hp (fuel := s.stream.length + 1) (by omega)
  rwa [hsp, hnch] at h

/-! ### DECODE_STREAM -/

/-- A START that is accepted begins its command (44_commands.md R200). -/
theorem start_of_accepted {s : State} {m : BitVec 2} (p : Point) (f : State → State) (hb : s.phase.isBusy = false)
    (hm : m ≠ 3#2) (hl : s.inLen.toNat ≤ s.params.inCap) : s.start m p f = f (s.clearForStart m p) := by
  rcases start_cases (s := s) m p f with ⟨hb', -⟩ | ⟨-, hm' | hl', -⟩ | ⟨-, -, -, h⟩
  · exact absurd hb' (hb ▸ Bool.false_ne_true)
  · exact absurd hm' hm
  · exact absurd hl' (Nat.not_lt.2 hl)
  · exact h

/-- DECODE_STREAM begins to frame IN[0 .. IN_LEN) (44_commands.md R204). -/
theorem exec_decodeStream {s : State} (hb : s.phase.isBusy = false) (hl : s.inLen.toNat ≤ s.params.inCap) :
    exec .decodeStream s = .next ((s.clearForStart 1#2 .chunkHdr).beginStream 0 s.inLen.toNat) :=
  congrArg Host.Outcome.next (start_of_accepted .chunkHdr _ hb (by decide) hl)

/-- Settles O57: the accepted command stands at the first record of the stream IN[0 .. IN_LEN), with nothing appended,
and from there the run is the reference's loop. -/
theorem decodeStreamComputesTheReference : Obligations.DecodeStreamComputesTheReference := by
  intro s _ hq hb hl
  obtain ⟨t, ⟨k, hk⟩, hd, he⟩ := streamEndsAs_decodeStream
    (s := (s.clearForStart 1#2 .chunkHdr).beginStream 0 s.inLen.toNat) hq rfl (by simp) rfl rfl rfl
  have hstream : ((s.clearForStart 1#2 .chunkHdr).beginStream 0 s.inLen.toNat).stream = s.inBytes 0 s.inLen.toNat :=
    inBytes_congr _ _ fun _ _ _ => rfl
  rw [hstream] at he
  exact ⟨_, k, t, exec_decodeStream hb hl, hk, hd, he⟩

end Sys2Proof.Machine


namespace Sys2Proof.Machine

/-! ## FindMarker (43_container_locator.md R180 to R182) -/

theorem take_inBytes_min (s : State) (a n k : Nat) : (s.inBytes a n).take k = s.inBytes a (min k n) := by
  rw [List.take_eq_take_min, inBytes_length, take_inBytes _ _ (Nat.min_le_right k n)]

/-- Six bytes decode to the marker where they are its bytes. -/
theorem decode_marker_iff (s : State) (a : Nat) :
    (decode .marker (s.inBytes a 6)).instr? = some .marker ↔ s.inBytes a 6 = Config.marker := by
  show (if s.inBytes a 6 = Config.marker then Decoded.element Instr.marker [] else .rejected .notMarker).instr? =
    some .marker ↔ _
  split_ifs with h
  · exact iff_of_true rfl h
  · exact iff_of_false nofun h

/-- The search goes through its candidates in rising order. -/
theorem searchMarker_eq_find? (s : State) (a n : Nat) :
    s.searchMarker a n = (List.range' a n).find? fun b => decide (s.inBytes b 6 = Config.marker) := by
  induction n generalizing a with
  | zero => rfl
  | succ n ih =>
    rw [State.searchMarker, List.range'_succ, List.find?_cons, Config.markerLen, ih,
      if_congr (decode_marker_iff s a) rfl rfl]
    by_cases h : s.inBytes a 6 = Config.marker <;> simp [h]

section FindMarker

variable {s : State} {start a : Nat}

/-- A candidate at or after the start is an address whose six bytes lie in the preamble (R180). -/
theorem findMarker_eq_some_iff :
    s.findMarker start = some a ↔
      start ≤ a ∧ a + 6 ≤ s.preambleLen ∧ s.inBytes a 6 = Config.marker ∧
        ∀ b, start ≤ b → b < a → s.inBytes b 6 ≠ Config.marker := by
  rw [State.findMarker, Config.markerLen, searchMarker_eq_find?, List.find?_range'_eq_some, List.mem_range'_1]
  simp only [Bool.not_eq_true', decide_eq_true_iff, decide_eq_false_iff_not]
  constructor
  · rintro ⟨hm, ⟨hs, hl⟩, hb⟩
    exact ⟨hs, by omega, hm, hb⟩
  · rintro ⟨hs, hl, hm, hb⟩
    exact ⟨hm, ⟨hs, by omega⟩, hb⟩

theorem findMarker_eq_none_iff :
    s.findMarker start = none ↔ ∀ a, start ≤ a → a + 6 ≤ s.preambleLen → s.inBytes a 6 ≠ Config.marker := by
  rw [State.findMarker, Config.markerLen, searchMarker_eq_find?, List.find?_range'_eq_none]
  simp only [Bool.not_eq_true', decide_eq_false_iff_not]
  exact forall₂_congr fun a hs => imp_congr_left (by omega)

end FindMarker

/-- Settles O15: the search is the first hit among the addresses from the start on that leave six bytes. -/
theorem findMarkerGivesTheFirstOccurrence : Obligations.FindMarkerGivesTheFirstOccurrence :=
  fun _ _ => ⟨fun _ => findMarker_eq_some_iff, findMarker_eq_none_iff⟩

end Sys2Proof.Machine

namespace Sys2Proof.Machine

/-! ## The moves of the locator (43_container_locator.md R182 to R187) -/

theorem exec_marker_of_marker1 {s : State} (hp : s.phase = .busy .marker1) : exec .marker s = .next s.firstMarker :=
  congrArg Host.Outcome.next (if_neg (by simp [hp]))

theorem exec_marker_of_marker2 {s : State} (hp : s.phase = .busy .marker2) : exec .marker s = .next s.secondMarker :=
  congrArg Host.Outcome.next (if_pos hp)

/-- The first search writes nothing but the phase, the flags and m1. -/
theorem firstMarker_frame (s : State) : SameHostSide s s.firstMarker ∧ SameChunkMemory s s.firstMarker := by
  rcases firstMarker_cases (s := s) with ⟨-, h⟩ | ⟨a, -, -, h⟩ | ⟨a, -, -, h⟩ <;> rw [h] <;>
    exact ⟨⟨rfl, rfl, rfl, rfl, rfl, rfl, rfl, fun _ => rfl, fun _ => rfl⟩, ⟨rfl, fun _ => rfl⟩⟩

/-- Settles O16: each outcome of the first search is the state the statement gives, and the others are excluded. -/
theorem firstMarkerFoundOrFailure : Obligations.FirstMarkerFoundOrFailure := by
  intro s hp
  obtain ⟨hhost, hmemory⟩ := firstMarker_frame s
  refine ⟨_, exec_marker_of_marker1 hp, hhost, hmemory, ?_⟩
  rcases firstMarker_cases (s := s) with ⟨hf, h⟩ | ⟨a, hf, ha, h⟩ | ⟨a, hf, ha, h⟩ <;> rw [h, hf]
  · exact ⟨nofun, nofun, fun _ => ⟨rfl, rfl, rfl, rfl, rfl, statusWord_finish ..⟩⟩
  · refine ⟨?_, fun _ _ _ => ⟨rfl, rfl, rfl, rfl, rfl, statusWord_finish ..⟩, nofun⟩
    rintro _ ⟨⟩ h8
    exact absurd ha (Nat.not_lt.2 h8)
  · refine ⟨?_, ?_, nofun⟩
    · rintro _ ⟨⟩ _
      exact ⟨rfl, rfl, rfl, rfl, rfl⟩
    · rintro _ ⟨⟩ hlt
      exact absurd hlt (Nat.not_lt.2 ha)

/-- The state after the section header (R184). -/
def State.headerTaken (s : State) (size crc : Word) : State :=
  { s with phase := .busy .marker2, dp := { s.dp with size := size, crc := crc } }

theorem exec_secHdr (size crc : Word) (s : State) : exec (.secHdr size crc) s = .next (s.headerTaken size crc) := rfl

/-- The fields are the eight bytes before the first marker (R184). -/
theorem fetch_secHdr_of_le {s : State} (h8 : 8 ≤ s.dp.m1) :
    s.fetch .secHdr = some (.secHdr
      (le32 (s.readIn (s.dp.m1 - 8)) (s.readIn (s.dp.m1 - 7)) (s.readIn (s.dp.m1 - 6)) (s.readIn (s.dp.m1 - 5)))
      (le32 (s.readIn (s.dp.m1 - 4)) (s.readIn (s.dp.m1 - 3)) (s.readIn (s.dp.m1 - 2)) (s.readIn (s.dp.m1 - 1)))) := by
  obtain ⟨k, hk⟩ := Nat.exists_eq_add_of_le' h8
  rw [fetch_secHdr, hk]
  rfl

/-- Settles O17: the meaning of SEC_HDR is `headerTaken`, and the engine fetches its fields below the first marker. -/
theorem sectionHeaderIsReadBeforeTheFirstMarker : Obligations.SectionHeaderIsReadBeforeTheFirstMarker := by
  refine ⟨fun s size crc _ => ⟨_, exec_secHdr size crc s, rfl, rfl,
    ⟨rfl, rfl, rfl, rfl, rfl, rfl, rfl, fun _ => rfl, fun _ => rfl⟩, ⟨rfl, rfl, rfl⟩, rfl, fun _ => rfl⟩,
    fun s t hp hq h8 h => ?_⟩
  rw [step_of_fetch hq hp (fetch_secHdr_of_le h8), exec_secHdr] at h
  cases h
  exact ⟨rfl, rfl⟩

/-- Settles O18: the second search begins the section where it finds the marker, or ends the command. -/
theorem secondMarkerBeginsTheSection : Obligations.SecondMarkerBeginsTheSection := by
  intro s hp
  refine ⟨_, exec_marker_of_marker2 hp, ?_⟩
  rcases secondMarker_cases (s := s) with ⟨hf, h⟩ | ⟨a, hf, h⟩ <;> rw [h, hf]
  · exact ⟨⟨rfl, fun _ => rfl⟩, rfl, rfl, rfl, rfl, rfl, rfl, fun _ => rfl, fun _ => rfl, nofun,
      fun _ => ⟨rfl, rfl, rfl, rfl, rfl, rfl, statusWord_finish ..⟩⟩
  · refine ⟨⟨rfl, fun _ => rfl⟩, rfl, rfl, rfl, rfl, rfl, rfl, fun _ => rfl, fun _ => rfl, ?_, nofun⟩
    rintro _ ⟨⟩
    have hin : a + 6 ≤ s.preambleLen := (findMarker_bound hf).2
    refine ⟨hin, rfl, ⟨rfl, rfl, rfl⟩, rfl, ?_, rfl⟩
    have hle : s.preambleLen ≤ 0x90 := (preambleLen_le s).1
    show (BitVec.ofNat 32 (a + 6)).toNat = a + 6
    rw [BitVec.toNat_ofNat, Nat.mod_eq_of_lt (by omega)]

end Sys2Proof.Machine

namespace Sys2Proof.Machine

/-! ## The stored CRC-32 is carried and never consulted (43_container_locator.md R188) -/

/-- The same machine with another SEC_CRC32. -/
def State.withCrc (s : State) (crc : Word) : State := { s with results := { s.results with secCrc32 := crc } }

/-- `f` answers a next state from `s`, and from `s` with another SEC_CRC32 the same but for SEC_CRC32. -/
def CarriesCrc (crc : Word) (s : State) (f : State → Answer) : Prop :=
  ∃ t, f s = .next t ∧ f (s.withCrc crc) = .next (t.withCrc crc)

section Carried

variable (s : State) (crc : Word)

theorem fetch_withCrc (p : Point) : (s.withCrc crc).fetch p = s.fetch p := by
  have hbytes (a n : Nat) : (s.withCrc crc).inBytes a n = s.inBytes a n := inBytes_congr _ _ fun _ _ _ => rfl
  cases p with
  | marker1 | marker2 | chunkEnd => rfl
  | secHdr | chunkHdr | skip | initCtx | mask | token =>
    simp only [State.fetch, hbytes]
    rfl

theorem raiseFault_withCrc (c : Code) (i : Option MatchInfo) :
    (s.withCrc crc).raiseFault c i = (s.raiseFault c i).withCrc crc := by
  cases i <;> rfl

theorem endStream_withCrc (b : Bool) : (s.withCrc crc).endStream b = (s.endStream b).withCrc crc := by
  rw [endStream_eq_finish, endStream_eq_finish]
  rfl

theorem nextBit_withCrc : (s.withCrc crc).nextBit = s.nextBit.withCrc crc := by
  rw [State.nextBit, State.nextBit, apply_ite (State.withCrc · crc), apply_ite (State.withCrc · crc)]
  rfl

theorem endStep_withCrc : (s.withCrc crc).endStep = s.endStep.withCrc crc :=
  nextBit_withCrc (s.htInsert s.dp.hash s.dp.pre) crc

theorem stepWith_withCrc (cur : Byte) (bit exh : Bool) (e : Option Nat) (k : Nat) (out : List Byte) :
    (s.withCrc crc).stepWith cur bit exh e k out = (s.stepWith cur bit exh e k out).withCrc crc := by
  rw [State.stepWith, State.stepWith, ← endStep_withCrc]
  rfl

theorem carriesCrc_chunkHdr (cs : Word) : CarriesCrc crc s (exec (.chunkHdr cs)) := by
  rcases Nat.lt_or_ge (s.dp.sl - s.dp.sp - 4) cs.toNat with hlt | hle
  · refine ⟨_, exec_chunkHdr_of_lt hlt, (exec_chunkHdr_of_lt (s := s.withCrc crc) hlt).trans ?_⟩
    rw [← endStream_withCrc]
    rfl
  · exact ⟨_, exec_chunkHdr_of_le hle, exec_chunkHdr_of_le (s := s.withCrc crc) hle⟩

theorem carriesCrc_matchLen (l : Byte) : CarriesCrc crc s (exec (.matchLen l)) := by
  rcases matchFaults_or_entry s l with ⟨c, e, hf⟩ | ⟨e, he, hn⟩
  · have hf' : MatchFaults (s.withCrc crc) l c e := hf.congr (fun _ => rfl) rfl
    exact ⟨_, exec_matchLen_of_faults hf, exec_matchLen_of_faults hf'⟩
  · refine ⟨_, exec_matchLen_of_entry he hn, (exec_matchLen_of_entry (s := s.withCrc crc) he hn).trans ?_⟩
    exact congrArg Host.Outcome.next (stepWith_withCrc ..)

theorem carriesCrc_endChunk : CarriesCrc crc s (fun u => .next u.endChunk) := by
  refine ⟨_, rfl, congrArg Host.Outcome.next ?_⟩
  rcases endChunk_cases (s := s) with ⟨hm, h⟩ | ⟨hm, ho, -⟩ | ⟨hm, hf, -⟩
  · rw [h]
    exact if_pos hm
  · rw [endChunk_of_overflow hm ho, endChunk_of_overflow (s := s.withCrc crc) hm ho, raiseFault_withCrc]
  · rw [endChunk_of_fits hm hf, endChunk_of_fits (s := s.withCrc crc) hm hf]
    rfl

/-- What the engine fetches after the locator carries SEC_CRC32. -/
theorem carriesCrc_exec {p : Point} {i : Instr} (h1 : p ≠ .marker1) (hh : p ≠ .secHdr) (h2 : p ≠ .marker2)
    (hf : s.fetch p = some i) : CarriesCrc crc s (exec i) := by
  cases p with
  | marker1 => exact absurd rfl h1
  | secHdr => exact absurd rfl hh
  | marker2 => exact absurd rfl h2
  | chunkHdr =>
    rw [fetch_chunkHdr] at hf
    split_ifs at hf
    cases hf
    exact carriesCrc_chunkHdr ..
  | skip =>
    rw [fetch_skip] at hf
    cases hf
    exact ⟨_, exec_skip .., exec_skip ..⟩
  | initCtx =>
    rw [fetch_initCtx] at hf
    cases hf
    exact ⟨_, exec_initCtx .., exec_initCtx ..⟩
  | mask =>
    rw [fetch_mask] at hf
    split_ifs at hf
    cases hf
    exact ⟨_, rfl, rfl⟩
  | token =>
    rcases Nat.lt_or_ge s.dp.ip s.dp.n with hi | hi
    · rw [fetch_token_octet s hi] at hf
      split_ifs at hf <;> cases hf
      · exact carriesCrc_matchLen ..
      · exact ⟨_, exec_lit _, (exec_lit _).trans (congrArg Host.Outcome.next (stepWith_withCrc ..))⟩
    · rw [fetch_token_none s hi] at hf
      cases hf
      exact ⟨_, exec_pad, exec_pad.trans (congrArg Host.Outcome.next (stepWith_withCrc ..))⟩
  | chunkEnd => cases hf

/-- So does the move it makes where it fetches nothing. -/
theorem carriesCrc_engineMove {p : Point} (hf : s.fetch p = none) : CarriesCrc crc s (engineMove · p) := by
  rcases point_of_fetch_none hf with rfl | rfl | rfl
  · exact ⟨_, rfl, congrArg Host.Outcome.next (endStream_withCrc s crc false)⟩
  · exact ⟨_, rfl, rfl⟩
  · exact carriesCrc_endChunk ..

end Carried

/-- Settles O52: both machines fetch the same element or none, and what follows carries SEC_CRC32. -/
theorem storedCrcIsNeverConsulted : Obligations.StoredCrcIsNeverConsulted := by
  intro s t p crc hq hp h1 hh h2 h
  show step (s.withCrc crc) = .next (t.withCrc crc)
  have hsame : CarriesCrc crc s step := by
    rw [CarriesCrc, step_of_busy hq hp, step_of_busy (s := s.withCrc crc) hq hp, fetch_withCrc]
    cases hf : s.fetch p with
    | some i => exact carriesCrc_exec s crc h1 hh h2 hf
    | none => exact carriesCrc_engineMove s crc hf
  obtain ⟨u, hu, hu'⟩ := hsame
  cases h.symm.trans hu
  exact hu'

end Sys2Proof.Machine

namespace Sys2Proof.Machine

/-! ## The locator computes the reference (43_container_locator.md R180) -/

/-- The marker lies at `a` in the first `n` bytes of IN where there are six bytes from `a` on and they are its bytes. -/
theorem take_drop_inBytes_eq_marker_iff (s : State) (n a : Nat) :
    ((s.inBytes 0 n).drop a).take 6 = Config.marker ↔ a + 6 ≤ n ∧ s.inBytes a 6 = Config.marker := by
  rw [drop_inBytes, Nat.zero_add, take_inBytes_min]
  constructor
  · intro h
    have hlen : min 6 (n - a) = 6 := (inBytes_length ..).symm.trans (congrArg List.length h)
    exact ⟨by omega, hlen ▸ h⟩
  · rintro ⟨hn, h⟩
    rwa [Nat.min_eq_left (by omega)]

/-- The reference's search on the preamble is the machine's. -/
theorem ref_findMarker (s : State) (start : Nat) :
    Ref.findMarker ((s.inBytes 0 s.inLen.toNat).take 0x90) start = s.findMarker start := by
  refine Option.ext fun a => ?_
  have hpl : min 0x90 s.inLen.toNat = s.preambleLen := rfl
  rw [take_inBytes_min, hpl, Ref.findMarker, inBytes_length, List.find?_range_eq_some, List.mem_range,
    findMarker_eq_some_iff]
  simp only [take_drop_inBytes_eq_marker_iff, Bool.not_eq_true', Bool.and_eq_true, Bool.and_eq_false_iff,
    decide_eq_true_iff, decide_eq_false_iff_not]
  constructor
  · rintro ⟨⟨hs, hl, hm⟩, -, hb⟩
    exact ⟨hs, hl, hm, fun b hsb hba hmb => (hb b hba).elim (absurd hsb) (absurd ⟨by omega, hmb⟩)⟩
  · rintro ⟨hs, hl, hm, hb⟩
    refine ⟨⟨hs, hl, hm⟩, by omega, fun b hba => ?_⟩
    by_cases hsb : start ≤ b
    · exact .inr fun h => hb b hsb hba h.2
    · exact .inl hsb

/-- A field of the file is the machine's field at that address. -/
theorem wordAt_inBytes {s : State} {n a : Nat} (h : a + 4 ≤ n) :
    Ref.wordAt (s.inBytes 0 n) a =
      le32 (s.readIn a) (s.readIn (a + 1)) (s.readIn (a + 2)) (s.readIn (a + 3)) := by
  have hbyte {i : Nat} (hi : i < n) : (s.inBytes 0 n).getD i 0#8 = s.readIn i := by
    rw [List.getD_eq_getElem?_getD, inBytes_getElem?, if_pos hi, Nat.zero_add]
    rfl
  rw [Ref.wordAt, hbyte (by omega), hbyte (by omega), hbyte (by omega), hbyte (by omega)]

/-- The state after the first marker is found (R183). -/
def State.firstTaken (s : State) (m1 : Nat) : State :=
  { s with phase := .busy .secHdr, dp := { s.dp with m1 := m1 } }

/-- The locator's run ends the command in a failure, or leads to the section it has located. -/
def State.LocatesAs (s : State) : Ref.Located → Prop
  | .failed c => c ≠ .ok ∧ ∃ u : State, RunsTo s (u.finish c) ∧ u.results = s.results
  | .found start size crc =>
    ∃ m1 m2, start = m2 + 6 ∧ RunsTo s (((s.firstTaken m1).headerTaken size crc).beginSection m2)

/-- The header's fields are those of the file (R184). -/
theorem fetch_secHdr_eq_wordAt {s : State} {n : Nat} (h8 : 8 ≤ s.dp.m1) (hn : s.dp.m1 ≤ n) :
    s.fetch .secHdr =
      some (.secHdr (Ref.wordAt (s.inBytes 0 n) (s.dp.m1 - 8)) (Ref.wordAt (s.inBytes 0 n) (s.dp.m1 - 4))) := by
  rw [fetch_secHdr_of_le h8, wordAt_inBytes (by omega), wordAt_inBytes (by omega)]
  obtain ⟨k, hk⟩ := Nat.exists_eq_add_of_le' h8
  rw [hk]
  rfl

/-- A first marker in range leads through the header to the second search, which fails or begins the section (R184 to
R187). -/
theorem runsTo_secondMarker {s : State} {m1 : Nat} {size crc : Word} (hq : s.queue = [])
    (hstep : step s = .next (s.firstTaken m1)) (hf : (s.firstTaken m1).fetch .secHdr = some (.secHdr size crc)) :
    (s.findMarker (m1 + 9) = none ∧ RunsTo s (((s.firstTaken m1).headerTaken size crc).finish .marker2NotFound)) ∨
    (∃ m2, s.findMarker (m1 + 9) = some m2 ∧ RunsTo s (((s.firstTaken m1).headerTaken size crc).beginSection m2)) := by
  generalize hu : (s.firstTaken m1).headerTaken size crc = u
  have hheader : step (s.firstTaken m1) = .next u := hu ▸ step_of_fetch (s := s.firstTaken m1) hq rfl hf
  have hpu : u.phase = .busy .marker2 := hu ▸ rfl
  have hsecond : step u = .next u.secondMarker := (step_of_fetch (hu ▸ hq) hpu rfl).trans (exec_marker_of_marker2 hpu)
  have hfind : u.findMarker (u.dp.m1 + 9) = s.findMarker (m1 + 9) := by
    subst hu
    exact findMarker_congr _ rfl fun _ _ => rfl
  have hrun : RunsTo s u.secondMarker := .head hstep (.head hheader (.head hsecond (.refl _)))
  rw [← hfind]
  rcases secondMarker_cases (s := u) with ⟨hf2, h⟩ | ⟨m2, hf2, h⟩ <;> rw [h] at hrun
  · exact .inl ⟨hf2, hrun⟩
  · exact .inr ⟨m2, hf2, hrun⟩

/-- Locate: the two searches and the header between them are the reference's. -/
theorem locatesAs_locate {s : State} (hq : s.queue = []) (hp : s.phase = .busy .marker1) :
    s.LocatesAs (Ref.locate (s.inBytes 0 s.inLen.toNat)) := by
  have hstep : step s = .next s.firstMarker := (step_of_fetch hq hp rfl).trans (exec_marker_of_marker1 hp)
  simp only [Ref.locate, ref_findMarker]
  rcases firstMarker_cases (s := s) with ⟨hf, h⟩ | ⟨m1, hf, h8, h⟩ | ⟨m1, hf, h8, h⟩ <;>
    rw [h] at hstep <;> simp only [hf]
  · exact ⟨nofun, s, .head hstep (.refl _), rfl⟩
  · rw [if_pos h8]
    exact ⟨nofun, s, .head hstep (.refl _), rfl⟩
  rw [if_neg (Nat.not_lt.2 h8)]
  have hm1 : m1 ≤ s.inLen.toNat := by
    have hin := (findMarker_bound hf).2
    have hle := (preambleLen_le s).2
    omega
  have hbytes : (s.firstTaken m1).inBytes 0 s.inLen.toNat = s.inBytes 0 s.inLen.toNat :=
    inBytes_congr _ _ fun _ _ _ => rfl
  have hfetch := fetch_secHdr_eq_wordAt (s := s.firstTaken m1) h8 hm1
  rw [hbytes] at hfetch
  rcases runsTo_secondMarker hq hstep hfetch with ⟨hf2, hrun⟩ | ⟨m2, hf2, hrun⟩ <;> rw [hf2]
  · exact ⟨nofun, _, hrun, rfl⟩
  · exact ⟨m1, m2, rfl, hrun⟩

/-- The section framed is the file's from SEC_START on, as far as its size and the file go (R187). -/
theorem stream_beginSection {s u : State} (hl : u.inLen = s.inLen) (hread : ∀ a, u.readIn a = s.readIn a) (m2 : Nat) :
    (u.beginSection m2).stream = ((s.inBytes 0 s.inLen.toNat).drop (m2 + 6)).take u.dp.size.toNat := by
  rw [drop_inBytes, Nat.zero_add, take_inBytes_min, ← hl]
  exact inBytes_congr _ _ fun a _ _ => hread a

/-! ### DECOMPRESS_UPDATE -/

/-- DECOMPRESS_UPDATE begins to locate (44_commands.md R201). -/
theorem exec_decompressUpdate {s : State} (hb : s.phase.isBusy = false) (hl : s.inLen.toNat ≤ s.params.inCap) :
    exec .decompressUpdate s = .next (s.clearForStart 0#2 .marker1) :=
  congrArg Host.Outcome.next (start_of_accepted .marker1 id hb (by decide) hl)

/-- Settles O58: the locator's run is the reference's, and from the section it has located the run is the framer's. -/
theorem decompressUpdateComputesTheReference : Obligations.DecompressUpdateComputesTheReference := by
  intro s _ hq hb hl
  have hloc := locatesAs_locate (s := s.clearForStart 0#2 .marker1) hq rfl
  have hfile : (s.clearForStart 0#2 .marker1).inBytes 0 s.inLen.toNat = s.inBytes 0 s.inLen.toNat :=
    inBytes_congr _ _ fun _ _ _ => rfl
  rw [State.clearForStart_inLen, hfile] at hloc
  refine ⟨s.clearForStart 0#2 .marker1, ?_⟩
  cases hr : Ref.locate (s.inBytes 0 s.inLen.toNat) with
  | failed c =>
    rw [hr] at hloc
    obtain ⟨hc, u, ⟨k, hk⟩, hres⟩ := hloc
    refine ⟨k, _, exec_decompressUpdate hb hl, hk, rfl, ?_, nofun⟩
    rintro _ ⟨⟩
    exact ⟨decide_eq_false hc, rfl, rfl, hres⟩
  | found start size crc =>
    rw [hr] at hloc
    obtain ⟨m1, m2, rfl, hrun⟩ := hloc
    obtain ⟨t, hrunt, hd, he⟩ := streamEndsAs_decodeStream
      (s := (((s.clearForStart 0#2 .marker1).firstTaken m1).headerTaken size crc).beginSection m2) hq rfl
      (by decide : (0#2 : BitVec 2) ≠ 2#2) rfl rfl rfl
    obtain ⟨k, hk⟩ := hrun.trans hrunt
    refine ⟨k, t, exec_decompressUpdate hb hl, hk, hd, nofun, ?_⟩
    rintro _ _ _ ⟨⟩
    have hstream := stream_beginSection (s := s)
      (u := ((s.clearForStart 0#2 .marker1).firstTaken m1).headerTaken size crc) rfl (fun _ => rfl) m2
    rw [hstream] at he
    exact he

end Sys2Proof.Machine

namespace Sys2Proof.Machine

/-! ## The commands of the host (44_commands.md R200 to R212)

What a START does where it is ignored or refused (where it is accepted, `start_of_accepted` says it), what the other
writes and the reads of a register do, and the statements about them. -/

/-! ### A START -/

/-- A START while BUSY is ignored (R208). -/
theorem start_of_busy {s : State} (m : BitVec 2) (p : Point) (f : State → State) (hb : s.phase.isBusy = true) :
    s.start m p f = s := if_pos hb

/-- A START with the reserved MODE, or with more input than IN holds, ends in BAD_COMMAND (R206). -/
theorem start_of_refused {s : State} {m : BitVec 2} (p : Point) (f : State → State) (hb : s.phase.isBusy = false)
    (hm : m = 3#2 ∨ s.params.inCap < s.inLen.toNat) :
    s.start m p f = (s.clearForStart m p).raiseFault .badCommand none := by
  rcases start_cases (s := s) m p f with ⟨hb', -⟩ | ⟨-, -, h⟩ | ⟨-, hm', hl, -⟩
  · exact absurd hb' (hb ▸ Bool.false_ne_true)
  · exact h
  · exact absurd hm (not_or.2 ⟨hm', Nat.not_lt.2 hl⟩)

/-- A refused START leaves every result register 0 (60_exceptions.md R230). -/
theorem results_badCommand (s : State) (m : BitVec 2) (p : Point) :
    ((s.clearForStart m p).raiseFault .badCommand none).results = Results.zero := rfl

/-- Settles O11: each START is `State.start`, which leaves a BUSY machine as it is. -/
theorem startWhileBusyIsIgnored : Obligations.StartWhileBusyIsIgnored := by
  intro s hb
  refine ⟨?_, ?_, ?_, ?_⟩ <;> exact congrArg Host.Outcome.next (start_of_busy _ _ _ hb)

/-- Settles O10: each accepted command is its `exec_` equation, from which every register is read off. -/
theorem acceptedCommandStartsBusyAndCleared : Obligations.AcceptedCommandStartsBusyAndCleared := by
  intro s hb hl
  refine ⟨⟨_, exec_decompressUpdate hb hl, ?_⟩, ⟨_, exec_decodeStream hb hl, ?_⟩, ⟨_, exec_decodeChunk hb hl, ?_⟩⟩ <;>
    exact ⟨rfl, rfl, rfl, rfl, rfl, rfl, rfl, rfl, rfl, rfl, rfl, rfl, fun _ => rfl, fun _ => rfl, rfl, fun _ => rfl⟩

/-- Settles O12: each of the four STARTs is refused by `start_of_refused`, with its MODE. -/
theorem badCommandFaultsAtOnce : Obligations.BadCommandFaultsAtOnce := by
  intro s i m hb hcase
  have hm : m = 3#2 ∨ s.params.inCap < s.inLen.toNat := hcase.imp And.right And.left
  have hexec : ∃ p, exec i s = .next ((s.clearForStart m p).raiseFault .badCommand none) := by
    rcases hcase with ⟨rfl, rfl⟩ | ⟨-, ⟨rfl, rfl⟩ | ⟨rfl, rfl⟩ | ⟨rfl, rfl⟩⟩ <;>
      exact ⟨_, congrArg Host.Outcome.next (start_of_refused _ _ hb hm)⟩
  obtain ⟨p, hexec⟩ := hexec
  exact ⟨_, hexec, rfl, rfl, rfl, rfl, statusWord_raiseFault .., results_badCommand s m p, rfl, rfl, rfl, rfl, rfl, rfl,
    rfl, fun _ => rfl, fun _ => rfl, rfl, fun _ => rfl⟩

/-! ### The resets -/

theorem exec_srst (s : State) : exec .srst s = .next s.resetEngine := rfl

theorem statusWord_resetEngine (s : State) : s.resetEngine.statusWord = State.reset.statusWord := rfl

/-- Settles O13: both resets are `resetEngine`. -/
theorem resetsRestoreTheResetState : Obligations.ResetsRestoreTheResetState := fun s =>
  ⟨⟨_, exec_srst s, rfl, rfl, rfl, rfl, statusWord_resetEngine s, rfl, rfl, rfl, rfl, rfl, rfl, fun _ => rfl, rfl, rfl,
    rfl, fun _ => rfl, fun _ => rfl⟩, fun _ hq => step_of_hardReset hq⟩

/-! ### Register writes (R211) -/

theorem exec_modeWrite_of_not_busy {s : State} (m : BitVec 2) (hb : s.phase.isBusy = false) :
    exec (.modeWrite m) s = .next { s with mode := m } :=
  congrArg Host.Outcome.next (if_neg (hb ▸ Bool.false_ne_true))

theorem exec_modeWrite_of_busy {s : State} (m : BitVec 2) (hb : s.phase.isBusy = true) :
    exec (.modeWrite m) s = .next s := congrArg Host.Outcome.next (if_pos hb)

/-- Settles O14, by the phase. -/
theorem modeWriteWritesModeOnly : Obligations.ModeWriteWritesModeOnly := fun _ m =>
  ⟨exec_modeWrite_of_not_busy m, exec_modeWrite_of_busy m⟩

/-- The four START commands, which MODE tells apart (R201, R204, R205, R206). -/
def IsStart (i : Instr) : Prop := i = .decompressUpdate ∨ i = .decodeStream ∨ i = .decodeChunk ∨ i = .badMode3

theorem isStart_decodeCtrl {v : Word} (hs : v.getLsbD 1 = false) (hg : v.getLsbD 0 = true) :
    IsStart (decodeCtrl v) := by
  obtain ⟨-, h0, h1, h2, h3, -⟩ := ctrlWordFirstMatchingRowWins v
  have hmode : ∀ m : BitVec 2, m = 0#2 ∨ m = 1#2 ∨ m = 2#2 ∨ m = 3#2 := by decide
  rcases hmode (v.extractLsb' 2 2) with hm | hm | hm | hm
  · exact .inl (h0 hs hg hm)
  · exact .inr (.inl (h1 hs hg hm))
  · exact .inr (.inr (.inl (h2 hs hg hm)))
  · exact .inr (.inr (.inr (h3 hs hg hm)))

/-- While BUSY a CTRL write with SRST = 0 is ignored, START or not (R208, R211). -/
theorem exec_decodeCtrl_of_busy {s : State} {v : Word} (hb : s.phase.isBusy = true) (hs : v.getLsbD 1 = false) :
    exec (decodeCtrl v) s = .next s := by
  cases hg : v.getLsbD 0 with
  | false => rw [decodeCtrl_of_modeWrite hs hg, exec_modeWrite_of_busy _ hb]
  | true =>
    obtain ⟨h0, h1, h2, h3⟩ := startWhileBusyIsIgnored s hb
    rcases isStart_decodeCtrl hs hg with h | h | h | h <;> rw [h]
    · exact h0
    · exact h1
    · exact h2
    · exact h3

section Writes

variable {s : State} {rest : List HostOp} {off : Nat} {v : Word}

theorem step_of_ctrlWrite (hq : s.queue = .regWrite 4 0 v :: rest) :
    step s = exec (decodeCtrl v) { s with queue := rest } := step_of_regWrite hq

theorem step_of_otherWrite (hq : s.queue = .regWrite 4 off v :: rest) (h4 : off % 4 = 0) (hm : off ≤ 0xFC)
    (h0 : off ≠ 0) : step s = .next (State.writeRegister { s with queue := rest } off v) := by
  rw [step_of_regWrite hq, if_pos (isRegisterAccess_iff.2 ⟨rfl, h4, hm⟩), if_neg h0]

theorem writeRegister_inLen (hb : s.phase.isBusy = false) : s.writeRegister 0x08 v = { s with inLen := v } :=
  if_pos ⟨rfl, hb⟩

theorem writeRegister_ignored (h : off ≠ 0x08 ∨ s.phase.isBusy = true) : s.writeRegister off v = s :=
  if_neg fun ⟨h8, hb⟩ => h.elim (· h8) fun hb' => Bool.false_ne_true (hb ▸ hb')

theorem step_of_ignoredWrite (hq : s.queue = .regWrite 4 off v :: rest) (h4 : off % 4 = 0) (hm : off ≤ 0xFC)
    (h0 : off ≠ 0) (h : off ≠ 0x08 ∨ s.phase.isBusy = true) : step s = .next { s with queue := rest } :=
  (step_of_otherWrite hq h4 hm h0).trans (congrArg Host.Outcome.next (writeRegister_ignored h))

end Writes

/-- Settles O41: a write of CTRL runs the command its word decodes to; any other write is `writeRegister`. -/
theorem registerWritesAreIgnoredOrWriteOneRegister : Obligations.RegisterWritesAreIgnoredOrWriteOneRegister := by
  intro s rest off v h4 hm hq
  refine ⟨?_, ?_, fun hb hsrst => ?_, fun h0 h8 => step_of_ignoredWrite hq h4 hm h0 (.inl h8)⟩
  · rintro hb rfl hg hs
    rw [step_of_ctrlWrite hq, decodeCtrl_of_modeWrite hs hg]
    exact exec_modeWrite_of_not_busy _ hb
  · rintro hb rfl
    exact (step_of_otherWrite hq h4 hm (by decide)).trans (congrArg Host.Outcome.next (writeRegister_inLen hb))
  · by_cases h0 : off = 0
    · subst h0
      have hs : v.getLsbD 1 = false := Bool.not_eq_true _ ▸ fun hs => hsrst ⟨rfl, hs⟩
      exact (step_of_ctrlWrite hq).trans (exec_decodeCtrl_of_busy hb hs)
    · exact step_of_ignoredWrite hq h4 hm h0 (.inr hb)

/-! ### Register reads while BUSY (R212) -/

section Reads

variable {s : State} {rest : List HostOp} {off : Nat}

theorem step_of_wordRead (hq : s.queue = .regRead 4 off :: rest) (h4 : off % 4 = 0) (hm : off ≤ 0xFC) :
    step s = .next (State.readRegister { s with queue := rest } off) :=
  (step_of_hostRegRead hq).trans (if_pos (isRegisterAccess_iff.2 ⟨rfl, h4, hm⟩))

theorem isResultOffset_iff : isResultOffset off = true ↔ 0x0C ≤ off ∧ off ≤ 0x30 := by
  simp [isResultOffset]

theorem readRegister_free (hb : s.phase.isBusy = true) (ho : 0x0C ≤ off ∧ off ≤ 0x30) :
    s.readRegister off = { s with bus := Config.freeWord s.draws, draws := s.draws + 1 } :=
  if_pos (Bool.and_eq_true_iff.2 ⟨hb, isResultOffset_iff.2 ho⟩)

theorem readRegister_value (ho : ¬ (0x0C ≤ off ∧ off ≤ 0x30)) :
    s.readRegister off = { s with bus := s.regWord off } :=
  if_neg fun h => ho (isResultOffset_iff.1 (Bool.and_eq_true_iff.1 h).2)

end Reads

/-- Settles O39: a result register reads a free value, any other offset its register. -/
theorem readsWhileBusyLeaveTheEngine : Obligations.ReadsWhileBusyLeaveTheEngine := by
  intro s rest off hb h4 hm hq
  have hstep := step_of_wordRead hq h4 hm
  by_cases ho : 0x0C ≤ off ∧ off ≤ 0x30
  · have hread := readRegister_free (s := { s with queue := rest }) hb ho
    exact ⟨_, _, hread ▸ hstep, by omega, by omega, by omega, by omega, by omega, fun _ _ => ⟨rfl, rfl⟩⟩
  · rw [readRegister_value ho] at hstep
    refine ⟨_, s.draws, hstep, ?_, ?_, ?_, ?_, regWord_reserved _, fun h1 h2 => absurd ⟨h1, h2⟩ ho⟩ <;>
      · rintro rfl
        rfl

/-! ### The end of DECODE_CHUNK (R205) -/

section EndChunkCmd

variable {s : State}

/-- A byte of a run of writes holds its value. -/
theorem readOut_of_putRun {t : State} {base i : Nat} {vs : List Byte}
    (ho : t.outMem = Sparse.putRun s.outMem base vs) (hi : i < vs.length) : some (t.readOut (base + i)) = vs[i]? := by
  have hw : Sparse.get t.outMem (base + i) = vs[i]? := by
    rw [ho, Sparse.get_putRun, if_pos ⟨Nat.le_add_right _ _, Nat.add_lt_add_left hi _⟩, Nat.add_sub_cancel_left]
  rw [State.readOut, hw, List.getElem?_eq_getElem hi]
  rfl

theorem endChunk_of_command (hm : s.dp.modeL = 2#2) : s.endChunk = s.endChunkCmd := if_pos hm

theorem endChunkCmd_outMem : s.endChunkCmd.outMem = Sparse.putRun s.outMem 0 s.chunkBytes := rfl

theorem endChunkCmd_results : s.endChunkCmd.results = { s.results with
    outLen := BitVec.ofNat 32 (min s.olen 0x10000), consumed := BitVec.ofNat 32 s.dp.ip, chunks := 1#32 } := by
  rw [← chunkBytes_length]
  rfl

theorem endChunkCmd_dp : s.endChunkCmd.dp = { s.dp with fwlen := min s.olen 0x10000 } := by
  rw [← chunkBytes_length]
  rfl

theorem readOut_endChunkCmd_chunk {i : Nat} (hi : i < min s.olen 0x10000) :
    some (s.endChunkCmd.readOut i) = s.obuf[i]? := by
  have hchunk := readOut_of_putRun endChunkCmd_outMem (chunkBytes_length.symm ▸ hi)
  rw [Nat.zero_add] at hchunk
  exact hchunk.trans (List.getElem?_take_of_lt (by simp only [Config.chunkCap]; omega))

theorem readOut_endChunkCmd_other {a : Nat} (ha : min s.olen 0x10000 ≤ a) :
    s.endChunkCmd.readOut a = s.readOut a := by
  by_contra hne
  have hrun := readOut_ne_of_putRun endChunkCmd_outMem hne
  rw [chunkBytes_length] at hrun
  omega

end EndChunkCmd

/-- Settles O24: the step is `endChunkCmd`, whose one write is the chunk at 0. -/
theorem decodeChunkEndsWithItsOutput : Obligations.DecodeChunkEndsWithItsOutput := by
  intro s hq hp hm
  refine ⟨s.endChunkCmd, endChunk_of_command hm ▸ step_endChunk hq hp, ?_⟩
  exact ⟨rfl, statusWord_finish .., rfl, rfl, rfl, endChunkCmd_results, fun _ => readOut_endChunkCmd_chunk,
    fun _ => readOut_endChunkCmd_other, endChunkCmd_dp, ⟨rfl, fun _ => rfl⟩, fun _ => rfl⟩

/-! ### What a command depends on (R210) -/

section SameCommand

variable {s t : State}

/-- A START does the same to two machines with the same input, if it does where it is accepted. -/
theorem sameRun_start {m : BitVec 2} {p : Point} {f g : State → State} (hs : s.phase.isBusy = false)
    (ht : t.phase.isBusy = false) (hin : SameInput s t)
    (hfg : m ≠ 3#2 → SameRun (f (s.clearForStart m p)) (g (t.clearForStart m p))) :
    SameRun (s.start m p f) (t.start m p g) := by
  by_cases hm : m = 3#2 ∨ s.params.inCap < s.inLen.toNat
  · rw [start_of_refused p f hs hm, start_of_refused p g ht (hin.params ▸ hin.inLen ▸ hm)]
    exact ⟨⟨hin.params, hin.inLen, hin.readIn⟩, rfl, rfl, rfl, rfl, rfl, fun a ha => absurd ha (Nat.not_lt_zero a)⟩
  · obtain ⟨h3, hl⟩ := not_or.1 hm
    have hl := Nat.not_lt.1 hl
    rw [start_of_accepted p f hs h3 hl, start_of_accepted p g ht h3 (hin.params ▸ hin.inLen ▸ hl)]
    exact hfg h3

/-- Each of the four commands begins the same run on both. -/
theorem sameRun_command {i : Instr} (hi : IsStart i) (hs : s.phase.isBusy = false) (ht : t.phase.isBusy = false)
    (hin : SameInput s t) : ∃ s0 t0, exec i s = .next s0 ∧ exec i t = .next t0 ∧ SameRun s0 t0 := by
  have ⟨hq, hlen, hread⟩ := hin
  rcases hi with rfl | rfl | rfl | rfl <;> refine ⟨_, _, rfl, rfl, sameRun_start hs ht hin fun h3 => ?_⟩
  · exact ⟨⟨hq, hlen, hread⟩, rfl, rfl, rfl, rfl, rfl, rfl, trivial⟩
  · exact ⟨⟨hq, hlen, hread⟩, rfl, rfl, rfl, rfl, rfl, rfl, rfl, congrArg BitVec.toNat hlen, rfl, rfl, rfl,
      fun a ha => absurd ha (Nat.not_lt_zero a)⟩
  · exact ⟨⟨hq, hlen, hread⟩, rfl, rfl, rfl, rfl, rfl, rfl, rfl, congrArg BitVec.toNat hlen, fun h2 => absurd rfl h2⟩
  · exact absurd rfl h3

/-- A START command is a turn of the host: what every such turn keeps, it keeps. -/
theorem hostStepsTo_command {i : Instr} (hi : IsStart i) (h : exec i s = .next t) : HostStepsTo s t := by
  have hw : ∃ w, encodeCtrl i = some w := by rcases hi with rfl | rfl | rfl | rfl <;> exact ⟨_, rfl⟩
  obtain ⟨w, hw⟩ := hw
  exact hostStepsTo_ctrl w (decodeCtrl_of_encodeCtrl hw ▸ h)

theorem HostStepsTo.queue_eq (h : HostStepsTo s t) : t.queue = s.queue := by
  cases h <;> rfl

/-- Two machines in the same run are so after every number of steps. -/
theorem SameRun.after_runSteps (k : Nat) (hs : Inv s) (ht : Inv t) (hqs : s.queue = []) (hqt : t.queue = [])
    (h : SameRun s t) : ∃ s' t', runSteps k s = .next s' ∧ runSteps k t = .next t' ∧ SameRun s' t' := by
  induction k generalizing s t with
  | zero => exact ⟨s, t, rfl, rfl, h⟩
  | succ k ih =>
    obtain ⟨u, hu, hqu, -⟩ := engineStepAlwaysAnswersAndKeepsInput s hqs
    obtain ⟨v, hv, hqv, -⟩ := engineStepAlwaysAnswersAndKeepsInput t hqt
    obtain ⟨v', hv', huv⟩ := stepKeepsSameRun s t u hs ht hqs hqt h hu
    cases hv.symm.trans hv'
    rw [runSteps_succ hu, runSteps_succ hv]
    exact ih (stepKeepsTheInvariant s u hs hu) (stepKeepsTheInvariant t v ht hv) hqu hqv huv

theorem SameRun.statusWord_eq (h : SameRun s t) : t.statusWord = s.statusWord := by
  simp only [State.statusWord, h.phase, h.success, h.fault, h.code]

end SameCommand

/-- Settles O55: the command begins the same run on both, and every step keeps it the same. -/
theorem commandDependsOnlyOnItsInput : Obligations.CommandDependsOnlyOnItsInput := by
  intro i s t hi hs ht hqs hqt hbs hbt hin
  obtain ⟨s0, t0, hes, het, h⟩ := sameRun_command hi hbs hbt hin
  have hss := hostStepsTo_command hi hes
  have hst := hostStepsTo_command hi het
  refine ⟨s0, t0, hes, het, fun k => ?_⟩
  obtain ⟨s', t', hks, hkt, h'⟩ :=
    h.after_runSteps k (hss.keeps_inv hs) (hst.keeps_inv ht) (hss.queue_eq.trans hqs) (hst.queue_eq.trans hqt)
  exact ⟨s', t', hks, hkt, h', h'.statusWord_eq⟩

end Sys2Proof.Machine

namespace Sys2Proof.Machine

/-! ## Fault entry (60_exceptions.md R232)

What a fault records: OUT_LEN, CONSUMED and CHUNKS by the code and the mode, whether or not the decoder gives
information, and the information on top of them. -/

section FaultResults

variable (s : State) {c : Code} (info : Option MatchInfo)

/-- BAD_COMMAND has consumed and completed nothing (R230). -/
theorem faultResults_counts_of_badCommand :
    (s.faultResults .badCommand info).outLen = 0#32 ∧ (s.faultResults .badCommand info).consumed = 0#32 ∧
      (s.faultResults .badCommand info).chunks = 0#32 := by
  cases info <;> exact ⟨rfl, rfl, rfl⟩

/-- A chunk decoded by itself is no record: only the payload bytes read are counted. -/
theorem faultResults_counts_of_chunk (hc : c ≠ .badCommand) (hm : s.dp.modeL = 2#2) :
    (s.faultResults c info).outLen = 0#32 ∧ (s.faultResults c info).chunks = 0#32 ∧
      (s.faultResults c info).consumed = BitVec.ofNat 32 s.dp.ip := by
  cases info <;> simp [State.faultResults, hc, hm]

/-- In a stream the records completed are counted. -/
theorem faultResults_counts_of_stream (hc : c ≠ .badCommand) (hm : s.dp.modeL ≠ 2#2) :
    (s.faultResults c info).outLen = BitVec.ofNat 32 s.dp.fwlen ∧
      (s.faultResults c info).chunks = BitVec.ofNat 32 s.dp.nch ∧
      (s.faultResults c info).consumed = BitVec.ofNat 32 s.dp.sp := by
  cases info <;> simp [State.faultResults, hc, hm]

/-- The decoder's information is recorded on top of what the fault records without it. -/
theorem faultResults_some (c : Code) (i : MatchInfo) :
    s.faultResults c (some i) =
      { s.faultResults c none with
        faultChunk := if c = .badCommand ∨ s.dp.modeL = 2#2 then 0#32 else BitVec.ofNat 32 s.dp.nch
        faultPos := BitVec.ofNat 32 i.pre
        faultInfo := BitVec.ofNat 32 (i.len.toNat * 2 ^ 16 + i.hash.toNat)
        faultIpos := BitVec.ofNat 32 i.oip } := by
  rw [← faultInfo_eq]
  simp [State.faultResults]

/-- No fault writes the registers of the section. -/
theorem faultResults_section (c : Code) :
    (s.faultResults c info).secStart = s.results.secStart ∧ (s.faultResults c info).secSize = s.results.secSize ∧
      (s.faultResults c info).secCrc32 = s.results.secCrc32 := by
  cases info <;> exact ⟨rfl, rfl, rfl⟩

end FaultResults

/-- Settles O46: the entry is `raiseFault`, and its result registers are `faultResults`, counts by the three cases of
code and mode, fault registers by whether the decoder gives information. -/
theorem faultEntryRecords : Obligations.FaultEntryRecords := by
  intro s c info
  obtain ⟨hstart, hsize, hcrc⟩ := faultResults_section s info c
  refine ⟨rfl, ?_, faultResults_counts_of_chunk s info, faultResults_counts_of_stream s info, hstart, hsize, hcrc,
    ?_, ?_⟩
  · rintro rfl
    exact faultResults_counts_of_badCommand s info
  · rintro rfl
    exact ⟨rfl, rfl, rfl, rfl⟩
  · rintro i rfl
    rw [State.raiseFault_results, faultResults_some]
    exact ⟨rfl, rfl, rfl, fun hc hm => if_neg (not_or.2 ⟨hc, hm⟩), fun hm => if_pos (.inr hm)⟩

end Sys2Proof.Machine

namespace Sys2Proof.Machine

/-! ## Reset and the host's turns (70_reset_and_hazards.md)

### Turns left to the engine (R255) -/

section EngineTurns

variable {s : State} {rest : List HostOp} {p : Point} {i : Instr}

/-- What the engine decodes does not depend on the host's pending turns. -/
theorem fetch_setQueue (s : State) (q : List HostOp) (p : Point) :
    State.fetch { s with queue := q } p = s.fetch p := by
  have hbytes (a n : Nat) : State.inBytes { s with queue := q } a n = s.inBytes a n :=
    inBytes_congr _ _ fun _ _ _ => rfl
  cases p with
  | marker1 | secHdr | marker2 | chunkHdr | mask | token | chunkEnd => rfl
  | skip | initCtx => simp only [State.fetch, hbytes]

theorem engineStep_of_fetch (hp : s.phase = .busy p) (hf : s.fetch p = some i) : s.engineStep = exec i s := by
  rw [engineStep_of_busy hp, hf]

theorem step_of_engineTurn_fetch (hq : s.queue = .engineTurn :: rest) (hp : s.phase = .busy p)
    (hf : s.fetch p = some i) : step s = exec i { s with queue := rest } :=
  (step_of_engineTurn hq).trans (engineStep_of_fetch hp ((fetch_setQueue s rest p).trans hf))

theorem step_of_poll_fetch (hq : s.queue = .pollDone :: rest) (hp : s.phase = .busy p) (hf : s.fetch p = some i) :
    step s = exec i s :=
  (step_of_poll hq (by rw [hp, Phase.isDone_busy])).trans (engineStep_of_fetch hp hf)

end EngineTurns

/-- Settles O7: each clause is the lemma of its turn. -/
theorem hostTurnsRunCommandsOrLeaveTheEngine : Obligations.HostTurnsRunCommandsOrLeaveTheEngine := fun _ _ =>
  ⟨fun _ hq => step_of_ctrlWrite hq,
    fun _ _ hp hf => ⟨fun hq => step_of_engineTurn_fetch hq hp hf, fun hq => step_of_poll_fetch hq hp hf⟩,
    fun hq hp => step_of_poll_done hq (by rw [hp, Phase.isDone_done]),
    step_of_idle⟩

/-! ### The host's accesses to IN and OUT (R256, R258, R259) -/

section MemoryAccesses

variable {s : State} {a : Nat} {b : Byte}

theorem hostInWrite_of_busy (hb : s.phase.isBusy = true) : hostInWrite a b s = .refused (.inWriteWhileBusy a) :=
  if_pos hb

theorem hostInWrite_of_not_busy (hb : s.phase.isBusy = false) (ha : a < s.params.inCap) :
    hostInWrite a b s = .next { s with inMem := Sparse.put s.inMem a b } := by
  simp [hostInWrite, hb, Nat.not_le.2 ha]

/-- IN after a write of one byte. -/
theorem readIn_of_put {t : State} (h : t.inMem = Sparse.put s.inMem a b) (c : Nat) :
    t.readIn c = if c = a then b else s.readIn c := by
  rw [State.readIn, h, Sparse.get_put]
  split_ifs <;> rfl

theorem hostOutRead_of_written (ha : a < s.params.outCap) (hb : s.phase.isBusy = false)
    (hl : a < s.results.outLen.toNat) : hostOutRead a s = .next { s with bus := (s.readOut a).setWidth 32 } := by
  simp [hostOutRead, Nat.not_le.2 ha, hb, Nat.not_le.2 hl]

theorem hostOutRead_of_free (ha : a < s.params.outCap) (h : s.phase.isBusy = true ∨ s.results.outLen.toNat ≤ a) :
    hostOutRead a s = .next { s with bus := (Config.freeByte s.draws).setWidth 32, draws := s.draws + 1 } := by
  simp [hostOutRead, Nat.not_le.2 ha, h]

end MemoryAccesses

/-- Settles O43: the write is refused while BUSY, and outside BUSY it is one `Sparse.put`. -/
theorem hostWritesInOutsideBusyOnly : Obligations.HostWritesInOutsideBusyOnly := by
  intro s rest a b hq
  refine ⟨fun hb => (step_of_inWrite hq).trans (hostInWrite_of_busy hb), fun hb ha => ?_⟩
  have hread := readIn_of_put (s := s) (t := { s with queue := rest, inMem := Sparse.put s.inMem a b }) rfl
  exact ⟨_, (step_of_inWrite hq).trans (hostInWrite_of_not_busy hb ha), (hread a).trans (if_pos rfl),
    fun c hc => (hread c).trans (if_neg hc), rfl⟩

/-- Settles O44: the two cases of `hostOutRead` below OUT_CAP. -/
theorem hostReadsOutBelowOutLen : Obligations.HostReadsOutBelowOutLen := fun _ _ _ hq ha =>
  ⟨fun hb hl => (step_of_outRead hq).trans (hostOutRead_of_written ha hb hl),
    fun h => (step_of_outRead hq).trans (hostOutRead_of_free ha h)⟩

/-! ### The state after reset (R250) -/

theorem ctrlWord_resetWith (p : Params) : (State.resetWith p).ctrlWord = 0#32 :=
  show State.reset.ctrlWord = 0#32 by decide

theorem statusWord_resetWith (p : Params) : (State.resetWith p).statusWord = 0#32 :=
  show State.reset.statusWord = 0#32 by decide

/-- Every register but PARAMS is a view of what reset clears. -/
theorem regWord_resetWith (p : Params) {off : Nat} (h : off ≠ 0x34) : (State.resetWith p).regWord off = 0#32 := by
  unfold State.regWord
  split
  case h_1 => exact ctrlWord_resetWith p
  case h_2 => exact statusWord_resetWith p
  case h_14 => contradiction
  all_goals rfl

/-- Settles O45: PARAMS reads the policy of the build, every other register what reset clears. -/
theorem everyRegisterReadsZeroAfterReset : Obligations.EveryRegisterReadsZeroAfterReset := fun p =>
  ⟨rfl, fun _ h => regWord_resetWith p h, paramsWord_eq (State.resetWith p)⟩

theorem statusInv_resetWith (p : Params) : StatusInv (State.resetWith p) := statusInv_of_cleared nofun rfl rfl rfl

theorem memoryInv_resetWith (p : Params) : MemoryInv (State.resetWith p) := (memoryInv_iff _).2 ⟨.nil, .nil, .nil⟩

/-- Reset leaves every datapath register 0 and E EMPTY (log 2). -/
theorem widths_resetWith (p : Params) : Widths (State.resetWith p) := by
  constructor
  case e => exact nofun
  all_goals exact Nat.two_pow_pos _

theorem inv_resetWith {p : Params} (hl : p.Legal) : Inv (State.resetWith p) where
  params := hl
  status := statusInv_resetWith p
  memory := memoryInv_resetWith p
  widths := (widthInv_iff _).2 (widths_resetWith p)
  engine := rfl

theorem Params.legal_default : Params.default.Legal := by decide

/-- Settles O47: every legal build is reset into the invariant, and the default build is legal. -/
theorem resetMeetsTheInvariant : Obligations.ResetMeetsTheInvariant :=
  ⟨inv_resetWith Params.legal_default, fun _ hl => inv_resetWith hl⟩

end Sys2Proof.Machine
